-- ==== Sys2Proof/Word.lean ====
section
/-! DEFINITION. The word types of the block: the 32-bit word, the byte, the binary32 pattern. -/

namespace Sys2Proof

/-- A word: 32 bits, bit 0 the least significant (00_scope.md R8). -/
abbrev Word := BitVec 32

/-- A byte of a word on the bus or in a sample file (20_memory.md R62). -/
abbrev Byte := BitVec 8

/-- A binary32 value, held as its 32-bit pattern (00_scope.md R11): NaN payloads and the sign of
zero are kept wherever a value is only moved. -/
abbrev F32 := BitVec 32

end Sys2Proof
end

