-- ==== Sys2Proof/Config.lean ====
section
/-! DEFINITION. The configuration record `cfg` of 00_scope.md R5, as plain data; the functions of it
that the spec leaves open, as opaque constants the record selects; the two named configurations. -/

namespace Sys2Proof

/-- The float operation a NaN came out of (93_implementation_defined.md U6). -/
inductive FloatOp where
  | add
  | mul
  | sqrt
  deriving DecidableEq, Repr

/-- Which quiet NaN an operation returns (U6, the treatment `parameter`; log 9). The 23 bits are the
sign and the 22 fraction bits below the quiet bit, so every choice is a quiet NaN. -/
inductive NanRule where
  /-- One pattern for every operation. -/
  | fixed (bits : BitVec 23)
  /-- A pattern that may depend on the operation and its operands: the free value `Config.nanBits`. -/
  | ofOperands (id : Nat)
  deriving DecidableEq, Repr

/-- `fadd`, `fmul`, `fsqrt` of `cfg.NUM` (00_scope.md R12). -/
inductive Arith where
  /-- The default: IEEE 754 binary32, round to nearest even, subnormals kept. -/
  | ieee (nan : NanRule)
  /-- A replacement the spec does not fix (D12: "replaceable"). -/
  | custom (id : Nat)
  deriving DecidableEq, Repr

/-- `rfft`, `irfft` of `cfg.NUM` (43_spectral.md R167, R177). -/
inductive Transform where
  /-- The default: direct summation, `REF.rfft` and `REF.irfft` (R168, R178). -/
  | reference
  /-- Any other pair of functions under the laws (a) to (c) of R167 and R177. -/
  | custom (id : Nat)
  deriving DecidableEq, Repr

/-- `PCM2F` and `F2PCM` (41_resampler.md R141). -/
inductive PcmFormat where
  /-- The default: the word is the binary32 pattern. -/
  | float32
  /-- Any other pair, of which the spec requires only that zero goes to zero. -/
  | custom (id : Nat)
  deriving DecidableEq, Repr

/-- One argument of an inference stage with the answer the stage gives there: `none` is the stage's
`Error`, `some (output, newState)` its `Ok` (45_sequencer.md R203). -/
structure StageCase where
  input : List F32
  state : List F32
  answer : Option (List F32 × List F32)
  deriving DecidableEq, Repr

/-- An inference stage: a function of (input, state) and of nothing else (45_sequencer.md R203). Where
`known` lists no answer, the answer is the free function `Config.inferA id` or `Config.inferB id` (log 15). -/
structure Stage where
  known : List StageCase
  id : Nat
  deriving DecidableEq, Repr

/-- The configuration record (00_scope.md R5). No command changes it. -/
structure Cfg where
  /-- `BASE`, the byte address of the register space (20_memory.md R68). -/
  base : Nat
  hopSize : Nat
  ratio : Nat
  frameSize : Nat
  fftSize : Nat
  numHops : Nat
  decTaps : Nat
  intTaps : Nat
  dcoef : List F32
  icoef : List F32
  idxBits : Nat
  magScale : F32
  ifftScale : F32
  pcm : PcmFormat
  arith : Arith
  transform : Transform
  /-- `TWC`, `TWS`: the twiddle tables of the reference transforms (43_spectral.md R168). -/
  twc : List F32
  tws : List F32
  /-- `FFT_EPS` (43_spectral.md R169). -/
  fftEps : Rat
  stageA : Stage
  stageB : Stage
  deriving DecidableEq, Repr

namespace Config

/-- FREE VALUE (log 9): sign and payload of the quiet NaN an operation returns. -/
opaque nanBits : Nat → FloatOp → F32 → F32 → BitVec 23

/-- FREE VALUE (log 12): a replacement `fadd`. -/
opaque customAdd : Nat → F32 → F32 → F32

/-- FREE VALUE (log 12): a replacement `fmul`. -/
opaque customMul : Nat → F32 → F32 → F32

/-- FREE VALUE (log 12): a replacement `fsqrt`. -/
opaque customSqrt : Nat → F32 → F32

/-- FREE VALUE (log 13): bin `k` of a replacement `rfft`. -/
opaque customRfft : Nat → List F32 → Nat → F32 × F32

/-- FREE VALUE (log 13): sample `n` of a replacement `irfft`. -/
opaque customIrfft : Nat → List (F32 × F32) → Nat → F32

/-- FREE VALUE (log 11): a replacement `PCM2F`, away from the zero word. -/
opaque customPcm2f : Nat → Word → F32

/-- FREE VALUE (log 11): a replacement `F2PCM`, away from `+0.0`. -/
opaque customF2pcm : Nat → F32 → Word

/-- FREE VALUE (log 15): `InferA` (45_sequencer.md R203), element by element: output and new state. -/
opaque inferA : Nat → List F32 → List F32 → Option ((Nat → F32) × (Nat → F32))

/-- FREE VALUE (log 15): `InferB` (45_sequencer.md R203). -/
opaque inferB : Nat → List F32 → List F32 → Option ((Nat → F32) × (Nat → F32))

/-- Configuration T of 00_scope.md R7. What T leaves open is a free function here (the stages, the NaN
pattern); `BASE`, which the spec calls irrelevant for T, is 0 (log 25, DESIGN CHOICE). -/
def testT : Cfg where
  base := 0
  hopSize := 2
  ratio := 3
  frameSize := 4
  fftSize := 4
  numHops := 2
  decTaps := 5
  intTaps := 4
  dcoef := [0x3E000000, 0x3E800000, 0x3E800000, 0x3E800000, 0x3E000000]
  icoef := [0x3F000000, 0x3F800000, 0x3F800000, 0x3F000000]
  idxBits := 32
  magScale := 0x3F000000
  ifftScale := 0x3E000000
  pcm := .float32
  arith := .ieee (.ofOperands 0)
  transform := .reference
  twc := [0x3F800000, 0x00000000, 0xBF800000, 0x00000000]
  tws := [0x00000000, 0x3F800000, 0x00000000, 0xBF800000]
  fftEps := 0
  stageA := { known := [], id := 0 }
  stageB := { known := [], id := 0 }

/-- Configuration P128 of 00_scope.md R7, the source's scenario: four sizes, everything else OPEN. -/
def isP128 (c : Cfg) : Bool :=
  c.hopSize == 128 && c.frameSize == 512 && c.fftSize == 512 && c.ratio == 3

end Config

end Sys2Proof
end

