-- ==== Sys2Proof/Machine/Buffer.lean ====
section
/-! DEFINITION. Buffers as lists of elements: reading, writing and building one (00_scope.md R9). -/

namespace Sys2Proof.Machine

/-- `l[i]` of 00_scope.md R9. No rule reads past a buffer of its own length; where a list is shorter (a
state no run reaches, log 16) the element reads as the reset word 0. -/
def elem (l : List Word) (i : Nat) : Word := l.getD i 0

/-- The buffer of `n` elements whose element `i` is `f i`: "for i in 0..n-1: x[i] <- f i", all reads before
all writes (00_scope.md R9). -/
def tabulate {α : Type} (n : Nat) (f : Nat → α) : List α := (List.range n).map f

/-- `x[i] <- v` in a buffer of `n` elements. -/
def store (n : Nat) (l : List Word) (i : Nat) (v : Word) : List Word :=
  tabulate n fun j => if j = i then v else elem l j

/-- The buffer of `n` elements that starts as `l` does. -/
def fit (n : Nat) (l : List Word) : List Word := tabulate n (elem l)

end Sys2Proof.Machine
end

