-- ==== Sys2Proof/Machine/Float.lean ====
section
/-! DEFINITION. The float numerics of `cfg.NUM` (00_scope.md R11 to R13): binary32 on bit patterns, computed
exactly on natural numbers and rounded once. -/

namespace Sys2Proof.Machine

/-- Bits 30 to 23 (R11). -/
def expField (a : F32) : Nat := (a.extractLsb 30 23).toNat

/-- Bits 22 to 0 (R11). -/
def fracField (a : F32) : Nat := (a.extractLsb 22 0).toNat

/-- Bit 31 (R11). -/
def signBit (a : F32) : Bool := a.msb

def isNan (a : F32) : Bool := expField a == 255 && fracField a != 0

def isInf (a : F32) : Bool := expField a == 255 && fracField a == 0

def isFinite (a : F32) : Bool := expField a != 255

/-- `+0.0` or `-0.0`. -/
def isZero (a : F32) : Bool := expField a == 0 && fracField a == 0

/-- The magnitude of a finite value, in units of `2^-149`, the smallest subnormal: every finite binary32
value is a whole number of these units. -/
def magUnits (a : F32) : Nat :=
  if expField a = 0 then fracField a else (2 ^ 23 + fracField a) * 2 ^ (expField a - 1)

/-- The value of a finite pattern, in units of `2^-149`. -/
def units (a : F32) : Int := if signBit a then -(magUnits a : Int) else (magUnits a : Int)

/-- `n / 2^sh` rounded to the nearest whole number, ties to even (R12). -/
def roundShift (n sh : Nat) : Nat :=
  if 2 ^ sh < 2 * (n % 2 ^ sh) ∨ (2 ^ sh = 2 * (n % 2 ^ sh) ∧ n / 2 ^ sh % 2 = 1) then
    n / 2 ^ sh + 1
  else n / 2 ^ sh

/-- How many binary digits `n` has. -/
def bitLength (n : Nat) : Nat := if n = 0 then 0 else Nat.log2 n + 1

/-- Bits 30 to 0 of the magnitude `n / 2^p` units rounded to binary32: nearest, ties to even, gradual
underflow, infinity on overflow (R12). `q` is the exponent of the last kept digit; a carry out of the
fraction moves into the exponent field by itself. -/
def roundMag (n p : Nat) : Nat :=
  let q := bitLength n - (p + 24)
  min (q * 2 ^ 23 + roundShift n (p + q)) (255 * 2 ^ 23)

/-- The pattern of a sign and bits 30 to 0. -/
def withSign (neg : Bool) (mag : Nat) : F32 := BitVec.ofNat 32 (if neg then 2 ^ 31 + mag else mag)

/-- Infinity of a sign. -/
def infOf (neg : Bool) : F32 := withSign neg (255 * 2 ^ 23)

/-- The quiet NaN with a sign bit and 22 payload bits (U6: exponent all ones, fraction bit 22 set). -/
def quietNan (bits : BitVec 23) : F32 := bits.extractLsb 22 22 ++ 0x1FF#9 ++ bits.extractLsb 21 0

/-- The NaN an operation returns (R12, U6; log 9). -/
def nanResult (r : NanRule) (op : FloatOp) (a b : F32) : F32 :=
  match r with
  | .fixed bits => quietNan bits
  | .ofOperands id => quietNan (Config.nanBits id op a b)

/-- The sum of two finite values, rounded once. An exact zero is `-0.0` only when both operands are negative
zeros (IEEE 754, round to nearest; log 10). -/
def addFinite (a b : F32) : F32 :=
  if signBit a = signBit b then withSign (signBit a) (roundMag (magUnits a + magUnits b) 0)
  else if magUnits b < magUnits a then withSign (signBit a) (roundMag (magUnits a - magUnits b) 0)
  else if magUnits a < magUnits b then withSign (signBit b) (roundMag (magUnits b - magUnits a) 0)
  else 0

/-- IEEE 754 addition (R12): `inf - inf` and a NaN operand give a NaN. -/
def ieeeAdd (r : NanRule) (a b : F32) : F32 :=
  if isNan a || isNan b then nanResult r .add a b
  else if isInf a then (if isInf b && signBit a != signBit b then nanResult r .add a b else a)
  else if isInf b then b
  else addFinite a b

/-- IEEE 754 multiplication (R12): `0 * inf` and a NaN operand give a NaN. -/
def ieeeMul (r : NanRule) (a b : F32) : F32 :=
  if isNan a || isNan b then nanResult r .mul a b
  else if isInf a || isInf b then
    (if isZero a || isZero b then nanResult r .mul a b else infOf (signBit a != signBit b))
  else withSign (signBit a != signBit b) (roundMag (magUnits a * magUnits b) 149)

/-- The largest `r + t` with `(r + t)^2 <= x`, `t` below `2^b`, digit by digit from the top. -/
def isqrtFrom (b x r : Nat) : Nat :=
  match b with
  | 0 => r
  | b + 1 => isqrtFrom b x (if (r + 2 ^ b) * (r + 2 ^ b) ≤ x then r + 2 ^ b else r)

/-- The whole part of the square root. -/
def isqrt (x : Nat) : Nat := isqrtFrom (bitLength x) x 0

/-- The square root of a positive finite value, rounded once: one more binary digit says whether the root
goes on below the digits kept. -/
def sqrtFinite (a : F32) : F32 :=
  let x := magUnits a * 2 ^ 149
  withSign false (roundMag (2 * isqrt x + (if isqrt x * isqrt x = x then 0 else 1)) 1)

/-- IEEE 754 square root (R12): a negative non-zero operand and a NaN give a NaN; a zero keeps its sign
(log 10). -/
def ieeeSqrt (r : NanRule) (a : F32) : F32 :=
  if isNan a then nanResult r .sqrt a a
  else if isZero a then a
  else if signBit a then nanResult r .sqrt a a
  else if isInf a then a
  else sqrtFinite a

/-- `fadd` of `cfg.NUM` (R12). -/
def fadd (c : Cfg) (a b : F32) : F32 :=
  match c.arith with
  | .ieee r => ieeeAdd r a b
  | .custom id => Config.customAdd id a b

/-- `fmul` of `cfg.NUM` (R12). -/
def fmul (c : Cfg) (a b : F32) : F32 :=
  match c.arith with
  | .ieee r => ieeeMul r a b
  | .custom id => Config.customMul id a b

/-- `fsqrt` of `cfg.NUM` (R12). -/
def fsqrt (c : Cfg) (a : F32) : F32 :=
  match c.arith with
  | .ieee r => ieeeSqrt r a
  | .custom id => Config.customSqrt id a

/-- `fneg` flips bit 31 and is exact (R12). -/
def fneg (a : F32) : F32 := a ^^^ 0x80000000

/-- `fsub(a, b) = fadd(a, fneg(b))` (R12). -/
def fsub (c : Cfg) (a b : F32) : F32 := fadd c a (fneg b)

/-- A left fold of `fadd` over the terms `t 0 .. t (n-1)`, one rounding per addition, from `start` (R13). -/
def fsumFrom (c : Cfg) (start : F32) (n : Nat) (t : Nat → F32) : F32 :=
  (List.range n).foldl (fun acc k => fadd c acc (t k)) start

/-- The ordered sum `fsum(k = 0..n-1, t(k))` (R13): from `+0.0`. -/
def fsum (c : Cfg) (n : Nat) (t : Nat → F32) : F32 := fsumFrom c 0 n t

/-- `PCM2F` (41_resampler.md R141); the zero word is `+0.0` in every configuration. -/
def pcm2f (c : Cfg) (w : Word) : F32 :=
  match c.pcm with
  | .float32 => w
  | .custom id => if w = 0 then 0 else Config.customPcm2f id w

/-- `F2PCM` (41_resampler.md R141); `+0.0` is the zero word in every configuration. -/
def f2pcm (c : Cfg) (a : F32) : Word :=
  match c.pcm with
  | .float32 => a
  | .custom id => if a = 0 then 0 else Config.customF2pcm id a

end Sys2Proof.Machine
end

