-- ==== Sys2Proof/Syntax.lean ====
section
/-! DEFINITION. The eighteen commands (30_encoding.md R97), the windows they name (10_state.md R24), the
two bus agents. -/

namespace Sys2Proof

/-- The two initiators of bus accesses (00_scope.md R15, 20_memory.md R67). Agent G has no bus access; its
one act is an event of its own. -/
inductive Agent where
  /-- The interrupt context. -/
  | I
  /-- The main loop. -/
  | M
  deriving DecidableEq, Repr

/-- The nineteen windows (10_state.md R24). -/
inductive Window where
  | nin | nout | mhi | mho | ddl | idl | dcoef | icoef | aframe | spec | mag | mask
  | tframe | sframe | acc | stateA | stateB | capwin | playwin
  deriving DecidableEq, Repr

/-- The two circular hop buffers (10_state.md R23). -/
inductive HopBuffer where
  | capbuf
  | playbuf
  deriving DecidableEq, Repr

/-- The commands of 30_encoding.md R97, in the order of the opcode table. The operands of formats S and X
are the field values as natural numbers (R94, R95); `Instr.wellFormed` bounds them. -/
inductive Instr where
  /-- `SYS.NOP` (R220) -/
  | sysNop
  /-- `SYS.SETUP` (R221) -/
  | sysSetup
  /-- `CAP.POP` (R123) -/
  | capPop
  /-- `PLAY.PUSH` (R124) -/
  | playPush
  /-- `RS.DEC` (R142) -/
  | rsDec
  /-- `RS.INT` (R145) -/
  | rsInt
  /-- `FRM.PUSH` (R160) -/
  | frmPush
  /-- `FFT.ANALYZE` (R170) -/
  | fftAnalyze
  /-- `FFT.MSYN` (R175) -/
  | fftMsyn
  /-- `OLA.ACC src` (R190): `sel` 0 is `SFRAME`, 1 is `TFRAME` -/
  | olaAcc (sel : Nat)
  /-- `OLA.EMIT` (R191) -/
  | olaEmit
  /-- `SEQ.STEP` (R202) -/
  | seqStep
  /-- `BUF.RD win, idx` (R223) -/
  | bufRd (win idx : Nat)
  /-- `BUF.WR win, idx` (R224) -/
  | bufWr (win idx : Nat)
  /-- `CAP.PUSH` (R122) -/
  | capPush
  /-- `PLAY.POP` (R125) -/
  | playPop
  /-- `IWIN.RD win, idx` (R225) -/
  | iwinRd (win idx : Nat)
  /-- `IWIN.WR win, idx` (R226) -/
  | iwinWr (win idx : Nat)
  deriving DecidableEq, Repr

end Sys2Proof
end

