-- ==== Sys2Proof/Machine/Geometry.lean ====
section
/-! DEFINITION. The lengths of the buffers, and which configurations are legal (00_scope.md R5, R6;
10_state.md R23, R24). -/

namespace Sys2Proof.Machine

/-- `NHOP = RATIO * HOP_SIZE` (00_scope.md R5). -/
def nhop (c : Cfg) : Nat := c.ratio * c.hopSize

/-- The length of each window (10_state.md R24). -/
def windowLen (c : Cfg) : Window → Nat
  | .nin => nhop c
  | .nout => nhop c
  | .mhi => c.hopSize
  | .mho => c.hopSize
  | .ddl => c.decTaps - 1
  | .idl => c.intTaps - 1
  | .dcoef => c.decTaps
  | .icoef => c.intTaps
  | .aframe => c.frameSize
  | .spec => 2 * c.fftSize
  | .mag => c.fftSize / 2 + 1
  | .mask => c.fftSize / 2 + 1
  | .tframe => c.frameSize
  | .sframe => c.frameSize
  | .acc => c.frameSize
  | .stateA => c.fftSize
  | .stateB => c.fftSize
  | .capwin => nhop c
  | .playwin => nhop c

/-- The nineteen windows (10_state.md R24). -/
def allWindows : List Window :=
  [.nin, .nout, .mhi, .mho, .ddl, .idl, .dcoef, .icoef, .aframe, .spec, .mag, .mask, .tframe, .sframe, .acc,
   .stateA, .stateB, .capwin, .playwin]

/-- The largest value of an index counter (40_hopbuffer.md R130). -/
def maxIndex (c : Cfg) : Nat := 2 ^ c.idxBits - 1

/-- Finite and positive, as R6 asks of the two scales. -/
def isPositiveFinite (a : F32) : Bool := isFinite a && !signBit a && !isZero a

/-- The constraints of 00_scope.md R6, and beside them what the types of the record of R5 and the register
map say (log 7): table lengths, finite twiddles (43_spectral.md R168), `BASE` 128-byte aligned (20_memory.md R68), counters that fit a 32-bit
register (10_state.md R41), `FFT_EPS >= 0`. -/
def cfgValid (c : Cfg) : Bool :=
  decide (1 ≤ c.ratio) && (decide (1 ≤ c.hopSize) && (decide (c.frameSize = c.fftSize) &&
  (decide (c.fftSize % 2 = 0) && (decide (2 ≤ c.fftSize) && (decide (c.frameSize % c.hopSize = 0) &&
  (decide (1 ≤ c.numHops) && (decide (1 ≤ c.decTaps) && (decide (1 ≤ c.intTaps) &&
  (decide (c.numHops < 2 ^ c.idxBits) && (decide (nhop c ≤ 65536) &&
  (allWindows.all (fun w => decide (windowLen c w ≤ 65536)) &&
  (isPositiveFinite c.magScale && (isPositiveFinite c.ifftScale &&
  (decide (c.dcoef.length = c.decTaps) && (decide (c.icoef.length = c.intTaps) &&
  (decide (c.twc.length = c.fftSize) && (decide (c.tws.length = c.fftSize) &&
  (c.twc.all isFinite && (c.tws.all isFinite &&
  (decide (c.base % 128 = 0) && (decide (c.idxBits ≤ 32) && decide (0 ≤ c.fftEps))))))))))))))))))))))

/-- `IFFT_SCALE = TRUE_INVERSE = 1/FFT_SIZE` (43_spectral.md R176). -/
def isTrueInverse (c : Cfg) : Bool := units c.ifftScale * c.fftSize == 2 ^ 149

/-- `IFFT_SCALE = UNITY_OLA = HOP_SIZE/(FRAME_SIZE*FFT_SIZE)` (43_spectral.md R176). -/
def isUnityOla (c : Cfg) : Bool := units c.ifftScale * (c.frameSize * c.fftSize) == c.hopSize * 2 ^ 149

end Sys2Proof.Machine
end

