-- ==== Sys2Proof/Machine/Transforms.lean ====
section
/-! DEFINITION. The real transforms of `cfg.NUM` (43_spectral.md R167, R168, R177, R178). A bin is a pair
(real part, imaginary part). -/

namespace Sys2Proof.Machine

/-- Element `k` of a list of bins. -/
def bin (y : List (F32 × F32)) (k : Nat) : F32 × F32 := y.getD k (0, 0)

/-- `NF/2 + 1`, the number of bins a real transform has (R167). -/
def binCount (c : Cfg) : Nat := c.fftSize / 2 + 1

/-- `TWC[(k*n) mod NF]` (R168). -/
def twiddleCos (c : Cfg) (k n : Nat) : F32 := elem c.twc (k * n % c.fftSize)

/-- `TWS[(k*n) mod NF]` (R168). -/
def twiddleSin (c : Cfg) (k n : Nat) : F32 := elem c.tws (k * n % c.fftSize)

/-- Bins 0 and NF/2 are real (R167 (b)). -/
def isRealBin (c : Cfg) (k : Nat) : Bool := k == 0 || k == c.fftSize / 2

/-- `REF.rfft` (R168). -/
def refRfft (c : Cfg) (x : List F32) : List (F32 × F32) :=
  tabulate (binCount c) fun k =>
    (fsum c c.fftSize fun n => fmul c (elem x n) (twiddleCos c k n),
     if isRealBin c k then 0
     else fsum c c.fftSize fun n => fmul c (elem x n) (fneg (twiddleSin c k n)))

/-- The chosen forward transform before law (c) of R167: `REF.rfft`, or a free function whose bins 0 and NF/2
are real (log 13). -/
def chosenRfft (c : Cfg) (x : List F32) : List (F32 × F32) :=
  match c.transform with
  | .reference => refRfft c x
  | .custom id =>
    tabulate (binCount c) fun k =>
      ((Config.customRfft id x k).1, if isRealBin c k then 0 else (Config.customRfft id x k).2)

/-- `cfg.NUM.rfft` (R167). Law (c) stands here, for every choice of transform and of arithmetic: an all-zero
argument gives `+0.0` everywhere. With the default arithmetic it changes nothing of `REF.rfft`, whose sums of
zeros are `+0.0` (log 13). -/
def rfft (c : Cfg) (x : List F32) : List (F32 × F32) :=
  if x.all isZero then tabulate (binCount c) fun _ => (0, 0) else chosenRfft c x

/-- The first two terms of `REF.irfft` at sample `n`: `re(Y[0])` plus or minus `re(Y[NF/2])` (R178). -/
def refIrfftStart (c : Cfg) (y : List (F32 × F32)) (n : Nat) : F32 :=
  if n % 2 = 0 then fadd c (bin y 0).1 (bin y (c.fftSize / 2)).1
  else fadd c (bin y 0).1 (fneg (bin y (c.fftSize / 2)).1)

/-- The term of bin `k` of `REF.irfft` at sample `n`, before doubling (R178). -/
def refIrfftTerm (c : Cfg) (y : List (F32 × F32)) (n k : Nat) : F32 :=
  fsub c (fmul c (bin y k).1 (twiddleCos c k n)) (fmul c (bin y k).2 (twiddleSin c k n))

/-- `REF.irfft` (R178): bins 1 to NF/2-1 in rising order, each doubled, then `IFFT_SCALE`. -/
def refIrfft (c : Cfg) (y : List (F32 × F32)) : List F32 :=
  tabulate c.fftSize fun n =>
    fmul c c.ifftScale
      (fsumFrom c (refIrfftStart c y n) (c.fftSize / 2 - 1) fun k =>
        fmul c 0x40000000 (refIrfftTerm c y n (k + 1)))

/-- The bins with the imaginary parts of bins 0 and NF/2 put to `+0.0`: what an `irfft` may depend on
(R177 (b)). -/
def dropRealBinImag (c : Cfg) (y : List (F32 × F32)) : List (F32 × F32) :=
  tabulate (binCount c) fun k => ((bin y k).1, if isRealBin c k then 0 else (bin y k).2)

/-- A zero that keeps the sign of a pattern. -/
def zeroOf (a : F32) : F32 := a &&& 0x80000000

/-- Every part that an `irfft` may depend on is a zero of either sign (R177 (b), (c)). -/
def isZeroBins (c : Cfg) (y : List (F32 × F32)) : Bool :=
  (dropRealBinImag c y).all fun b => isZero b.1 && isZero b.2

/-- The chosen inverse transform before law (c) of R177: `REF.irfft`, or a free function that does not see the
imaginary parts of bins 0 and NF/2 (log 13). -/
def chosenIrfft (c : Cfg) (y : List (F32 × F32)) : List F32 :=
  match c.transform with
  | .reference => refIrfft c y
  | .custom id => tabulate c.fftSize fun n => Config.customIrfft id (dropRealBinImag c y) n

/-- `cfg.NUM.irfft` (R177). Law (c) stands here, for every choice of transform and of arithmetic: all-zero bins
give zeros, of the sign the chosen transform gives them. With the default arithmetic it changes nothing of
`REF.irfft` (log 13). -/
def irfft (c : Cfg) (y : List (F32 × F32)) : List F32 :=
  if isZeroBins c y then (chosenIrfft c y).map zeroOf else chosenIrfft c y

end Sys2Proof.Machine
end

