-- ==== Sys2Proof/Machine/Inference.lean ====
section
/-! DEFINITION. The two inference stages, external functions of (input, state) (45_sequencer.md R203). -/

namespace Sys2Proof.Machine

/-- The answer the configuration writes out for one argument, if it does. -/
def knownAnswer (stage : Stage) (input state : List F32) : Option (Option (List F32 × List F32)) :=
  (stage.known.find? fun k => k.input == input && k.state == state).map (·.answer)

/-- One call of a stage (R203): `some (output, newState)` is `Ok`, `none` is `Error`. The sizes are those of
the stage's type whatever the function (U9). -/
def callStage (free : Nat → List F32 → List F32 → Option ((Nat → F32) × (Nat → F32))) (stage : Stage)
    (outLen stateLen : Nat) (input state : List F32) : Option (List F32 × List F32) :=
  match knownAnswer stage input state with
  | some (some (out, st)) => some (fit outLen out, fit stateLen st)
  | some none => none
  | none =>
    match free stage.id input state with
    | some (out, st) => some (tabulate outLen out, tabulate stateLen st)
    | none => none

/-- `InferA : f32^(NF/2+1) x f32^NF -> Ok(f32^(NF/2+1), f32^NF) | Error` (R203). -/
def inferA (c : Cfg) (mag state : List F32) : Option (List F32 × List F32) :=
  callStage Config.inferA c.stageA (binCount c) c.fftSize mag state

/-- `InferB : f32^F x f32^NF -> Ok(f32^F, f32^NF) | Error` (R203). -/
def inferB (c : Cfg) (frame state : List F32) : Option (List F32 × List F32) :=
  callStage Config.inferB c.stageB c.frameSize c.fftSize frame state

end Sys2Proof.Machine
end

