-- ==== Sys2Proof/Machine/State.lean ====
section
/-! DEFINITION. The state of the block (10_state.md R20 to R47), the events that reach it, its faults, what
the model refuses, and the state after reset. -/

namespace Sys2Proof.Machine

/-- The PipelineController states, the eleven values `SEQ` holds (10_state.md R22, U5). -/
inductive SeqState where
  | idle | capturing | decimating | framing | analyzing | inferringA | masking | inferringB
  | overlapAdding | resampling | emitting
  deriving DecidableEq, Repr

/-- The registers of the register space (10_state.md R36). -/
inductive Reg where
  | id | status | err | ctrl | readPtr | procReadPtr | writePtr | procWritePtr
  | cmd | data | result | icmd | idata | iresult
  | pHopSize | pFrameSize | pFftSize | pNumHops | pRatio | pDecTaps | pIntTaps | pIdxBits
  | pMagScale | pIfftScale
  deriving DecidableEq, Repr

/-- The result codes (30_encoding.md R100). -/
inductive ResultCode where
  | ok | empty | illegal | range | perm | halted | overrun | inferA | inferB | idxOvf
  deriving DecidableEq, Repr

/-- Why a bus access is a bus error (20_memory.md R66). -/
inductive BusErrorCause where
  /-- Not a 32-bit access (R63). -/
  | width
  /-- `off mod 4 != 0` (R63). -/
  | misaligned
  /-- Outside offsets 0x00 to 0x7F of the block (R66). -/
  | outside
  /-- A reserved offset (10_state.md R45). -/
  | reserved
  /-- A read of `CMD` or `ICMD`, or of a register this agent may not access (10_state.md R36). -/
  | notReadable
  /-- A write to a read-only register, or to a register this agent may not access (10_state.md R36). -/
  | notWritable
  deriving DecidableEq, Repr

/-- One event of the total order of all events (20_memory.md R75). -/
inductive Event where
  /-- A bus read by an agent, `bits` wide, at a byte address (20_memory.md R63, R67). -/
  | read (agent : Agent) (addr bits : Nat)
  /-- A bus write of `value` by an agent (20_memory.md R63, R67). -/
  | write (agent : Agent) (addr bits : Nat) (value : Word)
  /-- The toggle of agent G (10_state.md R40). -/
  | toggle
  /-- Reset, an event of the environment (70_reset_and_hazards.md R270). -/
  | reset
  deriving DecidableEq, Repr

/-- The five faults of the block (60_exceptions.md R241). SAFE and not a stop of the machine: a command that
raises one RECORDS it (`ERR` bit, result code) and goes to a next state in which the block is halted
(R245, R247), so no step of this model ends in `Outcome.fault` (log 8). -/
inductive Fault where
  /-- Raised by `CAP.PUSH` with the capture buffer full (40_hopbuffer.md R122). -/
  | captureOverrun
  /-- Raised by `PLAY.PUSH`, or `SEQ.STEP` in Emitting, with the playback buffer full (R124, R202). -/
  | playbackOverrun
  /-- Raised by `SEQ.STEP` when `InferA` reports failure (45_sequencer.md R204). -/
  | inferenceA
  /-- Raised by `SEQ.STEP` when `InferB` reports failure (45_sequencer.md R205). -/
  | inferenceB
  /-- Raised by a producer whose write index is at its maximum (40_hopbuffer.md R130). -/
  | indexOverflow
  deriving DecidableEq, Repr

/-- What the model refuses. Every refusal is SAFE: nothing can be proved of a run past it. -/
inductive Refusal where
  /-- An instruction without a meaning, refused in `exec`'s arm. No arm is. -/
  | notModelled (mnemonic : String)
  /-- Raised by a step on a bus error (20_memory.md R66: "A model treats the access as refused"). -/
  | busError (cause : BusErrorCause)
  /-- Raised by a step when the configuration breaks a constraint (00_scope.md R6: "a model refuses a
  `cfg` that breaks one"). -/
  | invalidConfig
  deriving DecidableEq, Repr

/-- The hop buffers (10_state.md R23) and the seventeen windows that are state (10_state.md R24). -/
structure Memory where
  capbuf : List (List Word)
  playbuf : List (List Word)
  nin : List Word
  nout : List Word
  mhi : List Word
  mho : List Word
  ddl : List Word
  idl : List Word
  aframe : List Word
  spec : List Word
  mag : List Word
  mask : List Word
  tframe : List Word
  sframe : List Word
  acc : List Word
  stateA : List Word
  stateB : List Word
  capwin : List Word
  playwin : List Word
  deriving DecidableEq, Repr

/-- The state of the block, and three fields of the model's own: `cfg` (log 1), `events` (log 3),
`readData` (log 5). -/
structure State where
  /-- The configuration record: a parameter of the step relation, constant (10_state.md R49, R44). -/
  cfg : Cfg
  /-- Write index of the capture buffer (R21). -/
  readPtr : Nat
  /-- Read index of the capture buffer (R21). -/
  processReadPtr : Nat
  /-- Read index of the playback buffer (R21). -/
  writePtr : Nat
  /-- Write index of the playback buffer (R21). -/
  processWritePtr : Nat
  /-- The sequencer state (R22). -/
  seq : SeqState
  /-- All buffers (R23, R24). -/
  mem : Memory
  /-- The sticky error register (R39). -/
  err : Word
  /-- `CTRL.PASS_THROUGH` (R40). -/
  passThrough : Bool
  /-- `DATA`, `RESULT` of the M port (R42). -/
  data : Word
  result : Word
  /-- `IDATA`, `IRESULT` of the I port (R43). -/
  idata : Word
  iresult : Word
  /-- The model's own: the events still to come, in their total order (20_memory.md R75). -/
  events : List Event
  /-- The model's own: what the last bus read delivered. -/
  readData : Option Word
  deriving DecidableEq, Repr

/-- What a step answers. -/
abbrev StepResult := Host.Outcome State Fault Refusal

/-- A buffer after reset: every element 0x00000000 (10_state.md R47). -/
def zeros (n : Nat) : List Word := List.replicate n 0

/-- Every buffer after reset (10_state.md R47). -/
def Memory.zero (c : Cfg) : Memory where
  capbuf := List.replicate c.numHops (zeros (nhop c))
  playbuf := List.replicate c.numHops (zeros (nhop c))
  nin := zeros (windowLen c .nin)
  nout := zeros (windowLen c .nout)
  mhi := zeros (windowLen c .mhi)
  mho := zeros (windowLen c .mho)
  ddl := zeros (windowLen c .ddl)
  idl := zeros (windowLen c .idl)
  aframe := zeros (windowLen c .aframe)
  spec := zeros (windowLen c .spec)
  mag := zeros (windowLen c .mag)
  mask := zeros (windowLen c .mask)
  tframe := zeros (windowLen c .tframe)
  sframe := zeros (windowLen c .sframe)
  acc := zeros (windowLen c .acc)
  stateA := zeros (windowLen c .stateA)
  stateB := zeros (windowLen c .stateB)
  capwin := zeros (windowLen c .capwin)
  playwin := zeros (windowLen c .playwin)

/-- The block of configuration `c` after reset (10_state.md R47), no event waiting. -/
def State.resetOf (c : Cfg) : State where
  cfg := c
  readPtr := 0
  processReadPtr := 0
  writePtr := 0
  processWritePtr := 0
  seq := .idle
  mem := Memory.zero c
  err := 0
  passThrough := false
  data := 0
  result := 0
  idata := 0
  iresult := 0
  events := []
  readData := none

/-- The state after reset of the machine whose configuration is the spec's T (00_scope.md R7; log 2). -/
def State.reset : State := State.resetOf Config.testT

end Sys2Proof.Machine
end

