-- ==== Sys2Proof/Machine/Flags.lean ====
section
/-! DEFINITION. The predicates of `STATUS` and `ERR` (10_state.md R35, R38, R39). The block has no other
flags: no command sets a carry, zero, sign or overflow flag (R35). -/

namespace Sys2Proof.Machine

/-- `CAP_AVAIL`: the source's polling condition (10_state.md R38, 45_sequencer.md R201). -/
def capAvail (s : State) : Bool := decide (s.processReadPtr < s.readPtr)

/-- `PLAY_AVAIL` (R38). -/
def playAvail (s : State) : Bool := decide (s.writePtr < s.processWritePtr)

/-- `CAP_FULL` (R38). -/
def capFull (s : State) : Bool := decide (s.cfg.numHops ≤ s.readPtr - s.processReadPtr)

/-- `PLAY_FULL` (R38). -/
def playFull (s : State) : Bool := decide (s.cfg.numHops ≤ s.processWritePtr - s.writePtr)

/-- `HALTED`: the block is halted iff `ERR != 0` (R38, 60_exceptions.md R247). -/
def halted (s : State) : Bool := s.err != 0

/-- The code of a sequencer state (10_state.md R22). -/
def seqCode : SeqState → BitVec 4
  | .idle => 0
  | .capturing => 1
  | .decimating => 2
  | .framing => 3
  | .analyzing => 4
  | .inferringA => 5
  | .masking => 6
  | .inferringB => 7
  | .overlapAdding => 8
  | .resampling => 9
  | .emitting => 10

/-- `STATUS`: bits 0 to 4 the five predicates, bits 11:8 `SEQ`, the rest 0 (R38). -/
def statusWord (s : State) : Word :=
  0#20 ++ seqCode s.seq ++ 0#3 ++ BitVec.ofBool (halted s) ++ BitVec.ofBool (playFull s) ++
    BitVec.ofBool (capFull s) ++ BitVec.ofBool (playAvail s) ++ BitVec.ofBool (capAvail s)

/-- `CTRL`: bit 0 is `PASS_THROUGH`, bits 31:1 read 0 (R40). -/
def ctrlWord (s : State) : Word := 0#31 ++ BitVec.ofBool s.passThrough

/-- The `ERR` bit of each fault (R39). -/
def errBit : Fault → Word
  | .captureOverrun => 0x01
  | .playbackOverrun => 0x02
  | .inferenceA => 0x04
  | .inferenceB => 0x08
  | .indexOverflow => 0x10

end Sys2Proof.Machine
end

