-- ==== Sys2Proof/WellFormed.lean ====
section
/-! DEFINITION. Which instruction terms the encoding can write: the operand bounds of 30_encoding.md R92. -/

namespace Sys2Proof

/-- An operand pair of format X fits its fields: `a` has 8 bits, `idx` 16 (R92). Whether `a` names a window
and `idx` lies in it is admission's question (R98), not the encoding's. -/
def fitsFormatX (win idx : Nat) : Bool := decide (win < 256) && decide (idx < 65536)

/-- The well-formed instructions: exactly those some command word stands for (R92, R95, R97). -/
def Instr.wellFormed : Instr → Bool
  | .olaAcc sel => decide (sel < 2)
  | .bufRd win idx => fitsFormatX win idx
  | .bufWr win idx => fitsFormatX win idx
  | .iwinRd win idx => fitsFormatX win idx
  | .iwinWr win idx => fitsFormatX win idx
  | .sysNop => true
  | .sysSetup => true
  | .capPop => true
  | .playPush => true
  | .rsDec => true
  | .rsInt => true
  | .frmPush => true
  | .fftAnalyze => true
  | .fftMsyn => true
  | .olaEmit => true
  | .seqStep => true
  | .capPush => true
  | .playPop => true

end Sys2Proof
end

