-- ==== Sys2Proof/Decode.lean ====
section
/-! DEFINITION. The command decoder (30_encoding.md R92 to R99), the encoder, and the opcode table of R97 as
masks and matches. -/

namespace Sys2Proof

/-- Why a word is no command (30_encoding.md R99). The block answers each with `E_ILLEGAL`. -/
inductive DecodeReject where
  /-- `op` is one of the unassigned values. -/
  | unassignedOp
  /-- A format-N command with `a` or `idx` not zero, or `OLA.ACC` with `idx` not zero. -/
  | nonzeroField
  /-- `OLA.ACC` with `a` above 1. -/
  | reservedSelect
  deriving DecidableEq, Repr

/-- `op = w[7:0]` (R92). -/
def opField (w : Word) : Nat := (w.extractLsb 7 0).toNat

/-- `a = w[15:8]` (R92). -/
def aField (w : Word) : Nat := (w.extractLsb 15 8).toNat

/-- `idx = w[31:16]` (R92). -/
def idxField (w : Word) : Nat := (w.extractLsb 31 16).toNat

/-- Format N: both operand fields must be zero (R92). -/
def formatN (w : Word) (i : Instr) : Except DecodeReject Instr :=
  if aField w = 0 ∧ idxField w = 0 then .ok i else .error .nonzeroField

/-- Format S: `idx` must be zero, `a` is 0 or 1 (R92, R95). -/
def formatS (w : Word) (build : Nat → Instr) : Except DecodeReject Instr :=
  if idxField w = 0 then
    if aField w < 2 then .ok (build (aField w)) else .error .reservedSelect
  else .error .nonzeroField

/-- Format X: `a` is a window id, `idx` an element index (R92). -/
def formatX (w : Word) (build : Nat → Nat → Instr) : Except DecodeReject Instr :=
  .ok (build (aField w) (idxField w))

/-- The decoder: the opcode map of R96 and R97, total on words, every other word rejected by name (R99). -/
def decode (w : Word) : Except DecodeReject Instr :=
  if opField w = 0x00 then formatN w .sysNop
  else if opField w = 0x01 then formatN w .sysSetup
  else if opField w = 0x10 then formatN w .capPop
  else if opField w = 0x11 then formatN w .playPush
  else if opField w = 0x20 then formatN w .rsDec
  else if opField w = 0x21 then formatN w .rsInt
  else if opField w = 0x30 then formatN w .frmPush
  else if opField w = 0x40 then formatN w .fftAnalyze
  else if opField w = 0x41 then formatN w .fftMsyn
  else if opField w = 0x50 then formatS w .olaAcc
  else if opField w = 0x51 then formatN w .olaEmit
  else if opField w = 0x60 then formatN w .seqStep
  else if opField w = 0x70 then formatX w .bufRd
  else if opField w = 0x71 then formatX w .bufWr
  else if opField w = 0x80 then formatN w .capPush
  else if opField w = 0x81 then formatN w .playPop
  else if opField w = 0x90 then formatX w .iwinRd
  else if opField w = 0x91 then formatX w .iwinWr
  else .error .unassignedOp

/-- A word from its bytes, lowest address first: little-endian (20_memory.md R62). `none` unless there are
exactly four (30_encoding.md R91: every command word is 32 bits). -/
def wordOfBytes : List Byte → Option Word
  | [b0, b1, b2, b3] => some (b3 ++ b2 ++ b1 ++ b0)
  | _ => none

/-- The bytes of a word, lowest address first (20_memory.md R62). -/
def bytesOfWord (w : Word) : List Byte :=
  [w.extractLsb 7 0, w.extractLsb 15 8, w.extractLsb 23 16, w.extractLsb 31 24]

/-- The decoder on the bytes of a command word as the bus lays them out. -/
def decodeBytes (bs : List Byte) : Option Instr :=
  match wordOfBytes bs with
  | none => none
  | some w =>
    match decode w with
    | .ok i => some i
    | .error _ => none

/-- The host's entry: the instruction the decoder reads from a table row's bits. -/
def decodeTableWord (nbits w : Nat) : Option Instr :=
  decodeBytes (bytesOfWord (BitVec.ofNat 32 (w % 2 ^ nbits)))

/-- `op` of each command (R96). -/
def opcode : Instr → Nat
  | .sysNop => 0x00
  | .sysSetup => 0x01
  | .capPop => 0x10
  | .playPush => 0x11
  | .rsDec => 0x20
  | .rsInt => 0x21
  | .frmPush => 0x30
  | .fftAnalyze => 0x40
  | .fftMsyn => 0x41
  | .olaAcc _ => 0x50
  | .olaEmit => 0x51
  | .seqStep => 0x60
  | .bufRd _ _ => 0x70
  | .bufWr _ _ => 0x71
  | .capPush => 0x80
  | .playPop => 0x81
  | .iwinRd _ _ => 0x90
  | .iwinWr _ _ => 0x91

/-- `w = op + 256*a + 65536*idx` (R92). -/
def packWord (op a idx : Nat) : Word := BitVec.ofNat 32 (op + 256 * a + 65536 * idx)

/-- The encoder: the command word of an instruction (R92, R97). -/
def encode : Instr → Word
  | .sysNop => packWord 0x00 0 0
  | .sysSetup => packWord 0x01 0 0
  | .capPop => packWord 0x10 0 0
  | .playPush => packWord 0x11 0 0
  | .rsDec => packWord 0x20 0 0
  | .rsInt => packWord 0x21 0 0
  | .frmPush => packWord 0x30 0 0
  | .fftAnalyze => packWord 0x40 0 0
  | .fftMsyn => packWord 0x41 0 0
  | .olaAcc sel => packWord 0x50 sel 0
  | .olaEmit => packWord 0x51 0 0
  | .seqStep => packWord 0x60 0 0
  | .bufRd win idx => packWord 0x70 win idx
  | .bufWr win idx => packWord 0x71 win idx
  | .capPush => packWord 0x80 0 0
  | .playPop => packWord 0x81 0 0
  | .iwinRd win idx => packWord 0x90 win idx
  | .iwinWr win idx => packWord 0x91 win idx

/-- The port of a command: `op[7]`, 0 for agent M, 1 for agent I (R93). -/
def Instr.port (i : Instr) : Agent := if opcode i < 0x80 then .M else .I

/-- The complete table of R97: (match, mask), one row per command, in its order. -/
def opcodeTable : List (Word × Word) :=
  [(0x00000000, 0xFFFFFFFF), (0x00000001, 0xFFFFFFFF), (0x00000010, 0xFFFFFFFF), (0x00000011, 0xFFFFFFFF),
   (0x00000020, 0xFFFFFFFF), (0x00000021, 0xFFFFFFFF), (0x00000030, 0xFFFFFFFF), (0x00000040, 0xFFFFFFFF),
   (0x00000041, 0xFFFFFFFF), (0x00000050, 0xFFFFFEFF), (0x00000051, 0xFFFFFFFF), (0x00000060, 0xFFFFFFFF),
   (0x00000070, 0x000000FF), (0x00000071, 0x000000FF), (0x00000080, 0xFFFFFFFF), (0x00000081, 0xFFFFFFFF),
   (0x00000090, 0x000000FF), (0x00000091, 0x000000FF)]

/-- The word `w` selects the row iff `w AND mask = match` (R97). -/
def rowSelects (row : Word × Word) (w : Word) : Bool := w &&& row.2 == row.1

end Sys2Proof
end

