-- ==== Sys2Proof/Machine/Operands.lean ====
section
/-! DEFINITION. Operand forms: window ids, owners and rights (10_state.md R24, 46 R222), the admission of
format X (30_encoding.md R98 step 4), the source select of format S (R95). -/

namespace Sys2Proof.Machine

/-- The id of each window (10_state.md R24). -/
def windowId : Window → Nat
  | .nin => 0x00
  | .nout => 0x01
  | .mhi => 0x02
  | .mho => 0x03
  | .ddl => 0x04
  | .idl => 0x05
  | .dcoef => 0x06
  | .icoef => 0x07
  | .aframe => 0x08
  | .spec => 0x09
  | .mag => 0x0A
  | .mask => 0x0B
  | .tframe => 0x0C
  | .sframe => 0x0D
  | .acc => 0x0E
  | .stateA => 0x0F
  | .stateB => 0x10
  | .capwin => 0x20
  | .playwin => 0x21

/-- The window an id names, if it names one (10_state.md R24). -/
def windowOfId (a : Nat) : Option Window := allWindows.find? fun w => windowId w == a

/-- The only agent that may reach a window by window commands (10_state.md R24). -/
def windowOwner : Window → Agent
  | .capwin => .I
  | .playwin => .I
  | _ => .M

/-- Whether the owner's write command may write it: not the coefficients, which are configuration, nor
`PLAYWIN`, written only by `PLAY.POP` (46_system_and_buffer_access.md R222, R224, R226). -/
def windowWritable : Window → Bool
  | .dcoef => false
  | .icoef => false
  | .playwin => false
  | _ => true

/-- Step 4 of admission for agent `p` (30_encoding.md R98): `E_RANGE` before `E_PERM` (60_exceptions.md R250). -/
def admitWindow (p : Agent) (isWrite : Bool) (c : Cfg) (win idx : Nat) : Except ResultCode Window :=
  match windowOfId win with
  | none => .error .range
  | some w =>
    if windowLen c w ≤ idx then .error .range
    else if windowOwner w ≠ p then .error .perm
    else if isWrite && !windowWritable w then .error .perm
    else .ok w

/-- The frame `OLA.ACC` adds: 0 is `SFRAME`, otherwise `TFRAME` (44_overlap_add.md R190). -/
def olaSource (sel : Nat) : Window := if sel = 0 then .sframe else .tframe

end Sys2Proof.Machine
end

