-- ==== Sys2Proof/Machine/Ops.lean ====
section
/-! DEFINITION. The operations every command is written over: one update per field of State, window and slot
access, result codes, and the shared mechanisms: raising a fault (60_exceptions.md R245), refusing (R246),
the halt (R247) and the way out of it (R248). -/

namespace Sys2Proof.Machine

/-! ### One update per field -/

def State.setReadPtr (s : State) (v : Nat) : State := { s with readPtr := v }
def State.setProcessReadPtr (s : State) (v : Nat) : State := { s with processReadPtr := v }
def State.setWritePtr (s : State) (v : Nat) : State := { s with writePtr := v }
def State.setProcessWritePtr (s : State) (v : Nat) : State := { s with processWritePtr := v }
def State.setSeq (s : State) (v : SeqState) : State := { s with seq := v }
def State.setMem (s : State) (v : Memory) : State := { s with mem := v }
def State.setErr (s : State) (v : Word) : State := { s with err := v }
def State.setPassThrough (s : State) (v : Bool) : State := { s with passThrough := v }
def State.setData (s : State) (v : Word) : State := { s with data := v }
def State.setResultReg (s : State) (v : Word) : State := { s with result := v }
def State.setIdata (s : State) (v : Word) : State := { s with idata := v }
def State.setIresult (s : State) (v : Word) : State := { s with iresult := v }
def State.setEvents (s : State) (v : List Event) : State := { s with events := v }
def State.setReadData (s : State) (v : Option Word) : State := { s with readData := v }

/-! ### Windows and hop slots -/

/-- The contents of a window of memory. `DCOEF` and `ICOEF` are configuration, not memory (10_state.md R24). -/
def Memory.get (m : Memory) : Window → List Word
  | .nin => m.nin
  | .nout => m.nout
  | .mhi => m.mhi
  | .mho => m.mho
  | .ddl => m.ddl
  | .idl => m.idl
  | .dcoef => []
  | .icoef => []
  | .aframe => m.aframe
  | .spec => m.spec
  | .mag => m.mag
  | .mask => m.mask
  | .tframe => m.tframe
  | .sframe => m.sframe
  | .acc => m.acc
  | .stateA => m.stateA
  | .stateB => m.stateB
  | .capwin => m.capwin
  | .playwin => m.playwin

/-- A window of memory replaced. Nothing writes `DCOEF` or `ICOEF` (10_state.md R24). -/
def Memory.put (m : Memory) (w : Window) (l : List Word) : Memory :=
  match w with
  | .nin => { m with nin := l }
  | .nout => { m with nout := l }
  | .mhi => { m with mhi := l }
  | .mho => { m with mho := l }
  | .ddl => { m with ddl := l }
  | .idl => { m with idl := l }
  | .dcoef => m
  | .icoef => m
  | .aframe => { m with aframe := l }
  | .spec => { m with spec := l }
  | .mag => { m with mag := l }
  | .mask => { m with mask := l }
  | .tframe => { m with tframe := l }
  | .sframe => { m with sframe := l }
  | .acc => { m with acc := l }
  | .stateA => { m with stateA := l }
  | .stateB => { m with stateB := l }
  | .capwin => { m with capwin := l }
  | .playwin => { m with playwin := l }

/-- The slots of a hop buffer (10_state.md R23). -/
def Memory.slots (m : Memory) : HopBuffer → List (List Word)
  | .capbuf => m.capbuf
  | .playbuf => m.playbuf

/-- The slots of a hop buffer replaced. -/
def Memory.putSlots (m : Memory) (b : HopBuffer) (v : List (List Word)) : Memory :=
  match b with
  | .capbuf => { m with capbuf := v }
  | .playbuf => { m with playbuf := v }

/-- A window as a command reads it: from memory, or from the configuration (10_state.md R24). -/
def State.win (s : State) (w : Window) : List Word :=
  match w with
  | .dcoef => s.cfg.dcoef
  | .icoef => s.cfg.icoef
  | w => s.mem.get w

/-- A window written whole. -/
def State.putWin (s : State) (w : Window) (l : List Word) : State := s.setMem (s.mem.put w l)

/-- One element of a window written: `win(a)[idx] <- v` (46_system_and_buffer_access.md R224, R226). -/
def State.storeWin (s : State) (w : Window) (idx : Nat) (v : Word) : State :=
  s.putWin w (store (windowLen s.cfg w) (s.win w) idx v)

/-- Element `i` of slot `j` of a hop buffer (10_state.md R23). -/
def State.slotElem (s : State) (b : HopBuffer) (j i : Nat) : Word := elem ((s.mem.slots b).getD j []) i

/-- `physical slot = index mod NUM_HOPS` (10_state.md R23, 20_memory.md R73). -/
def slotOf (c : Cfg) (index : Nat) : Nat := index % c.numHops

/-- Slot `index mod NUM_HOPS` read whole: `for i in 0..NHOP-1: ... CAPBUF[s][i]` (40_hopbuffer.md R123). -/
def State.readSlot (s : State) (b : HopBuffer) (index : Nat) : List Word :=
  tabulate (nhop s.cfg) (s.slotElem b (slotOf s.cfg index))

/-- Slot `index mod NUM_HOPS` written whole from a window: `for i in 0..NHOP-1: CAPBUF[s][i] <- ...`
(40_hopbuffer.md R122). -/
def State.writeSlot (s : State) (b : HopBuffer) (index : Nat) (hop : List Word) : State :=
  s.setMem (s.mem.putSlots b (tabulate s.cfg.numHops fun j =>
    if j = slotOf s.cfg index then fit (nhop s.cfg) hop else (s.mem.slots b).getD j []))

/-- One element of the window space or the hop-slot space (20_memory.md R60). -/
inductive Loc where
  | win (w : Window) (idx : Nat)
  | slot (b : HopBuffer) (j i : Nat)
  deriving DecidableEq, Repr

/-- What an element holds; `none` where there is no such element (10_state.md R23, R24). -/
def State.peek (s : State) : Loc → Option Word
  | .win w idx => if idx < windowLen s.cfg w then some (elem (s.win w) idx) else none
  | .slot b j i => if j < s.cfg.numHops ∧ i < nhop s.cfg then some (s.slotElem b j i) else none

/-- The canonical form of memory (log 16): every buffer has exactly the length the configuration gives it, so
that memories with equal elements are equal data. -/
def Memory.wf (c : Cfg) (m : Memory) : Bool :=
  allWindows.all (fun w =>
    w == .dcoef || w == .icoef || (m.get w).length == windowLen c w) &&
  m.capbuf.length == c.numHops && m.capbuf.all (fun l => l.length == nhop c) &&
  m.playbuf.length == c.numHops && m.playbuf.all (fun l => l.length == nhop c)

/-! ### Result codes and the shared mechanisms -/

/-- The code values (30_encoding.md R100). -/
def codeWord : ResultCode → Word
  | .ok => 0x00
  | .empty => 0x01
  | .illegal => 0x10
  | .range => 0x11
  | .perm => 0x12
  | .halted => 0x13
  | .overrun => 0x20
  | .inferA => 0x21
  | .inferB => 0x22
  | .idxOvf => 0x23

/-- The code a fault is reported by (60_exceptions.md R241). -/
def faultCode : Fault → ResultCode
  | .captureOverrun => .overrun
  | .playbackOverrun => .overrun
  | .inferenceA => .inferA
  | .inferenceB => .inferB
  | .indexOverflow => .idxOvf

/-- `return C`: the code to the issuing port's result register, `RESULT` or `IRESULT` (10_state.md R42, R43). -/
def returnCode (p : Agent) (code : ResultCode) (s : State) : State :=
  match p with
  | .M => s.setResultReg (codeWord code)
  | .I => s.setIresult (codeWord code)

/-- `refuse C`: the code, and no other state change (60_exceptions.md R246). -/
def refuse (p : Agent) (code : ResultCode) (s : State) : State := returnCode p code s

/-- `raise X`: set the sticky bit, write the code, end the command (60_exceptions.md R245). This is the block's
whole fault entry: it saves nothing and transfers nowhere (R253). -/
def raiseFault (p : Agent) (f : Fault) (s : State) : State :=
  returnCode p (faultCode f) (s.setErr (s.err ||| errBit f))

/-- Every piece of the block's state at its reset value (10_state.md R47): reset (70 R270), and the only way
out of a halt (60_exceptions.md R248). The model's own fields stay (log 19). -/
def resetBlock (s : State) : State :=
  ((State.resetOf s.cfg).setEvents s.events).setReadData s.readData

/-- Step 3 of admission: a halted block refuses the command (30_encoding.md R98, 60_exceptions.md R247). -/
def unlessHalted (p : Agent) (s : State) (command : State → State) : State :=
  if halted s then refuse p .halted s else command s

/-- `DATA` or `IDATA` (10_state.md R42, R43). -/
def portData (p : Agent) (s : State) : Word :=
  match p with
  | .M => s.data
  | .I => s.idata

/-- `DATA` or `IDATA` written (10_state.md R42, R43). -/
def setPortData (p : Agent) (v : Word) (s : State) : State :=
  match p with
  | .M => s.setData v
  | .I => s.setIdata v

end Sys2Proof.Machine
end

