-- ==== Sys2Proof/Machine/HopBuffers.lean ====
section
/-! DEFINITION. The hop-buffer commands (40_hopbuffer.md R122 to R125, R130). -/

namespace Sys2Proof.Machine

/-- What a produce must pass (R130 before R122): `none` if it may go ahead, else the fault. -/
def produceFault (c : Cfg) (overrun : Fault) (writeIndex readIndex : Nat) : Option Fault :=
  if writeIndex = maxIndex c then some .indexOverflow
  else if c.numHops ≤ writeIndex - readIndex then some overrun
  else none

/-- The body of `CAP.PUSH` past its tests: the slot, then the write index (R122, 20_memory.md R76). -/
def capPushBody (s : State) : State :=
  (s.writeSlot .capbuf s.readPtr (s.win .capwin)).setReadPtr (s.readPtr + 1)

/-- The body of `CAP.POP` past its test: the slot to `NIN`, then the read index (R123). -/
def capPopBody (s : State) : State :=
  (s.putWin .nin (s.readSlot .capbuf s.processReadPtr)).setProcessReadPtr (s.processReadPtr + 1)

/-- The body of `PLAY.PUSH` past its tests (R124). -/
def playPushBody (s : State) : State :=
  (s.writeSlot .playbuf s.processWritePtr (s.win .nout)).setProcessWritePtr (s.processWritePtr + 1)

/-- The body of `PLAY.POP` past its test (R125). -/
def playPopBody (s : State) : State :=
  (s.putWin .playwin (s.readSlot .playbuf s.writePtr)).setWritePtr (s.writePtr + 1)

/-- `CAP.PUSH` after admission (R122). -/
def capPush (s : State) : State :=
  match produceFault s.cfg .captureOverrun s.readPtr s.processReadPtr with
  | some f => raiseFault .I f s
  | none => returnCode .I .ok (capPushBody s)

/-- `CAP.POP` after admission (R123). -/
def capPop (s : State) : State :=
  if s.processReadPtr < s.readPtr then returnCode .M .ok (capPopBody s) else returnCode .M .empty s

/-- `PLAY.PUSH` after admission (R124). -/
def playPush (s : State) : State :=
  match produceFault s.cfg .playbackOverrun s.processWritePtr s.writePtr with
  | some f => raiseFault .M f s
  | none => returnCode .M .ok (playPushBody s)

/-- `PLAY.POP` after admission (R125). -/
def playPop (s : State) : State :=
  if s.writePtr < s.processWritePtr then returnCode .I .ok (playPopBody s) else returnCode .I .empty s

/-- `CAP.PUSH` (R122). -/
def execCapPush (s : State) : StepResult := .next (unlessHalted .I s capPush)

/-- `CAP.POP` (R123). -/
def execCapPop (s : State) : StepResult := .next (unlessHalted .M s capPop)

/-- `PLAY.PUSH` (R124). -/
def execPlayPush (s : State) : StepResult := .next (unlessHalted .M s playPush)

/-- `PLAY.POP` (R125). -/
def execPlayPop (s : State) : StepResult := .next (unlessHalted .I s playPop)

end Sys2Proof.Machine
end

