-- ==== Sys2Proof/Machine/FrameAssembler.lean ====
section
/-! DEFINITION. The frame assembler command (42_frame_assembler.md R160). -/

namespace Sys2Proof.Machine

/-- A buffer of `f` elements shifted left by `h`, the freed tail taken from `tail`. -/
def shiftIn (f h : Nat) (l : List Word) (tail : Nat → Word) : List Word :=
  tabulate f fun i => if i < f - h then elem l (i + h) else tail (i - (f - h))

/-- The body of `FRM.PUSH`: the oldest hop out, `MHI` into the tail (R160). -/
def frmPushBody (s : State) : State :=
  s.putWin .aframe (shiftIn s.cfg.frameSize s.cfg.hopSize (s.win .aframe) (elem (s.win .mhi)))

/-- `FRM.PUSH` (R160). -/
def execFrmPush (s : State) : StepResult :=
  .next (unlessHalted .M s fun t => returnCode .M .ok (frmPushBody t))

end Sys2Proof.Machine
end

