-- ==== Sys2Proof/Machine/OverlapAdd.lean ====
section
/-! DEFINITION. The overlap-add commands (44_overlap_add.md R190, R191). -/

namespace Sys2Proof.Machine

/-- The body of `OLA.ACC`: the source frame added lane by lane into `ACC` (R190). -/
def olaAccBody (src : Window) (s : State) : State :=
  s.putWin .acc (tabulate s.cfg.frameSize fun i =>
    fadd s.cfg (elem (s.win .acc) i) (elem (s.win src) i))

/-- The body of `OLA.EMIT`: the first hop of `ACC` to `MHO`, the rest shifted left, the tail `+0.0` (R191). -/
def olaEmitBody (s : State) : State :=
  (s.putWin .mho (tabulate s.cfg.hopSize (elem (s.win .acc)))).putWin .acc
    (shiftIn s.cfg.frameSize s.cfg.hopSize (s.win .acc) fun _ => 0)

/-- `OLA.ACC` (R190). -/
def execOlaAcc (sel : Nat) (s : State) : StepResult :=
  .next (unlessHalted .M s fun t => returnCode .M .ok (olaAccBody (olaSource sel) t))

/-- `OLA.EMIT` (R191). -/
def execOlaEmit (s : State) : StepResult :=
  .next (unlessHalted .M s fun t => returnCode .M .ok (olaEmitBody t))

end Sys2Proof.Machine
end

