-- ==== Sys2Proof/Machine/Resampler.lean ====
section
/-! DEFINITION. The resampler commands (41_resampler.md R142, R145). A delay line followed by the new hop is
one sequence; position `p` of it is index `p - (taps - 1)` of the rules' `v` and `w`. -/

namespace Sys2Proof.Machine

/-- The sequence `old delay line ++ new samples` of a filter of `taps` taps. -/
def filterInput (taps : Nat) (line : List Word) (x : Nat → F32) (p : Nat) : F32 :=
  if p < taps - 1 then elem line p else x (p - (taps - 1))

/-- `fsum(k = 0..taps-1, fmul(coef[k], v[j - k]))`: the filter's output at sample `j` of the hop. -/
def firOutput (c : Cfg) (taps : Nat) (coef : List Word) (v : Nat → F32) (j : Nat) : F32 :=
  fsum c taps fun k => fmul c (elem coef k) (v (j + (taps - 1) - k))

/-- `v` of `RS.DEC` (R142): `DDL`, then `NIN` through `PCM2F`. -/
def decInput (s : State) : Nat → F32 :=
  filterInput s.cfg.decTaps (s.win .ddl) fun j => pcm2f s.cfg (elem (s.win .nin) j)

/-- `MHI` of `RS.DEC`: the filter's output at the last sample of each group of R (R142, D13). -/
def decOutput (s : State) : List Word :=
  tabulate s.cfg.hopSize fun m =>
    firOutput s.cfg s.cfg.decTaps s.cfg.dcoef (decInput s) (s.cfg.ratio * m + (s.cfg.ratio - 1))

/-- `DDL` after `RS.DEC`: the last DT-1 samples of `old DDL ++ x` (R142). -/
def decLine (s : State) : List Word :=
  tabulate (s.cfg.decTaps - 1) fun i => decInput s (nhop s.cfg + i)

/-- The body of `RS.DEC` (R142): all reads before any write. -/
def rsDecBody (s : State) : State := (s.putWin .mhi (decOutput s)).putWin .ddl (decLine s)

/-- `z` of `RS.INT` (R145): each sample first in its group, then R-1 zeros. -/
def zeroStuffed (s : State) (j : Nat) : F32 :=
  if j % s.cfg.ratio = 0 then elem (s.win .mho) (j / s.cfg.ratio) else 0

/-- `w` of `RS.INT` (R145): `IDL`, then the zero-stuffed hop. -/
def intInput (s : State) : Nat → F32 := filterInput s.cfg.intTaps (s.win .idl) (zeroStuffed s)

/-- `NOUT` of `RS.INT` (R145). -/
def intOutput (s : State) : List Word :=
  tabulate (nhop s.cfg) fun n =>
    f2pcm s.cfg (firOutput s.cfg s.cfg.intTaps s.cfg.icoef (intInput s) n)

/-- `IDL` after `RS.INT`: the last IT-1 samples of `old IDL ++ z` (R145). -/
def intLine (s : State) : List Word :=
  tabulate (s.cfg.intTaps - 1) fun i => intInput s (nhop s.cfg + i)

/-- The body of `RS.INT` (R145). -/
def rsIntBody (s : State) : State := (s.putWin .nout (intOutput s)).putWin .idl (intLine s)

/-- `RS.DEC` (R142). -/
def execRsDec (s : State) : StepResult := .next (unlessHalted .M s fun t => returnCode .M .ok (rsDecBody t))

/-- `RS.INT` (R145). -/
def execRsInt (s : State) : StepResult := .next (unlessHalted .M s fun t => returnCode .M .ok (rsIntBody t))

end Sys2Proof.Machine
end

