-- ==== Sys2Proof/Machine/Spectral.lean ====
section
/-! DEFINITION. The spectral commands (43_spectral.md R170, R171, R175). -/

namespace Sys2Proof.Machine

/-- Element `e` of `SPEC` from the bins: real part at `2k`, imaginary at `2k+1` (10_state.md R26); bins above
NF/2 the exact conjugates of their mirrors (R171). -/
def specElem (c : Cfg) (x : List (F32 × F32)) (e : Nat) : F32 :=
  if e / 2 ≤ c.fftSize / 2 then (if e % 2 = 0 then (bin x (e / 2)).1 else (bin x (e / 2)).2)
  else
    (if e % 2 = 0 then (bin x (c.fftSize - e / 2)).1 else fneg (bin x (c.fftSize - e / 2)).2)

/-- The magnitude of a bin: squares, sum, root, then `MAG_SCALE` (R170, R172). -/
def magnitude (c : Cfg) (b : F32 × F32) : F32 :=
  fmul c c.magScale (fsqrt c (fadd c (fmul c b.1 b.1) (fmul c b.2 b.2)))

/-- The body of `FFT.ANALYZE` (R170). -/
def fftAnalyzeBody (s : State) : State :=
  let x := rfft s.cfg (s.win .aframe)
  (s.putWin .spec (tabulate (2 * s.cfg.fftSize) (specElem s.cfg x))).putWin .mag
    (tabulate (binCount s.cfg) fun k => magnitude s.cfg (bin x k))

/-- The masked bins, a temporary (R175, D19). -/
def maskedBins (s : State) : List (F32 × F32) :=
  tabulate (binCount s.cfg) fun k =>
    (fmul s.cfg (elem (s.win .spec) (2 * k)) (elem (s.win .mask) k),
     fmul s.cfg (elem (s.win .spec) (2 * k + 1)) (elem (s.win .mask) k))

/-- The body of `FFT.MSYN` (R175). -/
def fftMsynBody (s : State) : State := s.putWin .tframe (irfft s.cfg (maskedBins s))

/-- `FFT.ANALYZE` (R170). -/
def execFftAnalyze (s : State) : StepResult :=
  .next (unlessHalted .M s fun t => returnCode .M .ok (fftAnalyzeBody t))

/-- `FFT.MSYN` (R175). -/
def execFftMsyn (s : State) : StepResult :=
  .next (unlessHalted .M s fun t => returnCode .M .ok (fftMsynBody t))

end Sys2Proof.Machine
end

