-- ==== Sys2Proof/Machine/Sequencer.lean ====
section
/-! DEFINITION. `SEQ.STEP`: the per-hop walk of the PipelineController (45_sequencer.md R202 to R209). A
stage of the walk answers `.ok` with the state it leaves, or `.error` with the state in which a fault ended
the command (60_exceptions.md R245: what was written stays written). -/

namespace Sys2Proof.Machine

/-- States Capturing, Decimating, Framing (R206). -/
def seqFront (s : State) : State :=
  let s1 := capPopBody (s.setSeq .capturing)
  let s2 := rsDecBody (s1.setSeq .decimating)
  frmPushBody (s2.setSeq .framing)

/-- State Analyzing (R206). -/
def seqAnalyzing (s : State) : State := fftAnalyzeBody (s.setSeq .analyzing)

/-- State InferringA (R204). -/
def seqInferringA (s : State) : Except State State :=
  match inferA s.cfg (s.win .mag) (s.win .stateA) with
  | some (out, st) => .ok (((s.setSeq .inferringA).putWin .mask out).putWin .stateA st)
  | none => .error (raiseFault .M .inferenceA (s.setSeq .inferringA))

/-- State Masking (R206). -/
def seqMasking (s : State) : State := fftMsynBody (s.setSeq .masking)

/-- State InferringB (R205). -/
def seqInferringB (s : State) : Except State State :=
  match inferB s.cfg (s.win .tframe) (s.win .stateB) with
  | some (out, st) => .ok (((s.setSeq .inferringB).putWin .sframe out).putWin .stateB st)
  | none => .error (raiseFault .M .inferenceB (s.setSeq .inferringB))

/-- State OverlapAdding (R206): `OLA.ACC SFRAME`, then `OLA.EMIT`. -/
def seqOverlapAdding (s : State) : State := olaEmitBody (olaAccBody .sframe (s.setSeq .overlapAdding))

/-- States Analyzing to OverlapAdding, the full chain (R202, `pt = 0`). -/
def seqFullChain (s : State) : Except State State :=
  match seqInferringA (seqAnalyzing s) with
  | .error t => .error t
  | .ok s5 =>
    match seqInferringB (seqMasking s5) with
    | .error t => .error t
    | .ok s7 => .ok (seqOverlapAdding s7)

/-- PassThrough: the decimated hop `MHI` to `MHO` (R208, D22). -/
def seqPassThrough (s : State) : State := s.putWin .mho (tabulate s.cfg.hopSize (elem (s.win .mhi)))

/-- States Resampling and Emitting, then Idle (R202). -/
def seqBack (s : State) : State :=
  let s9 := rsIntBody (s.setSeq .resampling)
  let s10 := s9.setSeq .emitting
  match produceFault s10.cfg .playbackOverrun s10.processWritePtr s10.writePtr with
  | some f => raiseFault .M f s10
  | none => returnCode .M .ok ((playPushBody s10).setSeq .idle)

/-- `SEQ.STEP` after admission (R202). The mode is sampled once, after the polling condition (R209). -/
def seqStep (s : State) : State :=
  if s.processReadPtr < s.readPtr then
    if s.passThrough then seqBack (seqPassThrough (seqFront s))
    else
      match seqFullChain (seqFront s) with
      | .error t => t
      | .ok t => seqBack t
  else returnCode .M .empty s

/-- `SEQ.STEP` (R202). -/
def execSeqStep (s : State) : StepResult := .next (unlessHalted .M s seqStep)

end Sys2Proof.Machine
end

