-- ==== Sys2Proof/Machine/SystemCommands.lean ====
section
/-! DEFINITION. `SYS.NOP` and `SYS.SETUP` (46_system_and_buffer_access.md R220, R221). -/

namespace Sys2Proof.Machine

/-- `SYS.NOP` (R220): the code and nothing else; admitted while halted. -/
def execSysNop (s : State) : StepResult := .next (returnCode .M .ok s)

/-- `SYS.SETUP` (R221): every piece of state to its reset value, `RESULT` last; admitted while halted. -/
def execSysSetup (s : State) : StepResult := .next (returnCode .M .ok (resetBlock s))

end Sys2Proof.Machine
end

