-- ==== Sys2Proof/Machine/WindowAccess.lean ====
section
/-! DEFINITION. The window commands (46_system_and_buffer_access.md R223 to R226). -/

namespace Sys2Proof.Machine

/-- One element of a window to the port's data register, its pattern unchanged (R223, R225). -/
def windowRead (p : Agent) (win idx : Nat) (s : State) : State :=
  match admitWindow p false s.cfg win idx with
  | .error code => refuse p code s
  | .ok w => returnCode p .ok (setPortData p (elem (s.win w) idx) s)

/-- The port's data register to one element of a window, its pattern unchanged (R224, R226). -/
def windowWrite (p : Agent) (win idx : Nat) (s : State) : State :=
  match admitWindow p true s.cfg win idx with
  | .error code => refuse p code s
  | .ok w => returnCode p .ok (s.storeWin w idx (portData p s))

/-- `BUF.RD` (R223): admitted while halted. -/
def execBufRd (win idx : Nat) (s : State) : StepResult := .next (windowRead .M win idx s)

/-- `BUF.WR` (R224). -/
def execBufWr (win idx : Nat) (s : State) : StepResult := .next (unlessHalted .M s (windowWrite .M win idx))

/-- `IWIN.RD` (R225): admitted while halted. -/
def execIwinRd (win idx : Nat) (s : State) : StepResult := .next (windowRead .I win idx s)

/-- `IWIN.WR` (R226). -/
def execIwinWr (win idx : Nat) (s : State) : StepResult := .next (unlessHalted .I s (windowWrite .I win idx))

end Sys2Proof.Machine
end

