-- ==== Sys2Proof/Machine/Dispatch.lean ====
section
/-! DEFINITION. One arm per command: the command written to its own port (30_encoding.md R98 from step 3 on). -/

namespace Sys2Proof.Machine

def exec (i : Instr) (s : State) : Host.Outcome State Fault Refusal :=
  match i with
  | .sysNop => Sys2Proof.Machine.execSysNop s
  | .sysSetup => Sys2Proof.Machine.execSysSetup s
  | .capPop => Sys2Proof.Machine.execCapPop s
  | .playPush => Sys2Proof.Machine.execPlayPush s
  | .rsDec => Sys2Proof.Machine.execRsDec s
  | .rsInt => Sys2Proof.Machine.execRsInt s
  | .frmPush => Sys2Proof.Machine.execFrmPush s
  | .fftAnalyze => Sys2Proof.Machine.execFftAnalyze s
  | .fftMsyn => Sys2Proof.Machine.execFftMsyn s
  | .olaAcc sel => Sys2Proof.Machine.execOlaAcc sel s
  | .olaEmit => Sys2Proof.Machine.execOlaEmit s
  | .seqStep => Sys2Proof.Machine.execSeqStep s
  | .bufRd win idx => Sys2Proof.Machine.execBufRd win idx s
  | .bufWr win idx => Sys2Proof.Machine.execBufWr win idx s
  | .capPush => Sys2Proof.Machine.execCapPush s
  | .playPop => Sys2Proof.Machine.execPlayPop s
  | .iwinRd win idx => Sys2Proof.Machine.execIwinRd win idx s
  | .iwinWr win idx => Sys2Proof.Machine.execIwinWr win idx s

end Sys2Proof.Machine
end

