-- ==== Sys2Proof/Machine/Bus.lean ====
section
/-! DEFINITION. The register space and the events (10_state.md R36 to R45; 20_memory.md R63 to R69): which
accesses are bus errors, what a read delivers, what a write does, how a command is issued (30_encoding.md
R90, R98). -/

namespace Sys2Proof.Machine

/-- The byte offset of each register (10_state.md R36). -/
def regOffset : Reg → Nat
  | .id => 0x00
  | .status => 0x04
  | .err => 0x08
  | .ctrl => 0x0C
  | .readPtr => 0x10
  | .procReadPtr => 0x14
  | .writePtr => 0x18
  | .procWritePtr => 0x1C
  | .cmd => 0x20
  | .data => 0x24
  | .result => 0x28
  | .icmd => 0x30
  | .idata => 0x34
  | .iresult => 0x38
  | .pHopSize => 0x40
  | .pFrameSize => 0x44
  | .pFftSize => 0x48
  | .pNumHops => 0x4C
  | .pRatio => 0x50
  | .pDecTaps => 0x54
  | .pIntTaps => 0x58
  | .pIdxBits => 0x5C
  | .pMagScale => 0x60
  | .pIfftScale => 0x64

/-- The registers in the order of the map (10_state.md R36). -/
def allRegs : List Reg :=
  [.id, .status, .err, .ctrl, .readPtr, .procReadPtr, .writePtr, .procWritePtr, .cmd, .data, .result, .icmd,
   .idata, .iresult, .pHopSize, .pFrameSize, .pFftSize, .pNumHops, .pRatio, .pDecTaps, .pIntTaps, .pIdxBits,
   .pMagScale, .pIfftScale]

/-- The register at an offset; none at a reserved one (10_state.md R45). -/
def regAt (off : Nat) : Option Reg := allRegs.find? fun r => regOffset r == off

/-- "R" in the column of the agent (10_state.md R36). -/
def canRead (p : Agent) : Reg → Bool
  | .cmd => false
  | .icmd => false
  | .data => p == .M
  | .result => p == .M
  | .idata => p == .I
  | .iresult => p == .I
  | _ => true

/-- "W" in the column of the agent (10_state.md R36). -/
def canWrite (p : Agent) : Reg → Bool
  | .cmd => p == .M
  | .data => p == .M
  | .icmd => p == .I
  | .idata => p == .I
  | _ => false

/-- What a register reads (10_state.md R37 to R44); `CMD` and `ICMD` hold nothing and are never read (R42). -/
def readReg (s : State) : Reg → Word
  | .id => 0x46524231
  | .status => statusWord s
  | .err => s.err
  | .ctrl => ctrlWord s
  | .readPtr => BitVec.ofNat 32 s.readPtr
  | .procReadPtr => BitVec.ofNat 32 s.processReadPtr
  | .writePtr => BitVec.ofNat 32 s.writePtr
  | .procWritePtr => BitVec.ofNat 32 s.processWritePtr
  | .cmd => 0
  | .data => s.data
  | .result => s.result
  | .icmd => 0
  | .idata => s.idata
  | .iresult => s.iresult
  | .pHopSize => BitVec.ofNat 32 s.cfg.hopSize
  | .pFrameSize => BitVec.ofNat 32 s.cfg.frameSize
  | .pFftSize => BitVec.ofNat 32 s.cfg.fftSize
  | .pNumHops => BitVec.ofNat 32 s.cfg.numHops
  | .pRatio => BitVec.ofNat 32 s.cfg.ratio
  | .pDecTaps => BitVec.ofNat 32 s.cfg.decTaps
  | .pIntTaps => BitVec.ofNat 32 s.cfg.intTaps
  | .pIdxBits => BitVec.ofNat 32 s.cfg.idxBits
  | .pMagScale => s.cfg.magScale
  | .pIfftScale => s.cfg.ifftScale

/-- The register an access reaches, or why there is none (20_memory.md R63, R66). Where several causes hold
the first of this order is named (log 6). -/
def accessReg (c : Cfg) (addr bits : Nat) : Except BusErrorCause Reg :=
  if bits ≠ 32 then .error .width
  else if addr % 4 ≠ 0 then .error .misaligned
  else if addr < c.base ∨ c.base + 0x80 ≤ addr then .error .outside
  else
    match regAt (addr - c.base) with
    | none => .error .reserved
    | some r => .ok r

/-- A command word written to the port of agent `p` (30_encoding.md R90, R98): illegal, then wrong port, then
the command. -/
def issue (p : Agent) (w : Word) (s : State) : StepResult :=
  match decode w with
  | .error _ => .next (refuse p .illegal s)
  | .ok i => if i.port = p then exec i s else .next (refuse p .perm s)

/-- A bus read: the value is delivered, nothing else changes (20_memory.md R64); or a bus error (R66). -/
def busRead (p : Agent) (addr bits : Nat) (s : State) : StepResult :=
  match accessReg s.cfg addr bits with
  | .error cause => .refused (.busError cause)
  | .ok r =>
    if canRead p r then .next (s.setReadData (some (readReg s r))) else .refused (.busError .notReadable)

/-- A permitted register write (20_memory.md R65): a command, or the port's data register. -/
def writeReg (p : Agent) (r : Reg) (v : Word) (s : State) : StepResult :=
  match r with
  | .cmd => issue p v s
  | .icmd => issue p v s
  | _ => .next (setPortData p v s)

/-- A bus write (20_memory.md R65), or a bus error (R66). -/
def busWrite (p : Agent) (addr bits : Nat) (v : Word) (s : State) : StepResult :=
  match accessReg s.cfg addr bits with
  | .error cause => .refused (.busError cause)
  | .ok r => if canWrite p r then writeReg p r v s else .refused (.busError .notWritable)

/-- One event (20_memory.md R75): a bus access, the toggle of agent G (10_state.md R40), reset (70 R270). -/
def perform (e : Event) (s : State) : StepResult :=
  match e with
  | .read p addr bits => busRead p addr bits s
  | .write p addr bits v => busWrite p addr bits v s
  | .toggle => .next (s.setPassThrough (!s.passThrough))
  | .reset => .next (resetBlock s)

/-- The next event of the schedule; with none waiting nothing happens (70_reset_and_hazards.md R273). A
configuration that breaks a constraint is refused (00_scope.md R6). -/
def advance (s : State) : StepResult :=
  if cfgValid s.cfg then
    match s.events with
    | [] => .next s
    | e :: rest => perform e (s.setEvents rest)
  else .refused .invalidConfig

/-- The bus write that issues a command word on a port (30_encoding.md R90): `CMD` for M, `ICMD` for I. -/
def commandWrite (c : Cfg) (p : Agent) (w : Word) : Event :=
  .write p (c.base + regOffset (match p with | .M => Reg.cmd | .I => Reg.icmd)) 32 w

/-- The port of a command word by its port bit `op[7]` (30_encoding.md R93). -/
def portOfWord (w : Word) : Agent := if opField w < 0x80 then .M else .I

/-- The command word's write put before all other events. -/
def placeCommand (s : State) (w : Word) : State :=
  s.setEvents (commandWrite s.cfg (portOfWord w) w :: s.events)

end Sys2Proof.Machine
end

