-- ==== Sys2Proof/Machine/Step.lean ====
section
/-! DEFINITION. One step of the machine: one event of the total order (20_memory.md R75). -/

namespace Sys2Proof.Machine

/-- One step: the next event is performed; with none waiting the block waits (70_reset_and_hazards.md R273). -/
def step (s : State) : Host.Outcome State Fault Refusal := advance s

/-- `s` with the command word placed as the very next event: a 32-bit bus write of it to the port its port
bit names (30_encoding.md R90, R93; log 3). -/
def State.withFetchWord (s : State) (nbits w : Nat) : State :=
  placeCommand s (BitVec.ofNat 32 (w % 2 ^ nbits))

end Sys2Proof.Machine
end

