-- ==== Sys2Proof/Machine/Ideal.lean ====
section
/-! DEFINITION. The ideal transforms over the reals and the accuracy the spec asks of `cfg.NUM` (00_scope.md
R14; 43_spectral.md R166, R168, R169, R174). No step uses this file: these are the premises a claim within a
tolerance takes. -/

namespace Sys2Proof.Machine

/-- The value of a finite pattern (00_scope.md R11). -/
def value (a : F32) : Rat := (units a : Rat) / 2 ^ 149

/-- `(re, im)` is bin `k` of the ideal forward transform of `x[0..nf-1]`, with no factor (R166). -/
def IsIdealBin (nf : Nat) (x : Nat → Real) (k : Nat) (re im : Real) : Prop :=
  re = ∑ n ∈ Finset.range nf, x n * Real.cos (2 * Real.pi * k * n / nf) ∧
  im = -∑ n ∈ Finset.range nf, x n * Real.sin (2 * Real.pi * k * n / nf)

/-- `t` is sample `n` of the ideal inverse transform of the bins `(re, im)`, with factor `scale` (R174). -/
def IsIdealSample (nf : Nat) (scale : Real) (re im : Nat → Real) (n : Nat) (t : Real) : Prop :=
  t = scale * (re 0 + (-1) ^ n * re (nf / 2) +
    2 * ∑ k ∈ Finset.Ico 1 (nf / 2),
      (re k * Real.cos (2 * Real.pi * k * n / nf) - im k * Real.sin (2 * Real.pi * k * n / nf)))

/-- `a` is `v` rounded to the nearest binary32, ties to even, zero as `+0.0` (R168). -/
def IsRounded (a : F32) (v : Real) : Prop :=
  isFinite a = true ∧ (value a = 0 → a = 0) ∧
  ∀ b : F32, isFinite b = true →
    |(value a : Real) - v| ≤ |(value b : Real) - v| ∧
    (|(value a : Real) - v| = |(value b : Real) - v| → value a ≠ value b → fracField a % 2 = 0)

/-- The tables hold the rounded cosines and sines (R168). -/
def TwiddlesRounded (c : Cfg) : Prop :=
  ∀ j < c.fftSize,
    IsRounded (elem c.twc j) (Real.cos (2 * Real.pi * j / c.fftSize)) ∧
    IsRounded (elem c.tws j) (Real.sin (2 * Real.pi * j / c.fftSize))

/-- Law (d) of `rfft`: the relative accuracy of R169. "No intermediate value overflows" is read as: every
computed value is finite (log 23). -/
def RfftAccurate (c : Cfg) : Prop :=
  ∀ (x : List F32) (re im : Nat → Real),
    x.length = c.fftSize → (∀ a ∈ x, isFinite a = true) →
    (∀ b ∈ rfft c x, isFinite b.1 = true ∧ isFinite b.2 = true) →
    (∀ k < binCount c, IsIdealBin c.fftSize (fun n => (value (elem x n) : Real)) k (re k) (im k)) →
    ∑ k ∈ Finset.range (binCount c),
        (((value (bin (rfft c x) k).1 : Real) - re k) ^ 2 + ((value (bin (rfft c x) k).2 : Real) - im k) ^ 2) ≤
      (c.fftEps : Real) ^ 2 * ∑ k ∈ Finset.range (binCount c), (re k ^ 2 + im k ^ 2)

/-- Law (d) of `irfft`: the relative accuracy of R169 (log 23). -/
def IrfftAccurate (c : Cfg) : Prop :=
  ∀ (y : List (F32 × F32)) (t : Nat → Real),
    y.length = binCount c → (∀ b ∈ y, isFinite b.1 = true ∧ isFinite b.2 = true) →
    (∀ a ∈ irfft c y, isFinite a = true) →
    (∀ n < c.fftSize,
      IsIdealSample c.fftSize (value c.ifftScale : Real) (fun k => (value (bin y k).1 : Real))
        (fun k => (value (bin y k).2 : Real)) n (t n)) →
    ∑ n ∈ Finset.range c.fftSize, ((value (elem (irfft c y) n) : Real) - t n) ^ 2 ≤
      (c.fftEps : Real) ^ 2 * ∑ n ∈ Finset.range c.fftSize, t n ^ 2

end Sys2Proof.Machine
end

