-- ==== Sys2Proof/Machine/Pseudo.lean ====
section
/-! DEFINITION. Bus statements and pseudo-instructions (30_encoding.md R109, R110) as lists of events, and runs
of commands. -/

namespace Sys2Proof.Machine

/-- `A: wr REG, v` (R110). -/
def wrEvent (c : Cfg) (p : Agent) (r : Reg) (v : Word) : Event := .write p (c.base + regOffset r) 32 v

/-- `A: rd REG` (R110). -/
def rdEvent (c : Cfg) (p : Agent) (r : Reg) : Event := .read p (c.base + regOffset r) 32

/-- `A: MNEMONIC ...`: the command word written to its own port (R110). -/
def cmdEvent (c : Cfg) (i : Instr) : Event := commandWrite c i.port (encode i)

/-- `ST win, idx, v` (R109). -/
def stEvents (c : Cfg) (w : Window) (idx : Nat) (v : Word) : List Event :=
  [wrEvent c .M .data v, cmdEvent c (.bufWr (windowId w) idx)]

/-- `LD win, idx` (R109). -/
def ldEvents (c : Cfg) (w : Window) (idx : Nat) : List Event :=
  [cmdEvent c (.bufRd (windowId w) idx), rdEvent c .M .data]

/-- `IST idx, v` (R109). -/
def istEvents (c : Cfg) (idx : Nat) (v : Word) : List Event :=
  [wrEvent c .I .idata v, cmdEvent c (.iwinWr (windowId .capwin) idx)]

/-- `ILD win, idx` (R109). -/
def ildEvents (c : Cfg) (w : Window) (idx : Nat) : List Event :=
  [cmdEvent c (.iwinRd (windowId w) idx), rdEvent c .I .idata]

/-- `HOPIN v0, ..., v(NHOP-1)`: the body of `OnCaptureComplete` (R109). -/
def hopInEvents (c : Cfg) (hop : List Word) : List Event :=
  ((List.range (nhop c)).flatMap fun i => istEvents c i (elem hop i)) ++ [cmdEvent c .capPush]

/-- `HOPOUT`: the body of `OnPlaybackBufferConsumed` (R109). -/
def hopOutEvents (c : Cfg) : List Event :=
  cmdEvent c .playPop :: (List.range (nhop c)).flatMap fun i => ildEvents c .playwin i

/-- `POLL` (R109). -/
def pollEvents (c : Cfg) : List Event := [rdEvent c .M .status]

/-- `ST` of a whole window. -/
def stAllEvents (c : Cfg) (w : Window) (l : List Word) : List Event :=
  (List.range (windowLen c w)).flatMap fun i => stEvents c w i (elem l i)

/-- `FFT.INV`: an all-ones mask, then `FFT.MSYN` (R109). -/
def fftInvEvents (c : Cfg) : List Event :=
  stAllEvents c .mask (tabulate (binCount c) fun _ => 0x3F800000) ++ [cmdEvent c .fftMsyn]

/-- `LD` of a whole window. -/
def ldAllEvents (c : Cfg) (w : Window) : List Event :=
  (List.range (windowLen c w)).flatMap fun i => ldEvents c w i

/-- `OLA.FLUSH`: `F/H - 1` times `OLA.EMIT` and read `MHO` (R109, 44_overlap_add.md R194). -/
def olaFlushEvents (c : Cfg) : List Event :=
  (List.range (c.frameSize / c.hopSize - 1)).flatMap fun _ => cmdEvent c .olaEmit :: ldAllEvents c .mho

/-- `STEP.MANUAL`, with the `MASK` and `SFRAME` that software computes (R109). -/
def stepManualEvents (c : Cfg) (mask sframe : List F32) : List Event :=
  [cmdEvent c .capPop, cmdEvent c .rsDec, cmdEvent c .frmPush, cmdEvent c .fftAnalyze] ++
    stAllEvents c .mask mask ++ [cmdEvent c .fftMsyn] ++ stAllEvents c .sframe sframe ++
    [cmdEvent c (.olaAcc 0), cmdEvent c .olaEmit, cmdEvent c .rsInt, cmdEvent c .playPush]

/-- Commands one after the other, each on its own port, with no event between them. -/
def execAll (cmds : List Instr) (s : State) : StepResult :=
  match cmds with
  | [] => .next s
  | i :: rest =>
    match exec i s with
    | .next t => execAll rest t
    | .fault r => .fault r
    | .refused r => .refused r

end Sys2Proof.Machine
end

