-- ==== Sys2Proof/Safety.lean ====
section
/-! DEFINITION. What counts as a safe state and a safe run: the invariants the spec gives the block, who owns
what, and the hops that wait in a hop buffer. -/

namespace Sys2Proof.Machine

/-- The counters' invariants (10_state.md R46). -/
structure CountersOk (s : State) : Prop where
  capOrder : s.processReadPtr ≤ s.readPtr
  playOrder : s.writePtr ≤ s.processWritePtr
  capSize : s.readPtr - s.processReadPtr ≤ s.cfg.numHops
  playSize : s.processWritePtr - s.writePtr ≤ s.cfg.numHops

/-- Every counter is an unsigned number of IDX_BITS bits (10_state.md R21, 40_hopbuffer.md R126). -/
structure CountersFit (s : State) : Prop where
  readPtr : s.readPtr < 2 ^ s.cfg.idxBits
  processReadPtr : s.processReadPtr < 2 ^ s.cfg.idxBits
  writePtr : s.writePtr < 2 ^ s.cfg.idxBits
  processWritePtr : s.processWritePtr < 2 ^ s.cfg.idxBits

/-- The only values of `ERR` (60_exceptions.md R249). -/
def ErrLegal (e : Word) : Prop := e = 0x00 ∨ e = 0x01 ∨ e = 0x02 ∨ e = 0x04 ∨ e = 0x08 ∨ e = 0x10

/-- `SEQ` between commands: Idle, unless a `SEQ.STEP` ended in a fault, and then the faulting state with that
fault's bit in `ERR` (10_state.md R22, 45_sequencer.md R207). -/
def SeqLegal (s : State) : Prop :=
  s.seq = .idle ∨ (s.seq = .inferringA ∧ s.err = errBit .inferenceA) ∨
  (s.seq = .inferringB ∧ s.err = errBit .inferenceB) ∨
  (s.seq = .emitting ∧ (s.err = errBit .playbackOverrun ∨ s.err = errBit .indexOverflow))

/-- A result register holds one of the ten codes (30_encoding.md R100). -/
def ResultLegal (w : Word) : Prop := ∃ code : ResultCode, w = codeWord code

/-- What every step keeps and reset has. -/
structure Inv (s : State) : Prop where
  config : cfgValid s.cfg = true
  memory : s.mem.wf s.cfg = true
  counters : CountersOk s
  fit : CountersFit s
  err : ErrLegal s.err
  seq : SeqLegal s
  result : ResultLegal s.result
  iresult : ResultLegal s.iresult

/-- The hops a hop buffer holds, oldest first: published and not yet consumed (20_memory.md R84). -/
def waitingHops (s : State) (b : HopBuffer) : List (List Word) :=
  match b with
  | .capbuf => (List.range (s.readPtr - s.processReadPtr)).map fun k => s.readSlot .capbuf (s.processReadPtr + k)
  | .playbuf => (List.range (s.processWritePtr - s.writePtr)).map fun k => s.readSlot .playbuf (s.writePtr + k)

/-- Every element of the window space and the hop-slot space outside `touched` reads the same. -/
def SameOutside (touched : Loc → Prop) (s t : State) : Prop := ∀ l : Loc, ¬touched l → t.peek l = s.peek l

/-- The element is in one of the windows. -/
def Loc.inWindows (ws : List Window) : Loc → Prop
  | .win w _ => w ∈ ws
  | .slot _ _ _ => False

/-- The element is in the slot of a hop buffer that an index names. -/
def Loc.inSlot (c : Cfg) (b : HopBuffer) (index : Nat) : Loc → Prop
  | .win _ _ => False
  | .slot b' j _ => b' = b ∧ j = slotOf c index

/-- The commands a halted block still runs (60_exceptions.md R247). -/
def runsWhileHalted : Instr → Bool
  | .sysSetup => true
  | .sysNop => true
  | .bufRd _ _ => true
  | .iwinRd _ _ => true
  | .capPop => false
  | .playPush => false
  | .rsDec => false
  | .rsInt => false
  | .frmPush => false
  | .fftAnalyze => false
  | .fftMsyn => false
  | .olaAcc _ => false
  | .olaEmit => false
  | .seqStep => false
  | .bufWr _ _ => false
  | .capPush => false
  | .playPop => false
  | .iwinWr _ _ => false

/-- Element `i` of a window. -/
def State.item (s : State) (w : Window) (i : Nat) : Word := elem (s.win w) i

/-- The result register of a port. -/
def resultOf (p : Agent) (s : State) : Word :=
  match p with
  | .M => s.result
  | .I => s.iresult

/-- `i` is the command of word `w` on port `p` (30_encoding.md R97). -/
def IsCommandWord (i : Instr) (p : Agent) (w : Word) : Prop := decode w = .ok i ∧ encode i = w ∧ i.port = p

/-- The halted block refuses `i` with `E_HALTED` and changes nothing else (60_exceptions.md R246, R247). -/
def RefusesWhileHalted (i : Instr) : Prop :=
  ∀ s, halted s = true →
    exec i s = .next (match i.port with
      | .M => { s with result := 0x13 }
      | .I => { s with iresult := 0x13 })

/-- The row of a command in the table of 30_encoding.md R97, counted from 0. -/
def rowNumber : Instr → Nat
  | .sysNop => 0
  | .sysSetup => 1
  | .capPop => 2
  | .playPush => 3
  | .rsDec => 4
  | .rsInt => 5
  | .frmPush => 6
  | .fftAnalyze => 7
  | .fftMsyn => 8
  | .olaAcc _ => 9
  | .olaEmit => 10
  | .seqStep => 11
  | .bufRd _ _ => 12
  | .bufWr _ _ => 13
  | .capPush => 14
  | .playPop => 15
  | .iwinRd _ _ => 16
  | .iwinWr _ _ => 17

/-- How one command changes the two queues of waiting hops (20_memory.md R84): a push that ends with `R_OK` appends
the staged hop, a pop that ends with `R_OK` takes the oldest one; a `SEQ.STEP` that was neither refused nor
`R_EMPTY` takes one captured hop, and appends one processed hop when it ends with `R_OK`; nothing else moves. -/
def QueuesMoveAsFifo (i : Instr) (s t : State) : Prop :=
  (if i = .capPush ∧ t.iresult = 0x00 then waitingHops t .capbuf = waitingHops s .capbuf ++ [s.win .capwin]
   else if (i = .capPop ∧ t.result = 0x00) ∨ (i = .seqStep ∧ t.result ∉ [(0x01 : Word), 0x10, 0x11, 0x12, 0x13]) then
     waitingHops s .capbuf = t.win .nin :: waitingHops t .capbuf
   else waitingHops t .capbuf = waitingHops s .capbuf) ∧
  (if (i = .playPush ∨ i = .seqStep) ∧ t.result = 0x00 then
     waitingHops t .playbuf = waitingHops s .playbuf ++ [t.win .nout]
   else if i = .playPop ∧ t.iresult = 0x00 then waitingHops s .playbuf = t.win .playwin :: waitingHops t .playbuf
   else waitingHops t .playbuf = waitingHops s .playbuf)

/-- The end of a `SEQ.STEP` of `s` whose hop is computed in `t`, in state Emitting (45_sequencer.md R202, R207;
60_exceptions.md R250): index overflow before overrun, both leave the step in Emitting with nothing published;
otherwise it publishes as `PLAY.PUSH` does and ends in Idle with `R_OK`. -/
def SeqStepEndsFrom (t s : State) : Prop :=
  (s.processWritePtr = 2 ^ s.cfg.idxBits - 1 →
    exec .seqStep s = .next { t with seq := .emitting, err := 0x10, result := 0x23 }) ∧
  (s.processWritePtr ≠ 2 ^ s.cfg.idxBits - 1 → s.cfg.numHops ≤ s.processWritePtr - s.writePtr →
    exec .seqStep s = .next { t with seq := .emitting, err := 0x02, result := 0x20 }) ∧
  (s.processWritePtr ≠ 2 ^ s.cfg.idxBits - 1 → s.processWritePtr - s.writePtr < s.cfg.numHops →
    ∃ u, exec .playPush t = .next u ∧ u.result = 0x00 ∧ u.processWritePtr = s.processWritePtr + 1 ∧
      exec .seqStep s = .next { u with seq := .idle })

/-- `FRM.PUSH` of each hop in turn, `MHI` filled with it before (42_frame_assembler.md R162). -/
def framePushes (hops : List (List Word)) (s : State) : StepResult :=
  match hops with
  | [] => .next s
  | hop :: rest =>
    match exec .frmPush (s.putWin .mhi hop) with
    | .next t => framePushes rest t
    | .fault r => .fault r
    | .refused r => .refused r

/-- The pair `OLA.ACC TFRAME`, `OLA.EMIT` for each frame in turn, `TFRAME` filled with it before
(44_overlap_add.md R193). -/
def overlapPairs (frames : List (List Word)) (s : State) : StepResult :=
  match frames with
  | [] => .next s
  | frame :: rest =>
    match execAll [.olaAcc 1, .olaEmit] (s.putWin .tframe frame) with
    | .next t => overlapPairs rest t
    | .fault r => .fault r
    | .refused r => .refused r

/-- Every element of a window is a zero of either sign. -/
def AllZero (s : State) (w : Window) : Prop := ∀ i < windowLen s.cfg w, isZero (s.item w i) = true

/-- Every element of a window is the pattern 0x00000000. -/
def AllPlusZero (s : State) (w : Window) : Prop := ∀ i < windowLen s.cfg w, s.item w i = 0

/-- The default arithmetic with finite filter coefficients: the premises of the silence rules on the
configuration (41_resampler.md R149, 43_spectral.md R182). -/
def SilenceConfig (c : Cfg) : Prop :=
  (∃ r, c.arith = .ieee r) ∧ cfgValid c = true ∧ (∀ a ∈ c.dcoef, isFinite a = true) ∧
  ∀ a ∈ c.icoef, isFinite a = true

/-- The premises on the stages of 45_sequencer.md R213, asked only of the calls a step of a silent stream can
make: `InferA` returns a finite mask for the all-zero magnitudes, `InferB` an all-zero frame for an all-zero
frame, each with its state vector as it stands. -/
def SilentStages (s : State) : Prop :=
  (∀ out st', inferA s.cfg (zeros (binCount s.cfg)) (s.win .stateA) = some (out, st') →
    ∀ a ∈ out, isFinite a = true) ∧
  ∀ frame out st', frame.length = s.cfg.frameSize → (∀ a ∈ frame, isZero a = true) →
    inferB s.cfg frame (s.win .stateB) = some (out, st') → ∀ a ∈ out, isZero a = true

/-- What a silent stream leaves in the state that is carried across hops (45_sequencer.md R213). -/
structure Silent (s : State) : Prop where
  ddl : AllZero s .ddl
  idl : AllZero s .idl
  aframe : AllZero s .aframe
  acc : AllPlusZero s .acc
  captured : ∀ hop ∈ waitingHops s .capbuf, ∀ a ∈ hop, a = 0
  processed : ∀ hop ∈ waitingHops s .playbuf, ∀ a ∈ hop, a = 0

/-- A safe run: `n` steps, each with a next state, that end not halted. -/
def SafeRun (n : Nat) (s : State) : Prop := ∃ t, Host.Core.run Sys2Proof.core n s = .next t ∧ halted t = false

end Sys2Proof.Machine
end

