-- ==== Sys2Proof/Certificates/Slice0/Obligations.lean ====
section
/-! DEFINITION. What is claimed of the machine. Each statement names the rules of spec/ it formalises. A
statement about every state is about every configuration too: the configuration is a field of the state. -/

open Sys2Proof Sys2Proof.Machine

/-! ## Encoding -/

/-- 30_encoding.md R92, R97: decoding the word of a well-formed command gives the command back, every operand
at every value, also through the bytes the bus lays the word out in. -/
def Obligations.DecodeInvertsEncode : Prop :=
  ∀ i : Instr, i.wellFormed = true → decode (encode i) = .ok i ∧ decodeTableWord 32 (encode i).toNat = some i

/-- 30_encoding.md R91, R92, R99: a word that decodes is the word of the command it decodes to, and that command
is well-formed: no bit of a word is ignored. -/
def Obligations.EncodeInvertsDecode : Prop :=
  ∀ (w : Word) (i : Instr), decode w = .ok i → encode i = w ∧ i.wellFormed = true

/-- 30_encoding.md R97: `w AND mask = match` holds of row `k` exactly when the word decodes to a command of that
row, on the port of that row; rows do not overlap. -/
def Obligations.DecodeFollowsOpcodeTable : Prop :=
  (∀ (w : Word) (k : Nat) (row : Word × Word), opcodeTable[k]? = some row →
    (rowSelects row w = true ↔
      ∃ i, decode w = .ok i ∧ rowNumber i = k ∧ i.port = if k < 14 then .M else .I)) ∧
  ∀ (w : Word) (j k : Nat) (r1 r2 : Word × Word), opcodeTable[j]? = some r1 → opcodeTable[k]? = some r2 →
    rowSelects r1 w = true → rowSelects r2 w = true → j = k

/-- 30_encoding.md R108: the words the spec writes out for its examples. -/
def Obligations.SpecExampleWordsDecode : Prop :=
  decode 0x00000060 = .ok .seqStep ∧ decode 0x00000150 = .ok (.olaAcc 1) ∧
  decode 0x00020B71 = .ok (.bufWr (windowId .mask) 2) ∧
  decode 0x00052091 = .ok (.iwinWr (windowId .capwin) 5) ∧ decode 0x00000080 = .ok .capPush

/-- 30_encoding.md R99: an illegal command is exactly an unassigned `op`, a format-N command with `a != 0` or
`idx != 0`, or `OLA.ACC` with `a > 1` or `idx != 0`. On either port, halted or not, it is refused with
`E_ILLEGAL` and nothing but the port's result register changes. The all-zero word is `SYS.NOP`, the all-ones
word is illegal. -/
def Obligations.IllegalWordsAreRefused : Prop :=
  (∀ w : Word, (∃ e, decode w = .error e) ↔
    (opField w ∉ [0x00, 0x01, 0x10, 0x11, 0x20, 0x21, 0x30, 0x40, 0x41, 0x50, 0x51, 0x60, 0x70, 0x71, 0x80,
      0x81, 0x90, 0x91] ∨
     (opField w ∈ [0x00, 0x01, 0x10, 0x11, 0x20, 0x21, 0x30, 0x40, 0x41, 0x51, 0x60, 0x80, 0x81] ∧
      (aField w ≠ 0 ∨ idxField w ≠ 0)) ∨
     (opField w = 0x50 ∧ (1 < aField w ∨ idxField w ≠ 0)))) ∧
  (∀ (w : Word) (s : State), (∃ e, decode w = .error e) →
    issue .M w s = .next { s with result := 0x10 } ∧ issue .I w s = .next { s with iresult := 0x10 }) ∧
  decode 0x00000000 = .ok .sysNop ∧ ∃ e, decode 0xFFFFFFFF = .error e

/-! ## Steps and events -/

/-- 30_encoding.md R90, R98: when the next event writes the word of a command to the command's own port, the step
is that command on the state without the event. The same for a word placed by `withFetchWord`. -/
def Obligations.StepRunsDecodedCommand : Prop :=
  ∀ (s : State) (w : Word) (i : Instr) (rest : List Event), cfgValid s.cfg = true → decode w = .ok i →
    (s.events = commandWrite s.cfg i.port w :: rest → step s = exec i { s with events := rest }) ∧
    step (s.withFetchWord 32 w.toNat) = exec i s

/-- 30_encoding.md R98 steps 1 and 2, 60_exceptions.md R250: a command written to the other agent's port is
refused with `E_PERM`, halted or not, and nothing but that port's result register changes. -/
def Obligations.StepRefusesOtherPortsCommand : Prop :=
  ∀ (s : State) (w : Word) (i : Instr) (rest : List Event), cfgValid s.cfg = true → decode w = .ok i →
    (i.port = .I → s.events = commandWrite s.cfg .M w :: rest →
      step s = .next { s with events := rest, result := 0x12 }) ∧
    (i.port = .M → s.events = commandWrite s.cfg .I w :: rest →
      step s = .next { s with events := rest, iresult := 0x12 })

/-- 20_memory.md R63, R66, 10_state.md R36, R45: which reads are bus errors, and that every other read delivers
the value of the register R36 puts at the offset, the offsets written out, and changes nothing else (R64). -/
def Obligations.BusReadsFollowTheRegisterMap : Prop :=
  ∀ (s : State) (p : Agent) (addr bits : Nat) (rest : List Event), cfgValid s.cfg = true →
    s.events = .read p addr bits :: rest →
    ((∃ cause, step s = .refused (.busError cause)) ↔
      (bits ≠ 32 ∨ addr % 4 ≠ 0 ∨ addr < s.cfg.base ∨ s.cfg.base + 0x7F < addr ∨
       addr - s.cfg.base ∈ [0x20, 0x2C, 0x30, 0x3C, 0x68, 0x6C, 0x70, 0x74, 0x78, 0x7C] ∨
       (p = .I ∧ addr - s.cfg.base ∈ [0x24, 0x28]) ∨ (p = .M ∧ addr - s.cfg.base ∈ [0x34, 0x38]))) ∧
    ((∀ cause, step s ≠ .refused (.busError cause)) →
      ∃ r, (addr - s.cfg.base, r) ∈
          [(0x00, Reg.id), (0x04, .status), (0x08, .err), (0x0C, .ctrl), (0x10, .readPtr), (0x14, .procReadPtr),
           (0x18, .writePtr), (0x1C, .procWritePtr), (0x24, .data), (0x28, .result), (0x34, .idata),
           (0x38, .iresult), (0x40, .pHopSize), (0x44, .pFrameSize), (0x48, .pFftSize), (0x4C, .pNumHops),
           (0x50, .pRatio), (0x54, .pDecTaps), (0x58, .pIntTaps), (0x5C, .pIdxBits), (0x60, .pMagScale),
           (0x64, .pIfftScale)] ∧
        step s = .next { s with events := rest, readData := some (readReg s r) })

/-- 20_memory.md R65, R66, 10_state.md R36: which writes are bus errors; a write to `DATA` or `IDATA` stores the
value and does nothing else, halted or not (X8). -/
def Obligations.BusWritesFollowTheRegisterMap : Prop :=
  ∀ (s : State) (p : Agent) (addr bits : Nat) (v : Word) (rest : List Event), cfgValid s.cfg = true →
    s.events = .write p addr bits v :: rest →
    ((∃ cause, step s = .refused (.busError cause)) ↔
      ¬(bits = 32 ∧ ((p = .M ∧ (addr = s.cfg.base + 0x20 ∨ addr = s.cfg.base + 0x24)) ∨
        (p = .I ∧ (addr = s.cfg.base + 0x30 ∨ addr = s.cfg.base + 0x34))))) ∧
    (bits = 32 → p = .M → addr = s.cfg.base + 0x24 → step s = .next { s with events := rest, data := v }) ∧
    (bits = 32 → p = .I → addr = s.cfg.base + 0x34 → step s = .next { s with events := rest, idata := v })

/-- 10_state.md R37, R39 to R44: what the registers read; the counters zero-extended. -/
def Obligations.RegistersReadTheirContents : Prop :=
  ∀ s : State,
    readReg s .id = 0x46524231 ∧ readReg s .err = s.err ∧
    (readReg s .ctrl).toNat = (if s.passThrough then 1 else 0) ∧
    readReg s .data = s.data ∧ readReg s .result = s.result ∧ readReg s .idata = s.idata ∧
    readReg s .iresult = s.iresult ∧ readReg s .pMagScale = s.cfg.magScale ∧
    readReg s .pIfftScale = s.cfg.ifftScale ∧
    (cfgValid s.cfg = true → CountersFit s →
      (readReg s .readPtr).toNat = s.readPtr ∧ (readReg s .procReadPtr).toNat = s.processReadPtr ∧
      (readReg s .writePtr).toNat = s.writePtr ∧ (readReg s .procWritePtr).toNat = s.processWritePtr) ∧
    (cfgValid s.cfg = true →
      (readReg s .pHopSize).toNat = s.cfg.hopSize ∧ (readReg s .pFrameSize).toNat = s.cfg.frameSize ∧
      (readReg s .pFftSize).toNat = s.cfg.fftSize ∧ (readReg s .pNumHops).toNat = s.cfg.numHops ∧
      (readReg s .pRatio).toNat = s.cfg.ratio ∧ (readReg s .pDecTaps).toNat = s.cfg.decTaps ∧
      (readReg s .pIntTaps).toNat = s.cfg.intTaps ∧ (readReg s .pIdxBits).toNat = s.cfg.idxBits)

/-- 10_state.md R38: every bit of `STATUS`, the codes of `SEQ` as R22 writes them out. -/
def Obligations.StatusBits : Prop :=
  ∀ s : State,
    (readReg s .status).getLsbD 0 = decide (s.processReadPtr < s.readPtr) ∧
    (readReg s .status).getLsbD 1 = decide (s.writePtr < s.processWritePtr) ∧
    (readReg s .status).getLsbD 2 = decide (s.cfg.numHops ≤ s.readPtr - s.processReadPtr) ∧
    (readReg s .status).getLsbD 3 = decide (s.cfg.numHops ≤ s.processWritePtr - s.writePtr) ∧
    (readReg s .status).getLsbD 4 = decide (s.err ≠ 0) ∧
    (readReg s .status).extractLsb 7 5 = 0 ∧
    (readReg s .status).extractLsb 11 8 = (match s.seq with
      | .idle => 0 | .capturing => 1 | .decimating => 2 | .framing => 3 | .analyzing => 4 | .inferringA => 5
      | .masking => 6 | .inferringB => 7 | .overlapAdding => 8 | .resampling => 9 | .emitting => 10) ∧
    (readReg s .status).extractLsb 31 12 = 0

/-- 10_state.md R40, 70_reset_and_hazards.md R270, R273: the toggle flips the mode bit and nothing else, also
while halted; reset leaves the reset state; with no event waiting nothing happens. -/
def Obligations.ToggleResetAndWaiting : Prop :=
  ∀ (s : State) (rest : List Event), cfgValid s.cfg = true →
    (s.events = .toggle :: rest → step s = .next { s with events := rest, passThrough := !s.passThrough }) ∧
    (s.events = .reset :: rest →
      step s = .next { State.resetOf s.cfg with events := rest, readData := s.readData }) ∧
    (s.events = [] → step s = .next s)

/-- 00_scope.md R6: a configuration that breaks a constraint is refused. -/
def Obligations.InvalidConfigurationIsRefused : Prop :=
  ∀ s : State,
    (s.cfg.ratio < 1 ∨ s.cfg.hopSize < 1 ∨ s.cfg.frameSize ≠ s.cfg.fftSize ∨ s.cfg.fftSize % 2 ≠ 0 ∨
      s.cfg.fftSize < 2 ∨ s.cfg.frameSize % s.cfg.hopSize ≠ 0 ∨ s.cfg.numHops < 1 ∨ s.cfg.decTaps < 1 ∨
      s.cfg.intTaps < 1 ∨ 2 ^ s.cfg.idxBits ≤ s.cfg.numHops ∨ 65536 < nhop s.cfg ∨
      (∃ w, 65536 < windowLen s.cfg w) ∨ isPositiveFinite s.cfg.magScale = false ∨
      isPositiveFinite s.cfg.ifftScale = false) →
    step s = .refused .invalidConfig

/-! ## Every command -/

/-- 60_exceptions.md R247: while halted every command but `SYS.SETUP`, `SYS.NOP`, `BUF.RD` and `IWIN.RD` is
refused with `E_HALTED`, on the port it belongs to, and nothing else changes (R246). -/
def Obligations.HaltedBlockRefusesCommands : Prop :=
  ∀ i : Instr, runsWhileHalted i = false → RefusesWhileHalted i

/-- 60_exceptions.md R240, R246: a command whose code is a refusal or `R_EMPTY` changed the result register of its
port and nothing else. -/
def Obligations.RefusedCommandChangesOnlyResult : Prop :=
  ∀ (i : Instr) (s t : State), exec i s = .next t →
    resultOf i.port t ∈ [(0x01 : Word), 0x10, 0x11, 0x12, 0x13] →
    t = match i.port with
      | .M => { s with result := t.result }
      | .I => { s with iresult := t.iresult }

/-- 60_exceptions.md R241, R245, R249: a command that leaves a running block halted raised one fault: `ERR` is that
fault's bit alone and the port's result register its code; no other command ends with a fault code. -/
def Obligations.FaultSetsOneErrBitAndItsCode : Prop :=
  ∀ (i : Instr) (s t : State), s.err = 0 → exec i s = .next t →
    (t.err = 0 ∧ resultOf i.port t ∉ [(0x20 : Word), 0x21, 0x22, 0x23]) ∨
    (t.err = 0x01 ∧ resultOf i.port t = 0x20 ∧ i = .capPush) ∨
    (t.err = 0x02 ∧ resultOf i.port t = 0x20 ∧ (i = .playPush ∨ i = .seqStep)) ∨
    (t.err = 0x04 ∧ resultOf i.port t = 0x21 ∧ i = .seqStep) ∨
    (t.err = 0x08 ∧ resultOf i.port t = 0x22 ∧ i = .seqStep) ∨
    (t.err = 0x10 ∧ resultOf i.port t = 0x23 ∧ (i = .capPush ∨ i = .playPush ∨ i = .seqStep))

/-- 10_state.md R39, R40, R22, 60_exceptions.md R248: no command but `SYS.SETUP` clears a bit of `ERR` or changes
the mode bit, and none but `SYS.SETUP` and `SEQ.STEP` changes `SEQ`. -/
def Obligations.OnlySetupClearsErr : Prop :=
  ∀ (i : Instr) (s t : State), exec i s = .next t → i ≠ .sysSetup →
    s.err &&& t.err = s.err ∧ t.passThrough = s.passThrough ∧ (i ≠ .seqStep → t.seq = s.seq)

/-- 10_state.md R21: each counter is moved only by the commands of its writer, by exactly 1 and upward, apart from
`SYS.SETUP`. -/
def Obligations.CountersHaveOneWriter : Prop :=
  ∀ (i : Instr) (s t : State), exec i s = .next t → i ≠ .sysSetup →
    (t.readPtr = s.readPtr ∨ (i = .capPush ∧ t.readPtr = s.readPtr + 1)) ∧
    (t.processReadPtr = s.processReadPtr ∨
      ((i = .capPop ∨ i = .seqStep) ∧ t.processReadPtr = s.processReadPtr + 1)) ∧
    (t.writePtr = s.writePtr ∨ (i = .playPop ∧ t.writePtr = s.writePtr + 1)) ∧
    (t.processWritePtr = s.processWritePtr ∨
      ((i = .playPush ∨ i = .seqStep) ∧ t.processWritePtr = s.processWritePtr + 1))

/-- 20_memory.md R74, 60_exceptions.md R255, R256, 10_state.md R43: a command of agent I changes only `readPtr`,
`writePtr`, `IDATA`, `IRESULT`, an `ERR` bit, `CAPWIN`, `PLAYWIN` and the capture slot it publishes; a command of
agent M other than `SYS.SETUP` changes none of agent I's counters, registers and windows and no capture slot. -/
def Obligations.AgentsKeepToTheirState : Prop :=
  ∀ (i : Instr) (s t : State), exec i s = .next t →
    (i.port = .I →
      t = { s with readPtr := t.readPtr, writePtr := t.writePtr, err := t.err, idata := t.idata,
                   iresult := t.iresult, mem := t.mem } ∧
      SameOutside (fun l => l.inWindows [.capwin, .playwin] ∨ l.inSlot s.cfg .capbuf s.readPtr) s t) ∧
    (i.port = .M → i ≠ .sysSetup →
      t.readPtr = s.readPtr ∧ t.writePtr = s.writePtr ∧ t.idata = s.idata ∧ t.iresult = s.iresult ∧
      ∀ l : Loc, (l.inWindows [.capwin, .playwin] ∨ ∃ j k, l = .slot .capbuf j k) → t.peek l = s.peek l)

/-- 60_exceptions.md R255, 20_memory.md R74: what a command of agent I does depends on nothing agent M owns: two
states that differ only in M's windows, `DATA`, `RESULT`, `SEQ` and the mode bit go to two states that differ
only there, and there as before. -/
def Obligations.InterruptCommandsIgnoreMainLoopState : Prop :=
  ∀ (i : Instr) (s u s' u' : State), i.port = .I → exec i s = .next s' → exec i u = .next u' →
    u = { s with mem := { u.mem with capbuf := s.mem.capbuf, playbuf := s.mem.playbuf,
                                     capwin := s.mem.capwin, playwin := s.mem.playwin },
                 data := u.data, result := u.result, seq := u.seq, passThrough := u.passThrough } →
    u' = { s' with mem := { u.mem with capbuf := s'.mem.capbuf, playbuf := s'.mem.playbuf,
                                       capwin := s'.mem.capwin, playwin := s'.mem.playwin },
                   data := u.data, result := u.result, seq := u.seq, passThrough := u.passThrough }

/-! ## System commands -/

/-- 46_system_and_buffer_access.md R220: `SYS.NOP` writes `R_OK` and nothing else, halted or not; on `ICMD` it is
refused with `E_PERM`. -/
def Obligations.SysNopWritesResultOnly : Prop :=
  IsCommandWord .sysNop .M 0x00000000 ∧
  (∀ s : State, exec .sysNop s = .next { s with result := 0x00 }) ∧
  ∀ s : State, issue .I 0x00000000 s = .next { s with iresult := 0x12 }

/-- 46_system_and_buffer_access.md R221, 70_reset_and_hazards.md R271: `SYS.SETUP`, halted or not, leaves exactly
the state after reset, `RESULT = 0` included. The model's own fields (events waiting, last value read) stay,
the model's choice of log 19. -/
def Obligations.SysSetupLeavesResetState : Prop :=
  IsCommandWord .sysSetup .M 0x00000001 ∧
  ∀ s : State, exec .sysSetup s =
    .next { State.resetOf s.cfg with events := s.events, readData := s.readData }

/-- 10_state.md R47, 70_reset_and_hazards.md R272, R273: after reset every element of every buffer is zero, every
counter and register is 0, the block is Idle, not halted, in the full-chain mode, `STATUS` reads 0, and `CAP.POP`,
`PLAY.POP` and `SEQ.STEP` each return `R_EMPTY` and change nothing. -/
def Obligations.ResetLeavesZeroState : Prop :=
  ∀ c : Cfg, cfgValid c = true →
    (State.resetOf c).readPtr = 0 ∧ (State.resetOf c).processReadPtr = 0 ∧ (State.resetOf c).writePtr = 0 ∧
    (State.resetOf c).processWritePtr = 0 ∧ (State.resetOf c).seq = .idle ∧ (State.resetOf c).err = 0 ∧
    (State.resetOf c).passThrough = false ∧ (State.resetOf c).data = 0 ∧ (State.resetOf c).result = 0 ∧
    (State.resetOf c).idata = 0 ∧ (State.resetOf c).iresult = 0 ∧ readReg (State.resetOf c) .status = 0 ∧
    (∀ (l : Loc) (v : Word), (State.resetOf c).peek l = some v →
      (∀ k, l ≠ .win .dcoef k ∧ l ≠ .win .icoef k) → v = 0) ∧
    exec .capPop (State.resetOf c) = .next { State.resetOf c with result := 0x01 } ∧
    exec .seqStep (State.resetOf c) = .next { State.resetOf c with result := 0x01 } ∧
    exec .playPop (State.resetOf c) = .next { State.resetOf c with iresult := 0x01 }

/-! ## Hop buffers -/

/-- 40_hopbuffer.md R122, R127, R130: `CAP.PUSH`: index overflow before overrun before the produce; on a fault
neither slot, nor `readPtr`, nor `CAPWIN` changes; otherwise slot `readPtr mod NUM_HOPS` becomes `CAPWIN`, and
only then the index moves. -/
def Obligations.CapPushPublishesOneHop : Prop :=
  IsCommandWord .capPush .I 0x00000080 ∧ RefusesWhileHalted .capPush ∧
  ∀ s : State, s.err = 0 →
    (s.readPtr = 2 ^ s.cfg.idxBits - 1 → exec .capPush s = .next { s with err := 0x10, iresult := 0x23 }) ∧
    (s.readPtr ≠ 2 ^ s.cfg.idxBits - 1 → s.cfg.numHops ≤ s.readPtr - s.processReadPtr →
      exec .capPush s = .next { s with err := 0x01, iresult := 0x20 }) ∧
    (s.readPtr ≠ 2 ^ s.cfg.idxBits - 1 → s.readPtr - s.processReadPtr < s.cfg.numHops →
      ∃ t, exec .capPush s = .next t ∧
        t = { s with mem := t.mem, readPtr := s.readPtr + 1, iresult := 0x00 } ∧
        (∀ i < nhop s.cfg,
          t.peek (.slot .capbuf (s.readPtr % s.cfg.numHops) i) = some (s.item .capwin i)) ∧
        SameOutside (fun l => l.inSlot s.cfg .capbuf s.readPtr) s t)

/-- 40_hopbuffer.md R123: `CAP.POP`: `R_EMPTY` and nothing else when no hop waits; otherwise `NIN` becomes slot
`processReadPtr mod NUM_HOPS` and the index moves; the slot is not cleared. -/
def Obligations.CapPopConsumesOldestHop : Prop :=
  IsCommandWord .capPop .M 0x00000010 ∧ RefusesWhileHalted .capPop ∧
  ∀ s : State, s.err = 0 →
    (s.readPtr ≤ s.processReadPtr → exec .capPop s = .next { s with result := 0x01 }) ∧
    (s.processReadPtr < s.readPtr →
      ∃ t, exec .capPop s = .next t ∧
        t = { s with mem := t.mem, processReadPtr := s.processReadPtr + 1, result := 0x00 } ∧
        (∀ i < nhop s.cfg, t.peek (.win .nin i) =
          some (s.slotElem .capbuf (s.processReadPtr % s.cfg.numHops) i)) ∧
        SameOutside (fun l => l.inWindows [.nin]) s t)

/-- 40_hopbuffer.md R124, R130: `PLAY.PUSH`, as `CAP.PUSH` with the playback side's names. -/
def Obligations.PlayPushPublishesOneHop : Prop :=
  IsCommandWord .playPush .M 0x00000011 ∧ RefusesWhileHalted .playPush ∧
  ∀ s : State, s.err = 0 →
    (s.processWritePtr = 2 ^ s.cfg.idxBits - 1 →
      exec .playPush s = .next { s with err := 0x10, result := 0x23 }) ∧
    (s.processWritePtr ≠ 2 ^ s.cfg.idxBits - 1 → s.cfg.numHops ≤ s.processWritePtr - s.writePtr →
      exec .playPush s = .next { s with err := 0x02, result := 0x20 }) ∧
    (s.processWritePtr ≠ 2 ^ s.cfg.idxBits - 1 → s.processWritePtr - s.writePtr < s.cfg.numHops →
      ∃ t, exec .playPush s = .next t ∧
        t = { s with mem := t.mem, processWritePtr := s.processWritePtr + 1, result := 0x00 } ∧
        (∀ i < nhop s.cfg,
          t.peek (.slot .playbuf (s.processWritePtr % s.cfg.numHops) i) = some (s.item .nout i)) ∧
        SameOutside (fun l => l.inSlot s.cfg .playbuf s.processWritePtr) s t)

/-- 40_hopbuffer.md R125: `PLAY.POP`, as `CAP.POP` with the playback side's names. -/
def Obligations.PlayPopConsumesOldestHop : Prop :=
  IsCommandWord .playPop .I 0x00000081 ∧ RefusesWhileHalted .playPop ∧
  ∀ s : State, s.err = 0 →
    (s.processWritePtr ≤ s.writePtr → exec .playPop s = .next { s with iresult := 0x01 }) ∧
    (s.writePtr < s.processWritePtr →
      ∃ t, exec .playPop s = .next t ∧
        t = { s with mem := t.mem, writePtr := s.writePtr + 1, iresult := 0x00 } ∧
        (∀ i < nhop s.cfg, t.peek (.win .playwin i) =
          some (s.slotElem .playbuf (s.writePtr % s.cfg.numHops) i)) ∧
        SameOutside (fun l => l.inWindows [.playwin]) s t)

/-- 20_memory.md R84, 40_hopbuffer.md R129: each hop buffer is a FIFO queue of whole hops: a push appends the
staged hop, a pop takes the oldest, `SEQ.STEP` does both, no other command but `SYS.SETUP` changes what waits. -/
def Obligations.HopBuffersAreFifoQueues : Prop :=
  ∀ (i : Instr) (s t : State), Inv s → exec i s = .next t → i ≠ .sysSetup → QueuesMoveAsFifo i s t

/-- 20_memory.md R79: a `CAP.PUSH` that fits and a `CAP.POP` that finds a hop may come in either order: the final
state is the same. The same for `PLAY.PUSH` and `PLAY.POP`. -/
def Obligations.ProducerAndConsumerCommute : Prop :=
  ∀ s : State, Inv s → s.err = 0 →
    (s.processReadPtr < s.readPtr → s.readPtr ≠ 2 ^ s.cfg.idxBits - 1 →
      s.readPtr - s.processReadPtr < s.cfg.numHops →
      ∃ t, execAll [.capPush, .capPop] s = .next t ∧ execAll [.capPop, .capPush] s = .next t) ∧
    (s.writePtr < s.processWritePtr → s.processWritePtr ≠ 2 ^ s.cfg.idxBits - 1 →
      s.processWritePtr - s.writePtr < s.cfg.numHops →
      ∃ t, execAll [.playPush, .playPop] s = .next t ∧ execAll [.playPop, .playPush] s = .next t)

/-! ## Resampler and frame assembler -/

/-- 41_resampler.md R142: `RS.DEC`, with the rule's own index range for `v`: negative indices are the delay line. -/
def Obligations.RsDecFiltersAndDecimates : Prop :=
  IsCommandWord .rsDec .M 0x00000020 ∧ RefusesWhileHalted .rsDec ∧
  ∀ s : State, cfgValid s.cfg = true → s.err = 0 →
    let v : Int → F32 := fun j =>
      if j < 0 then s.item .ddl (j + (s.cfg.decTaps - 1 : Nat)).toNat else pcm2f s.cfg (s.item .nin j.toNat)
    ∃ t, exec .rsDec s = .next t ∧ t = { s with mem := t.mem, result := 0x00 } ∧
      (∀ m < s.cfg.hopSize, t.peek (.win .mhi m) = some (fsum s.cfg s.cfg.decTaps fun k =>
        fmul s.cfg (s.item .dcoef k) (v ((s.cfg.ratio * m + (s.cfg.ratio - 1) : Nat) - k)))) ∧
      (∀ i < s.cfg.decTaps - 1,
        t.peek (.win .ddl i) = some (v ((nhop s.cfg : Int) - (s.cfg.decTaps - 1 : Nat) + i))) ∧
      SameOutside (fun l => l.inWindows [.mhi, .ddl]) s t

/-- 41_resampler.md R145: `RS.INT`, with the rule's own index range for `w` and its zero-stuffed `z`. -/
def Obligations.RsIntStuffsAndFilters : Prop :=
  IsCommandWord .rsInt .M 0x00000021 ∧ RefusesWhileHalted .rsInt ∧
  ∀ (s : State) (z : Nat → F32), cfgValid s.cfg = true → s.err = 0 →
    (∀ m < s.cfg.hopSize, z (s.cfg.ratio * m) = s.item .mho m ∧
      ∀ p, 1 ≤ p → p < s.cfg.ratio → z (s.cfg.ratio * m + p) = 0) →
    let w : Int → F32 := fun j =>
      if j < 0 then s.item .idl (j + (s.cfg.intTaps - 1 : Nat)).toNat else z j.toNat
    ∃ t, exec .rsInt s = .next t ∧ t = { s with mem := t.mem, result := 0x00 } ∧
      (∀ n < nhop s.cfg, t.peek (.win .nout n) = some (f2pcm s.cfg (fsum s.cfg s.cfg.intTaps fun k =>
        fmul s.cfg (s.item .icoef k) (w ((n : Int) - k))))) ∧
      (∀ i < s.cfg.intTaps - 1,
        t.peek (.win .idl i) = some (w ((nhop s.cfg : Int) - (s.cfg.intTaps - 1 : Nat) + i))) ∧
      SameOutside (fun l => l.inWindows [.nout, .idl]) s t

/-- 41_resampler.md R144: two `RS.DEC` on hops `a` then `b` give the outputs and leave the delay line of one
decimation of `a ++ b` with `HOP_SIZE` doubled, bit for bit. -/
def Obligations.DecimationPersistsAcrossHops : Prop :=
  ∀ (s : State) (a b : List Word), cfgValid s.cfg = true → s.err = 0 → a.length = nhop s.cfg →
    b.length = nhop s.cfg →
    ∃ t1 t2 t, exec .rsDec (s.putWin .nin a) = .next t1 ∧ exec .rsDec (t1.putWin .nin b) = .next t2 ∧
      exec .rsDec (State.putWin { s with cfg := { s.cfg with hopSize := 2 * s.cfg.hopSize } } .nin (a ++ b)) =
        .next t ∧
      t.win .mhi = t1.win .mhi ++ t2.win .mhi ∧ t.win .ddl = t2.win .ddl

/-- 41_resampler.md R147: the same for `RS.INT`. -/
def Obligations.InterpolationPersistsAcrossHops : Prop :=
  ∀ (s : State) (a b : List Word), cfgValid s.cfg = true → s.err = 0 → a.length = s.cfg.hopSize →
    b.length = s.cfg.hopSize →
    ∃ t1 t2 t, exec .rsInt (s.putWin .mho a) = .next t1 ∧ exec .rsInt (t1.putWin .mho b) = .next t2 ∧
      exec .rsInt (State.putWin { s with cfg := { s.cfg with hopSize := 2 * s.cfg.hopSize } } .mho (a ++ b)) =
        .next t ∧
      t.win .nout = t1.win .nout ++ t2.win .nout ∧ t.win .idl = t2.win .idl

/-- 42_frame_assembler.md R160: `FRM.PUSH` shifts `AFRAME` left by a hop and appends `MHI`. -/
def Obligations.FrmPushSlidesTheFrame : Prop :=
  IsCommandWord .frmPush .M 0x00000030 ∧ RefusesWhileHalted .frmPush ∧
  ∀ s : State, cfgValid s.cfg = true → s.err = 0 →
    ∃ t, exec .frmPush s = .next t ∧ t = { s with mem := t.mem, result := 0x00 } ∧
      (∀ i < s.cfg.frameSize - s.cfg.hopSize,
        t.peek (.win .aframe i) = some (s.item .aframe (i + s.cfg.hopSize))) ∧
      (∀ i < s.cfg.hopSize,
        t.peek (.win .aframe (s.cfg.frameSize - s.cfg.hopSize + i)) = some (s.item .mhi i)) ∧
      SameOutside (fun l => l.inWindows [.aframe]) s t

/-- 42_frame_assembler.md R162: after `t` pushes from reset the frame holds the last `F` samples of the model-rate
stream, zeros before the first. -/
def Obligations.FrameHoldsTheLastSamples : Prop :=
  ∀ (c : Cfg) (hops : List (List Word)), cfgValid c = true → (∀ hop ∈ hops, hop.length = c.hopSize) →
    ∃ t, framePushes hops (State.resetOf c) = .next t ∧
      ∀ i < c.frameSize, t.item .aframe i =
        if c.frameSize ≤ hops.length * c.hopSize + i then
          elem hops.flatten (hops.length * c.hopSize + i - c.frameSize)
        else 0

/-! ## Spectral -/

/-- 43_spectral.md R170, R171: `FFT.ANALYZE`: the bins to `SPEC`, the mirror bins their exact conjugates, the
scaled magnitudes to `MAG`; `AFRAME` is not changed. -/
def Obligations.FftAnalyzeFillsSpecAndMag : Prop :=
  IsCommandWord .fftAnalyze .M 0x00000040 ∧ RefusesWhileHalted .fftAnalyze ∧
  ∀ s : State, cfgValid s.cfg = true → s.err = 0 →
    let x : Nat → F32 × F32 := bin (rfft s.cfg (s.win .aframe))
    ∃ t, exec .fftAnalyze s = .next t ∧ t = { s with mem := t.mem, result := 0x00 } ∧
      (∀ k ≤ s.cfg.fftSize / 2,
        t.peek (.win .spec (2 * k)) = some (x k).1 ∧ t.peek (.win .spec (2 * k + 1)) = some (x k).2 ∧
        t.peek (.win .mag k) = some (fmul s.cfg s.cfg.magScale
          (fsqrt s.cfg (fadd s.cfg (fmul s.cfg (x k).1 (x k).1) (fmul s.cfg (x k).2 (x k).2))))) ∧
      (∀ k, s.cfg.fftSize / 2 < k → k < s.cfg.fftSize →
        t.peek (.win .spec (2 * k)) = some (x (s.cfg.fftSize - k)).1 ∧
        t.peek (.win .spec (2 * k + 1)) = some (fneg (x (s.cfg.fftSize - k)).2)) ∧
      SameOutside (fun l => l.inWindows [.spec, .mag]) s t

/-- 43_spectral.md R175: `FFT.MSYN`: `TFRAME` becomes the inverse transform of the masked bins; `SPEC` and `MASK`
are not modified, and `SPEC[1]`, `SPEC[NF+1]` and the bins above NF/2 do not affect `TFRAME`. -/
def Obligations.FftMsynSynthesizesMaskedBins : Prop :=
  IsCommandWord .fftMsyn .M 0x00000041 ∧ RefusesWhileHalted .fftMsyn ∧
  ∀ s : State, cfgValid s.cfg = true → s.err = 0 →
    ∃ t, exec .fftMsyn s = .next t ∧ t = { s with mem := t.mem, result := 0x00 } ∧
      (∀ n < s.cfg.frameSize, t.peek (.win .tframe n) =
        some (elem (irfft s.cfg (tabulate (s.cfg.fftSize / 2 + 1) fun k =>
          (fmul s.cfg (s.item .spec (2 * k)) (s.item .mask k),
           fmul s.cfg (s.item .spec (2 * k + 1)) (s.item .mask k)))) n)) ∧
      SameOutside (fun l => l.inWindows [.tframe]) s t

/-- 43_spectral.md R167 (b), (c), R168: `rfft` has NF/2+1 bins, bins 0 and NF/2 have the imaginary part `+0.0`,
an all-zero argument gives `+0.0` everywhere, whatever the transform and the arithmetic, and the default is the
direct summation over the tables. With replaced arithmetic the summation is claimed where law (c) does not
already fix the value, the model's choice of log 13. -/
def Obligations.RfftLaws : Prop :=
  ∀ (c : Cfg) (x : List F32), cfgValid c = true →
    (rfft c x).length = c.fftSize / 2 + 1 ∧ (bin (rfft c x) 0).2 = 0 ∧ (bin (rfft c x) (c.fftSize / 2)).2 = 0 ∧
    ((∀ a ∈ x, isZero a = true) → ∀ k, bin (rfft c x) k = (0, 0)) ∧
    (c.transform = .reference → (∃ r, c.arith = .ieee r) ∨ (∃ a ∈ x, isZero a = false) → ∀ k ≤ c.fftSize / 2,
      (bin (rfft c x) k).1 =
        fsum c c.fftSize (fun n => fmul c (elem x n) (elem c.twc (k * n % c.fftSize))) ∧
      (0 < k → k < c.fftSize / 2 → (bin (rfft c x) k).2 =
        fsum c c.fftSize (fun n => fmul c (elem x n) (fneg (elem c.tws (k * n % c.fftSize))))))

/-- 43_spectral.md R177 (b), (c), R178: `irfft` has NF samples, it does not depend on the imaginary parts of bins 0
and NF/2, all-zero bins give zeros of either sign, whatever the transform and the arithmetic, and sample `n` of
the default is `IFFT_SCALE` times the fold of R178. With replaced arithmetic the fold is claimed where law (c)
does not already fix the value, the model's choice of log 13. -/
def Obligations.IrfftLaws : Prop :=
  ∀ (c : Cfg) (y y' : List (F32 × F32)), cfgValid c = true → y.length = c.fftSize / 2 + 1 →
    y'.length = c.fftSize / 2 + 1 →
    (irfft c y).length = c.fftSize ∧
    ((∀ b ∈ y, isZero b.1 = true ∧ isZero b.2 = true) → ∀ a ∈ irfft c y, isZero a = true) ∧
    ((∀ k ≤ c.fftSize / 2, (bin y k).1 = (bin y' k).1 ∧
      (0 < k → k < c.fftSize / 2 → (bin y k).2 = (bin y' k).2)) → irfft c y = irfft c y') ∧
    (c.transform = .reference →
      (∃ r, c.arith = .ieee r) ∨ (∃ k ≤ c.fftSize / 2, isZero (bin y k).1 = false ∨
        (0 < k ∧ k < c.fftSize / 2 ∧ isZero (bin y k).2 = false)) →
      ∀ n < c.fftSize, elem (irfft c y) n = fmul c c.ifftScale
        ((List.range (c.fftSize / 2 - 1)).foldl
          (fun acc j => fadd c acc (fmul c 0x40000000
            (fadd c (fmul c (bin y (j + 1)).1 (elem c.twc ((j + 1) * n % c.fftSize)))
              (fneg (fmul c (bin y (j + 1)).2 (elem c.tws ((j + 1) * n % c.fftSize)))))))
          (fadd c (bin y 0).1
            (if n % 2 = 0 then (bin y (c.fftSize / 2)).1 else fneg (bin y (c.fftSize / 2)).1))))

/-! ## Overlap-add -/

/-- 44_overlap_add.md R190: `OLA.ACC` adds the selected frame lane by lane; the source frame is not changed. -/
def Obligations.OlaAccAddsTheSelectedFrame : Prop :=
  IsCommandWord (.olaAcc 0) .M 0x00000050 ∧ IsCommandWord (.olaAcc 1) .M 0x00000150 ∧
  ∀ sel : Nat, RefusesWhileHalted (.olaAcc sel) ∧
  ∀ s : State, s.err = 0 →
    ∃ t, exec (.olaAcc sel) s = .next t ∧ t = { s with mem := t.mem, result := 0x00 } ∧
      (∀ i < s.cfg.frameSize, t.peek (.win .acc i) =
        some (fadd s.cfg (s.item .acc i) (if sel = 0 then s.item .sframe i else s.item .tframe i))) ∧
      SameOutside (fun l => l.inWindows [.acc]) s t

/-- 44_overlap_add.md R191: `OLA.EMIT`: the first hop to `MHO`, the rest shifted left, `+0.0` into the tail. -/
def Obligations.OlaEmitShiftsOutOneHop : Prop :=
  IsCommandWord .olaEmit .M 0x00000051 ∧ RefusesWhileHalted .olaEmit ∧
  ∀ s : State, cfgValid s.cfg = true → s.err = 0 →
    ∃ t, exec .olaEmit s = .next t ∧ t = { s with mem := t.mem, result := 0x00 } ∧
      (∀ i < s.cfg.hopSize, t.peek (.win .mho i) = some (s.item .acc i)) ∧
      (∀ i < s.cfg.frameSize - s.cfg.hopSize,
        t.peek (.win .acc i) = some (s.item .acc (i + s.cfg.hopSize))) ∧
      (∀ i, s.cfg.frameSize - s.cfg.hopSize ≤ i → i < s.cfg.frameSize → t.peek (.win .acc i) = some 0) ∧
      SameOutside (fun l => l.inWindows [.mho, .acc]) s t

/-- 44_overlap_add.md R193: the hop emitted by the last of the pairs `OLA.ACC TFRAME`, `OLA.EMIT` from reset is the
sum, oldest frame first, of the at most F/H frames that overlap it. -/
def Obligations.EmittedHopSumsOverlappingFrames : Prop :=
  ∀ (c : Cfg) (frames : List (List Word)), cfgValid c = true → frames ≠ [] →
    ∃ t, overlapPairs frames (State.resetOf c) = .next t ∧
      ∀ i < c.hopSize, t.item .mho i =
        fsum c (min frames.length (c.frameSize / c.hopSize)) fun k =>
          elem (frames.getD (frames.length - min frames.length (c.frameSize / c.hopSize) + k) [])
            ((min frames.length (c.frameSize / c.hopSize) - 1 - k) * c.hopSize + i)

/-- 44_overlap_add.md R194: with the last hop of `ACC` zero, as after a pair, `F/H - 1` further `OLA.EMIT` deliver
the tail in order, a hop at a time, and leave `ACC` all `+0.0`. -/
def Obligations.FlushDeliversTheTail : Prop :=
  ∀ s : State, cfgValid s.cfg = true → s.err = 0 →
    (∀ i, s.cfg.frameSize - s.cfg.hopSize ≤ i → i < s.cfg.frameSize → s.item .acc i = 0) →
    (∀ n, n < s.cfg.frameSize / s.cfg.hopSize - 1 →
      ∃ t, execAll (List.replicate (n + 1) .olaEmit) s = .next t ∧
        ∀ i < s.cfg.hopSize, t.item .mho i = s.item .acc (n * s.cfg.hopSize + i)) ∧
    ∃ t, execAll (List.replicate (s.cfg.frameSize / s.cfg.hopSize - 1) .olaEmit) s = .next t ∧
      AllPlusZero t .acc

/-! ## Sequencer -/

/-- 45_sequencer.md R201, R202: with no captured hop waiting `SEQ.STEP` returns `R_EMPTY` and changes nothing, in
either mode; while halted it is refused. -/
def Obligations.SeqStepWithNoHopDoesNothing : Prop :=
  IsCommandWord .seqStep .M 0x00000060 ∧ RefusesWhileHalted .seqStep ∧
  ∀ s : State, s.err = 0 → s.readPtr ≤ s.processReadPtr →
    exec .seqStep s = .next { s with result := 0x01 }

/-- 45_sequencer.md R202, R206, R208: a PassThrough step is `CAP.POP`, `RS.DEC`, `FRM.PUSH`, the copy of `MHI` to
`MHO` and `RS.INT`, one after the other, then the end of a step: `PLAY.PUSH` and Idle, or its fault. -/
def Obligations.PassThroughStepIsItsCommands : Prop :=
  ∀ s : State, s.err = 0 → s.passThrough = true → s.processReadPtr < s.readPtr →
    ∃ t3 t5, execAll [.capPop, .rsDec, .frmPush] s = .next t3 ∧
      exec .rsInt (t3.putWin .mho (tabulate s.cfg.hopSize (t3.item .mhi))) = .next t5 ∧
      t5.processReadPtr = s.processReadPtr + 1 ∧ SeqStepEndsFrom t5 s

/-- 45_sequencer.md R202, R204, R205, R206, R212: a full-chain step is the commands of `STEP.MANUAL` with `MASK`,
`STATE_A` written from `InferA(MAG, STATE_A)` and `SFRAME`, `STATE_B` from `InferB(TFRAME, STATE_B)`, then the end
of a step. If a stage answers Error the step stops there: its `ERR` bit and code, `SEQ` left at 5 or 7, what was
done before kept, and `MASK`, `STATE_A` (or `SFRAME`, `STATE_B`) as they were. -/
def Obligations.FullChainStepIsStepManual : Prop :=
  ∀ s : State, s.err = 0 → s.passThrough = false → s.processReadPtr < s.readPtr →
    ∃ t4, execAll [.capPop, .rsDec, .frmPush, .fftAnalyze] s = .next t4 ∧
      t4.processReadPtr = s.processReadPtr + 1 ∧
      (inferA s.cfg (t4.win .mag) (t4.win .stateA) = none →
        exec .seqStep s = .next { t4 with seq := .inferringA, err := 0x04, result := 0x21 }) ∧
      ∀ mask stA, inferA s.cfg (t4.win .mag) (t4.win .stateA) = some (mask, stA) →
        ∃ t6, exec .fftMsyn ((t4.putWin .mask mask).putWin .stateA stA) = .next t6 ∧
          (inferB s.cfg (t6.win .tframe) (t6.win .stateB) = none →
            exec .seqStep s = .next { t6 with seq := .inferringB, err := 0x08, result := 0x22 }) ∧
          ∀ frame stB, inferB s.cfg (t6.win .tframe) (t6.win .stateB) = some (frame, stB) →
            ∃ t9, execAll [.olaAcc 0, .olaEmit, .rsInt] ((t6.putWin .sframe frame).putWin .stateB stB) = .next t9 ∧
              SeqStepEndsFrom t9 s

/-- 45_sequencer.md R208: in PassThrough `SPEC`, `MAG`, `MASK`, `TFRAME`, `SFRAME`, `ACC`, `STATE_A`, `STATE_B` are
frozen, whatever the step ends in. -/
def Obligations.PassThroughFreezesTheSpectralChain : Prop :=
  ∀ s t : State, s.passThrough = true → exec .seqStep s = .next t →
    ∀ w ∈ [Window.spec, .mag, .mask, .tframe, .sframe, .acc, .stateA, .stateB],
      ∀ i, t.peek (.win w i) = s.peek (.win w i)

/-- 45_sequencer.md R213, 41_resampler.md R149, 43_spectral.md R182: silence in, silence out. Reset is silent. On
a silent state a `SEQ.STEP`, with the rule's premises on the coefficients and the stages (none on the stages in
PassThrough), and every command of agent I, with zeros staged where it is `CAP.PUSH`, leave a silent state: every
hop published to `PLAYBUF` is all `0x00000000`. -/
def Obligations.SilenceInSilenceOut : Prop :=
  (∀ c : Cfg, cfgValid c = true → Silent (State.resetOf c)) ∧
  ∀ (i : Instr) (s t : State), Inv s → SilenceConfig s.cfg → Silent s → exec i s = .next t →
    (i.port = .I ∧ (i = .capPush → AllPlusZero s .capwin) ∨
      i = .seqStep ∧ (s.passThrough = false → SilentStages s)) → Silent t

/-! ## Window access -/

/-- 46_system_and_buffer_access.md R222, R223: `BUF.RD`, halted or not: an id that names no window or an index past
its end is `E_RANGE`, `CAPWIN` and `PLAYWIN` are `E_PERM`, and otherwise the element's pattern goes to `DATA`. The ids and
lengths of the nineteen windows, which this and the next three statements speak of, are those of the table of
10_state.md R24, written out first; no other id names a window. -/
def Obligations.BufRdLoadsData : Prop :=
  (∀ (c : Cfg) (w : Window), (w, windowId w, windowLen c w) ∈
    [(Window.nin, 0x00, c.ratio * c.hopSize), (.nout, 0x01, c.ratio * c.hopSize), (.mhi, 0x02, c.hopSize),
     (.mho, 0x03, c.hopSize), (.ddl, 0x04, c.decTaps - 1), (.idl, 0x05, c.intTaps - 1), (.dcoef, 0x06, c.decTaps),
     (.icoef, 0x07, c.intTaps), (.aframe, 0x08, c.frameSize), (.spec, 0x09, 2 * c.fftSize),
     (.mag, 0x0A, c.fftSize / 2 + 1), (.mask, 0x0B, c.fftSize / 2 + 1), (.tframe, 0x0C, c.frameSize),
     (.sframe, 0x0D, c.frameSize), (.acc, 0x0E, c.frameSize), (.stateA, 0x0F, c.fftSize),
     (.stateB, 0x10, c.fftSize), (.capwin, 0x20, c.ratio * c.hopSize), (.playwin, 0x21, c.ratio * c.hopSize)]) ∧
  ∀ win idx : Nat,
    (win < 256 → idx < 65536 →
      IsCommandWord (.bufRd win idx) .M (BitVec.ofNat 32 (0x70 + 256 * win + 65536 * idx))) ∧
    ∀ s : State,
      ((∀ w, windowId w ≠ win) → exec (.bufRd win idx) s = .next { s with result := 0x11 }) ∧
      ∀ w, windowId w = win →
        (windowLen s.cfg w ≤ idx → exec (.bufRd win idx) s = .next { s with result := 0x11 }) ∧
        (idx < windowLen s.cfg w → w = .capwin ∨ w = .playwin →
          exec (.bufRd win idx) s = .next { s with result := 0x12 }) ∧
        (idx < windowLen s.cfg w → w ≠ .capwin → w ≠ .playwin →
          exec (.bufRd win idx) s = .next { s with data := s.item w idx, result := 0x00 })

/-- 46_system_and_buffer_access.md R222, R224: `BUF.WR`: as `BUF.RD`, and `DCOEF` and `ICOEF` are `E_PERM` too;
otherwise that one element becomes `DATA` and no other element changes. -/
def Obligations.BufWrStoresData : Prop :=
  ∀ win idx : Nat, RefusesWhileHalted (.bufWr win idx) ∧
    (win < 256 → idx < 65536 →
      IsCommandWord (.bufWr win idx) .M (BitVec.ofNat 32 (0x71 + 256 * win + 65536 * idx))) ∧
    ∀ s : State, s.err = 0 →
      ((∀ w, windowId w ≠ win) → exec (.bufWr win idx) s = .next { s with result := 0x11 }) ∧
      ∀ w, windowId w = win →
        (windowLen s.cfg w ≤ idx → exec (.bufWr win idx) s = .next { s with result := 0x11 }) ∧
        (idx < windowLen s.cfg w → w ∈ [Window.capwin, .playwin, .dcoef, .icoef] →
          exec (.bufWr win idx) s = .next { s with result := 0x12 }) ∧
        (idx < windowLen s.cfg w → w ∉ [Window.capwin, .playwin, .dcoef, .icoef] →
          ∃ t, exec (.bufWr win idx) s = .next t ∧ t = { s with mem := t.mem, result := 0x00 } ∧
            t.peek (.win w idx) = some s.data ∧ SameOutside (fun l => l = .win w idx) s t)

/-- 46_system_and_buffer_access.md R222, R225: `IWIN.RD`, halted or not: only `CAPWIN` and `PLAYWIN` are read, into
`IDATA`; every other window is `E_PERM`. -/
def Obligations.IwinRdLoadsIdata : Prop :=
  ∀ win idx : Nat,
    (win < 256 → idx < 65536 →
      IsCommandWord (.iwinRd win idx) .I (BitVec.ofNat 32 (0x90 + 256 * win + 65536 * idx))) ∧
    ∀ s : State,
      ((∀ w, windowId w ≠ win) → exec (.iwinRd win idx) s = .next { s with iresult := 0x11 }) ∧
      ∀ w, windowId w = win →
        (windowLen s.cfg w ≤ idx → exec (.iwinRd win idx) s = .next { s with iresult := 0x11 }) ∧
        (idx < windowLen s.cfg w → w ≠ .capwin → w ≠ .playwin →
          exec (.iwinRd win idx) s = .next { s with iresult := 0x12 }) ∧
        (idx < windowLen s.cfg w → w = .capwin ∨ w = .playwin →
          exec (.iwinRd win idx) s = .next { s with idata := s.item w idx, iresult := 0x00 })

/-- 46_system_and_buffer_access.md R222, R226: `IWIN.WR` writes `CAPWIN` alone: `PLAYWIN` and every M window are
`E_PERM`. -/
def Obligations.IwinWrStoresIdata : Prop :=
  ∀ win idx : Nat, RefusesWhileHalted (.iwinWr win idx) ∧
    (win < 256 → idx < 65536 →
      IsCommandWord (.iwinWr win idx) .I (BitVec.ofNat 32 (0x91 + 256 * win + 65536 * idx))) ∧
    ∀ s : State, s.err = 0 →
      ((∀ w, windowId w ≠ win) → exec (.iwinWr win idx) s = .next { s with iresult := 0x11 }) ∧
      ∀ w, windowId w = win →
        (windowLen s.cfg w ≤ idx → exec (.iwinWr win idx) s = .next { s with iresult := 0x11 }) ∧
        (idx < windowLen s.cfg w → w ≠ .capwin →
          exec (.iwinWr win idx) s = .next { s with iresult := 0x12 }) ∧
        (idx < windowLen s.cfg w → w = .capwin →
          ∃ t, exec (.iwinWr win idx) s = .next t ∧ t = { s with mem := t.mem, iresult := 0x00 } ∧
            t.peek (.win .capwin idx) = some s.idata ∧ SameOutside (fun l => l = .win .capwin idx) s t)

/-! ## Invariants -/

/-- 10_state.md R22, R46, 30_encoding.md R100, 40_hopbuffer.md R128, 60_exceptions.md R249: every step of the
machine, whatever the event, keeps the invariants: buffer lengths, counters, one `ERR` bit, a legal `SEQ`, legal
result codes. The legal configurations are those of log 7 (DEDUCED), and "exactly their lengths" is the model's
form of memory, log 16 (DESIGN CHOICE). -/
def Obligations.StepKeepsInvariant : Prop :=
  ∀ s t : State, Inv s → step s = .next t → Inv t

/-- 10_state.md R47, 40_hopbuffer.md R128: the invariants hold at reset, in every legal configuration, and so in
the reset state of the machine. -/
def Obligations.InvariantHoldsAtReset : Prop :=
  (∀ c : Cfg, cfgValid c = true → Inv (State.resetOf c)) ∧ Inv State.reset

/-- 10_state.md R44, R49, 00_scope.md R5: no step changes the configuration, and none of the model's own kind but
the events is consumed: a step takes one event. -/
def Obligations.StepKeepsConfiguration : Prop :=
  ∀ s t : State, step s = .next t → t.cfg = s.cfg ∧ t.events = s.events.tail

/-! ## Float -/

/-- 00_scope.md R12: the default `fadd` of finite operands is their exact sum rounded to the nearest binary32, ties
to even, subnormals kept; a sum of `2^128 - 2^103` or more in size is an infinity of its sign (that threshold is
not in the rule's words: log 10, PRESUMED). -/
def Obligations.AddRoundsToNearestEven : Prop :=
  ∀ (r : NanRule) (a b : F32), isFinite a = true → isFinite b = true →
    (isFinite (ieeeAdd r a b) = true ↔ |units a + units b| < (2 ^ 128 - 2 ^ 103) * 2 ^ 149) ∧
    (isFinite (ieeeAdd r a b) = false →
      ieeeAdd r a b = if 0 < units a + units b then 0x7F800000 else 0xFF800000) ∧
    (isFinite (ieeeAdd r a b) = true → ∀ x : F32, isFinite x = true →
      |units (ieeeAdd r a b) - (units a + units b)| ≤ |units x - (units a + units b)| ∧
      (|units (ieeeAdd r a b) - (units a + units b)| = |units x - (units a + units b)| →
        units x ≠ units (ieeeAdd r a b) → fracField (ieeeAdd r a b) % 2 = 0))

/-- 00_scope.md R12: the same for the default `fmul`; units of a product are `2^-298`. The threshold of
overflow and the sign of a product are not in the rule's words: log 10 (PRESUMED). -/
def Obligations.MulRoundsToNearestEven : Prop :=
  ∀ (r : NanRule) (a b : F32), isFinite a = true → isFinite b = true →
    (isFinite (ieeeMul r a b) = true ↔ |units a * units b| < (2 ^ 128 - 2 ^ 103) * 2 ^ 149 * 2 ^ 149) ∧
    (isFinite (ieeeMul r a b) = false →
      ieeeMul r a b = if signBit a = signBit b then 0x7F800000 else 0xFF800000) ∧
    (isFinite (ieeeMul r a b) = true →
      signBit (ieeeMul r a b) = (signBit a != signBit b) ∧
      ∀ x : F32, isFinite x = true →
        |units (ieeeMul r a b) * 2 ^ 149 - units a * units b| ≤ |units x * 2 ^ 149 - units a * units b| ∧
        (|units (ieeeMul r a b) * 2 ^ 149 - units a * units b| = |units x * 2 ^ 149 - units a * units b| →
          units x ≠ units (ieeeMul r a b) → fracField (ieeeMul r a b) % 2 = 0))

/-- 00_scope.md R12: the default `fsqrt` of a finite operand that is not negative is the binary32 value nearest to
the real square root. -/
def Obligations.SqrtRoundsToNearest : Prop :=
  ∀ (r : NanRule) (a : F32), isFinite a = true → 0 ≤ units a →
    isFinite (ieeeSqrt r a) = true ∧
    ∀ x : F32, isFinite x = true →
      |(value (ieeeSqrt r a) : Real) - Real.sqrt (value a)| ≤ |(value x : Real) - Real.sqrt (value a)|

/-- 00_scope.md R12, 93_implementation_defined.md U6: invalid operations (`inf - inf`, `0 * inf`, the root of a
negative non-zero number) and NaN operands give a quiet NaN; other operations on infinities give an infinity. -/
def Obligations.SpecialOperands : Prop :=
  ∀ (r : NanRule) (a b : F32),
    (isNan a = true ∨ isNan b = true → isNan (ieeeAdd r a b) = true ∧ isNan (ieeeMul r a b) = true) ∧
    (isNan a = true → isNan (ieeeSqrt r a) = true) ∧
    (isInf a = true → isInf b = true → signBit a ≠ signBit b → isNan (ieeeAdd r a b) = true) ∧
    (isInf a = true → isZero b = true → isNan (ieeeMul r a b) = true ∧ isNan (ieeeMul r b a) = true) ∧
    (isNan a = false → isZero a = false → signBit a = true → isNan (ieeeSqrt r a) = true) ∧
    (isInf a = true → isFinite b = true → ieeeAdd r a b = a ∧ ieeeAdd r b a = a) ∧
    (isInf a = true → isNan b = false → isZero b = false → isInf (ieeeMul r a b) = true) ∧
    (isNan (ieeeAdd r a b) = true → (ieeeAdd r a b).getLsbD 22 = true) ∧
    (isNan (ieeeMul r a b) = true → (ieeeMul r a b).getLsbD 22 = true) ∧
    (isNan (ieeeSqrt r a) = true → (ieeeSqrt r a).getLsbD 22 = true)

/-- 43_spectral.md R168: the twiddle tables of configuration T are the rounded cosines and sines. -/
def Obligations.TestTwiddlesAreRounded : Prop := TwiddlesRounded Config.testT
end

