-- ==== Sys2Proof/Laws/Buffer.lean ====
section
/-! SUPPORT. Buffers: what each operation's elements and length are. -/

namespace Sys2Proof.Machine

@[simp] theorem length_tabulate {α : Type} (n : Nat) (f : Nat → α) : (tabulate n f).length = n := by
  simp [tabulate]

@[simp] theorem getElem_tabulate {α : Type} (n : Nat) (f : Nat → α) (i : Nat) (h : i < (tabulate n f).length) :
    (tabulate n f)[i] = f i := by
  simp [tabulate]

theorem mem_tabulate {α : Type} {n : Nat} {f : Nat → α} {a : α} : a ∈ tabulate n f ↔ ∃ i < n, f i = a := by
  simp [tabulate]

theorem getD_tabulate {α : Type} (n : Nat) (f : Nat → α) (i : Nat) (d : α) :
    (tabulate n f).getD i d = if i < n then f i else d := by
  by_cases h : i < n <;> simp [tabulate, List.getD, h]

theorem tabulate_congr {α : Type} {n : Nat} {f g : Nat → α} (h : ∀ i < n, f i = g i) :
    tabulate n f = tabulate n g := by
  apply List.map_congr_left
  intro i hi
  exact h i (List.mem_range.mp hi)

theorem elem_tabulate (n : Nat) (f : Nat → Word) (i : Nat) :
    elem (tabulate n f) i = if i < n then f i else 0 := getD_tabulate n f i 0

@[simp] theorem elem_tabulate_of_lt {n i : Nat} (f : Nat → Word) (h : i < n) : elem (tabulate n f) i = f i := by
  simp [elem_tabulate, h]

/-- Past the end of a list an element reads as the reset word. -/
theorem elem_of_length_le {l : List Word} {i : Nat} (h : l.length ≤ i) : elem l i = 0 := by
  simp [elem, List.getD, List.getElem?_eq_none h]

theorem elem_mem {l : List Word} {i : Nat} (h : i < l.length) : elem l i ∈ l := by
  simp [elem, List.getD, h]

theorem exists_elem_of_mem {l : List Word} {a : Word} (h : a ∈ l) : ∃ i < l.length, elem l i = a := by
  obtain ⟨i, hi, rfl⟩ := List.getElem_of_mem h
  exact ⟨i, hi, by simp [elem, List.getD, hi]⟩

@[simp] theorem elem_nil (i : Nat) : elem [] i = 0 := by simp [elem]

@[simp] theorem elem_replicate_zero (n i : Nat) : elem (List.replicate n 0) i = 0 := by
  by_cases h : i < n <;> simp [elem, List.getD, h]

theorem elem_append (l m : List Word) (i : Nat) :
    elem (l ++ m) i = if i < l.length then elem l i else elem m (i - l.length) := by
  by_cases h : i < l.length
  · simp [elem, List.getD, h, List.getElem?_append_left h]
  · simp [elem, List.getD, h, List.getElem?_append_right (Nat.le_of_not_lt h)]

/-- Equal lengths and equal elements make equal buffers. -/
theorem eq_of_elem {l m : List Word} (hl : l.length = m.length) (h : ∀ i < l.length, elem l i = elem m i) :
    l = m := by
  apply List.ext_getElem hl
  intro i h1 h2
  have := h i h1
  simpa [elem, List.getD, h1, h2] using this

/-- A buffer of `n` elements is the tabulation of its elements. -/
theorem tabulate_elem {n : Nat} {l : List Word} (h : l.length = n) : tabulate n (elem l) = l :=
  eq_of_elem (by simp [h]) fun i hi => by simp at hi; simp [hi]

@[simp] theorem length_fit (n : Nat) (l : List Word) : (fit n l).length = n := by simp [fit]

@[simp] theorem elem_fit_of_lt {n i : Nat} (l : List Word) (h : i < n) : elem (fit n l) i = elem l i := by
  simp [fit, h]

theorem fit_eq_self {n : Nat} {l : List Word} (h : l.length = n) : fit n l = l := tabulate_elem h

@[simp] theorem length_store (n : Nat) (l : List Word) (i : Nat) (v : Word) : (store n l i v).length = n := by
  simp [store]

/-- Read after write: the element written, and every other element as before. -/
theorem elem_store {n j : Nat} (l : List Word) (i : Nat) (v : Word) (h : j < n) :
    elem (store n l i v) j = if j = i then v else elem l j := by simp [store, h]

end Sys2Proof.Machine
end

