-- ==== Sys2Proof/Laws/State.lean ====
section
/-! SUPPORT. One lemma per field per update of State, so that no later proof unfolds a record update. -/

namespace Sys2Proof.Machine

/-! ### `State.setReadPtr` -/

@[simp] theorem State.setReadPtr_cfg (s : State) (v : Nat) : (s.setReadPtr v).cfg = s.cfg := rfl
@[simp] theorem State.setReadPtr_readPtr (s : State) (v : Nat) : (s.setReadPtr v).readPtr = v := rfl
@[simp] theorem State.setReadPtr_processReadPtr (s : State) (v : Nat) : (s.setReadPtr v).processReadPtr = s.processReadPtr := rfl
@[simp] theorem State.setReadPtr_writePtr (s : State) (v : Nat) : (s.setReadPtr v).writePtr = s.writePtr := rfl
@[simp] theorem State.setReadPtr_processWritePtr (s : State) (v : Nat) : (s.setReadPtr v).processWritePtr = s.processWritePtr := rfl
@[simp] theorem State.setReadPtr_seq (s : State) (v : Nat) : (s.setReadPtr v).seq = s.seq := rfl
@[simp] theorem State.setReadPtr_mem (s : State) (v : Nat) : (s.setReadPtr v).mem = s.mem := rfl
@[simp] theorem State.setReadPtr_err (s : State) (v : Nat) : (s.setReadPtr v).err = s.err := rfl
@[simp] theorem State.setReadPtr_passThrough (s : State) (v : Nat) : (s.setReadPtr v).passThrough = s.passThrough := rfl
@[simp] theorem State.setReadPtr_data (s : State) (v : Nat) : (s.setReadPtr v).data = s.data := rfl
@[simp] theorem State.setReadPtr_result (s : State) (v : Nat) : (s.setReadPtr v).result = s.result := rfl
@[simp] theorem State.setReadPtr_idata (s : State) (v : Nat) : (s.setReadPtr v).idata = s.idata := rfl
@[simp] theorem State.setReadPtr_iresult (s : State) (v : Nat) : (s.setReadPtr v).iresult = s.iresult := rfl
@[simp] theorem State.setReadPtr_events (s : State) (v : Nat) : (s.setReadPtr v).events = s.events := rfl
@[simp] theorem State.setReadPtr_readData (s : State) (v : Nat) : (s.setReadPtr v).readData = s.readData := rfl

/-! ### `State.setProcessReadPtr` -/

@[simp] theorem State.setProcessReadPtr_cfg (s : State) (v : Nat) : (s.setProcessReadPtr v).cfg = s.cfg := rfl
@[simp] theorem State.setProcessReadPtr_readPtr (s : State) (v : Nat) : (s.setProcessReadPtr v).readPtr = s.readPtr := rfl
@[simp] theorem State.setProcessReadPtr_processReadPtr (s : State) (v : Nat) : (s.setProcessReadPtr v).processReadPtr = v := rfl
@[simp] theorem State.setProcessReadPtr_writePtr (s : State) (v : Nat) : (s.setProcessReadPtr v).writePtr = s.writePtr := rfl
@[simp] theorem State.setProcessReadPtr_processWritePtr (s : State) (v : Nat) : (s.setProcessReadPtr v).processWritePtr = s.processWritePtr := rfl
@[simp] theorem State.setProcessReadPtr_seq (s : State) (v : Nat) : (s.setProcessReadPtr v).seq = s.seq := rfl
@[simp] theorem State.setProcessReadPtr_mem (s : State) (v : Nat) : (s.setProcessReadPtr v).mem = s.mem := rfl
@[simp] theorem State.setProcessReadPtr_err (s : State) (v : Nat) : (s.setProcessReadPtr v).err = s.err := rfl
@[simp] theorem State.setProcessReadPtr_passThrough (s : State) (v : Nat) : (s.setProcessReadPtr v).passThrough = s.passThrough := rfl
@[simp] theorem State.setProcessReadPtr_data (s : State) (v : Nat) : (s.setProcessReadPtr v).data = s.data := rfl
@[simp] theorem State.setProcessReadPtr_result (s : State) (v : Nat) : (s.setProcessReadPtr v).result = s.result := rfl
@[simp] theorem State.setProcessReadPtr_idata (s : State) (v : Nat) : (s.setProcessReadPtr v).idata = s.idata := rfl
@[simp] theorem State.setProcessReadPtr_iresult (s : State) (v : Nat) : (s.setProcessReadPtr v).iresult = s.iresult := rfl
@[simp] theorem State.setProcessReadPtr_events (s : State) (v : Nat) : (s.setProcessReadPtr v).events = s.events := rfl
@[simp] theorem State.setProcessReadPtr_readData (s : State) (v : Nat) : (s.setProcessReadPtr v).readData = s.readData := rfl

/-! ### `State.setWritePtr` -/

@[simp] theorem State.setWritePtr_cfg (s : State) (v : Nat) : (s.setWritePtr v).cfg = s.cfg := rfl
@[simp] theorem State.setWritePtr_readPtr (s : State) (v : Nat) : (s.setWritePtr v).readPtr = s.readPtr := rfl
@[simp] theorem State.setWritePtr_processReadPtr (s : State) (v : Nat) : (s.setWritePtr v).processReadPtr = s.processReadPtr := rfl
@[simp] theorem State.setWritePtr_writePtr (s : State) (v : Nat) : (s.setWritePtr v).writePtr = v := rfl
@[simp] theorem State.setWritePtr_processWritePtr (s : State) (v : Nat) : (s.setWritePtr v).processWritePtr = s.processWritePtr := rfl
@[simp] theorem State.setWritePtr_seq (s : State) (v : Nat) : (s.setWritePtr v).seq = s.seq := rfl
@[simp] theorem State.setWritePtr_mem (s : State) (v : Nat) : (s.setWritePtr v).mem = s.mem := rfl
@[simp] theorem State.setWritePtr_err (s : State) (v : Nat) : (s.setWritePtr v).err = s.err := rfl
@[simp] theorem State.setWritePtr_passThrough (s : State) (v : Nat) : (s.setWritePtr v).passThrough = s.passThrough := rfl
@[simp] theorem State.setWritePtr_data (s : State) (v : Nat) : (s.setWritePtr v).data = s.data := rfl
@[simp] theorem State.setWritePtr_result (s : State) (v : Nat) : (s.setWritePtr v).result = s.result := rfl
@[simp] theorem State.setWritePtr_idata (s : State) (v : Nat) : (s.setWritePtr v).idata = s.idata := rfl
@[simp] theorem State.setWritePtr_iresult (s : State) (v : Nat) : (s.setWritePtr v).iresult = s.iresult := rfl
@[simp] theorem State.setWritePtr_events (s : State) (v : Nat) : (s.setWritePtr v).events = s.events := rfl
@[simp] theorem State.setWritePtr_readData (s : State) (v : Nat) : (s.setWritePtr v).readData = s.readData := rfl

/-! ### `State.setProcessWritePtr` -/

@[simp] theorem State.setProcessWritePtr_cfg (s : State) (v : Nat) : (s.setProcessWritePtr v).cfg = s.cfg := rfl
@[simp] theorem State.setProcessWritePtr_readPtr (s : State) (v : Nat) : (s.setProcessWritePtr v).readPtr = s.readPtr := rfl
@[simp] theorem State.setProcessWritePtr_processReadPtr (s : State) (v : Nat) : (s.setProcessWritePtr v).processReadPtr = s.processReadPtr := rfl
@[simp] theorem State.setProcessWritePtr_writePtr (s : State) (v : Nat) : (s.setProcessWritePtr v).writePtr = s.writePtr := rfl
@[simp] theorem State.setProcessWritePtr_processWritePtr (s : State) (v : Nat) : (s.setProcessWritePtr v).processWritePtr = v := rfl
@[simp] theorem State.setProcessWritePtr_seq (s : State) (v : Nat) : (s.setProcessWritePtr v).seq = s.seq := rfl
@[simp] theorem State.setProcessWritePtr_mem (s : State) (v : Nat) : (s.setProcessWritePtr v).mem = s.mem := rfl
@[simp] theorem State.setProcessWritePtr_err (s : State) (v : Nat) : (s.setProcessWritePtr v).err = s.err := rfl
@[simp] theorem State.setProcessWritePtr_passThrough (s : State) (v : Nat) : (s.setProcessWritePtr v).passThrough = s.passThrough := rfl
@[simp] theorem State.setProcessWritePtr_data (s : State) (v : Nat) : (s.setProcessWritePtr v).data = s.data := rfl
@[simp] theorem State.setProcessWritePtr_result (s : State) (v : Nat) : (s.setProcessWritePtr v).result = s.result := rfl
@[simp] theorem State.setProcessWritePtr_idata (s : State) (v : Nat) : (s.setProcessWritePtr v).idata = s.idata := rfl
@[simp] theorem State.setProcessWritePtr_iresult (s : State) (v : Nat) : (s.setProcessWritePtr v).iresult = s.iresult := rfl
@[simp] theorem State.setProcessWritePtr_events (s : State) (v : Nat) : (s.setProcessWritePtr v).events = s.events := rfl
@[simp] theorem State.setProcessWritePtr_readData (s : State) (v : Nat) : (s.setProcessWritePtr v).readData = s.readData := rfl

/-! ### `State.setSeq` -/

@[simp] theorem State.setSeq_cfg (s : State) (v : SeqState) : (s.setSeq v).cfg = s.cfg := rfl
@[simp] theorem State.setSeq_readPtr (s : State) (v : SeqState) : (s.setSeq v).readPtr = s.readPtr := rfl
@[simp] theorem State.setSeq_processReadPtr (s : State) (v : SeqState) : (s.setSeq v).processReadPtr = s.processReadPtr := rfl
@[simp] theorem State.setSeq_writePtr (s : State) (v : SeqState) : (s.setSeq v).writePtr = s.writePtr := rfl
@[simp] theorem State.setSeq_processWritePtr (s : State) (v : SeqState) : (s.setSeq v).processWritePtr = s.processWritePtr := rfl
@[simp] theorem State.setSeq_seq (s : State) (v : SeqState) : (s.setSeq v).seq = v := rfl
@[simp] theorem State.setSeq_mem (s : State) (v : SeqState) : (s.setSeq v).mem = s.mem := rfl
@[simp] theorem State.setSeq_err (s : State) (v : SeqState) : (s.setSeq v).err = s.err := rfl
@[simp] theorem State.setSeq_passThrough (s : State) (v : SeqState) : (s.setSeq v).passThrough = s.passThrough := rfl
@[simp] theorem State.setSeq_data (s : State) (v : SeqState) : (s.setSeq v).data = s.data := rfl
@[simp] theorem State.setSeq_result (s : State) (v : SeqState) : (s.setSeq v).result = s.result := rfl
@[simp] theorem State.setSeq_idata (s : State) (v : SeqState) : (s.setSeq v).idata = s.idata := rfl
@[simp] theorem State.setSeq_iresult (s : State) (v : SeqState) : (s.setSeq v).iresult = s.iresult := rfl
@[simp] theorem State.setSeq_events (s : State) (v : SeqState) : (s.setSeq v).events = s.events := rfl
@[simp] theorem State.setSeq_readData (s : State) (v : SeqState) : (s.setSeq v).readData = s.readData := rfl

/-! ### `State.setMem` -/

@[simp] theorem State.setMem_cfg (s : State) (v : Memory) : (s.setMem v).cfg = s.cfg := rfl
@[simp] theorem State.setMem_readPtr (s : State) (v : Memory) : (s.setMem v).readPtr = s.readPtr := rfl
@[simp] theorem State.setMem_processReadPtr (s : State) (v : Memory) : (s.setMem v).processReadPtr = s.processReadPtr := rfl
@[simp] theorem State.setMem_writePtr (s : State) (v : Memory) : (s.setMem v).writePtr = s.writePtr := rfl
@[simp] theorem State.setMem_processWritePtr (s : State) (v : Memory) : (s.setMem v).processWritePtr = s.processWritePtr := rfl
@[simp] theorem State.setMem_seq (s : State) (v : Memory) : (s.setMem v).seq = s.seq := rfl
@[simp] theorem State.setMem_mem (s : State) (v : Memory) : (s.setMem v).mem = v := rfl
@[simp] theorem State.setMem_err (s : State) (v : Memory) : (s.setMem v).err = s.err := rfl
@[simp] theorem State.setMem_passThrough (s : State) (v : Memory) : (s.setMem v).passThrough = s.passThrough := rfl
@[simp] theorem State.setMem_data (s : State) (v : Memory) : (s.setMem v).data = s.data := rfl
@[simp] theorem State.setMem_result (s : State) (v : Memory) : (s.setMem v).result = s.result := rfl
@[simp] theorem State.setMem_idata (s : State) (v : Memory) : (s.setMem v).idata = s.idata := rfl
@[simp] theorem State.setMem_iresult (s : State) (v : Memory) : (s.setMem v).iresult = s.iresult := rfl
@[simp] theorem State.setMem_events (s : State) (v : Memory) : (s.setMem v).events = s.events := rfl
@[simp] theorem State.setMem_readData (s : State) (v : Memory) : (s.setMem v).readData = s.readData := rfl

/-! ### `State.setErr` -/

@[simp] theorem State.setErr_cfg (s : State) (v : Word) : (s.setErr v).cfg = s.cfg := rfl
@[simp] theorem State.setErr_readPtr (s : State) (v : Word) : (s.setErr v).readPtr = s.readPtr := rfl
@[simp] theorem State.setErr_processReadPtr (s : State) (v : Word) : (s.setErr v).processReadPtr = s.processReadPtr := rfl
@[simp] theorem State.setErr_writePtr (s : State) (v : Word) : (s.setErr v).writePtr = s.writePtr := rfl
@[simp] theorem State.setErr_processWritePtr (s : State) (v : Word) : (s.setErr v).processWritePtr = s.processWritePtr := rfl
@[simp] theorem State.setErr_seq (s : State) (v : Word) : (s.setErr v).seq = s.seq := rfl
@[simp] theorem State.setErr_mem (s : State) (v : Word) : (s.setErr v).mem = s.mem := rfl
@[simp] theorem State.setErr_err (s : State) (v : Word) : (s.setErr v).err = v := rfl
@[simp] theorem State.setErr_passThrough (s : State) (v : Word) : (s.setErr v).passThrough = s.passThrough := rfl
@[simp] theorem State.setErr_data (s : State) (v : Word) : (s.setErr v).data = s.data := rfl
@[simp] theorem State.setErr_result (s : State) (v : Word) : (s.setErr v).result = s.result := rfl
@[simp] theorem State.setErr_idata (s : State) (v : Word) : (s.setErr v).idata = s.idata := rfl
@[simp] theorem State.setErr_iresult (s : State) (v : Word) : (s.setErr v).iresult = s.iresult := rfl
@[simp] theorem State.setErr_events (s : State) (v : Word) : (s.setErr v).events = s.events := rfl
@[simp] theorem State.setErr_readData (s : State) (v : Word) : (s.setErr v).readData = s.readData := rfl

/-! ### `State.setPassThrough` -/

@[simp] theorem State.setPassThrough_cfg (s : State) (v : Bool) : (s.setPassThrough v).cfg = s.cfg := rfl
@[simp] theorem State.setPassThrough_readPtr (s : State) (v : Bool) : (s.setPassThrough v).readPtr = s.readPtr := rfl
@[simp] theorem State.setPassThrough_processReadPtr (s : State) (v : Bool) : (s.setPassThrough v).processReadPtr = s.processReadPtr := rfl
@[simp] theorem State.setPassThrough_writePtr (s : State) (v : Bool) : (s.setPassThrough v).writePtr = s.writePtr := rfl
@[simp] theorem State.setPassThrough_processWritePtr (s : State) (v : Bool) : (s.setPassThrough v).processWritePtr = s.processWritePtr := rfl
@[simp] theorem State.setPassThrough_seq (s : State) (v : Bool) : (s.setPassThrough v).seq = s.seq := rfl
@[simp] theorem State.setPassThrough_mem (s : State) (v : Bool) : (s.setPassThrough v).mem = s.mem := rfl
@[simp] theorem State.setPassThrough_err (s : State) (v : Bool) : (s.setPassThrough v).err = s.err := rfl
@[simp] theorem State.setPassThrough_passThrough (s : State) (v : Bool) : (s.setPassThrough v).passThrough = v := rfl
@[simp] theorem State.setPassThrough_data (s : State) (v : Bool) : (s.setPassThrough v).data = s.data := rfl
@[simp] theorem State.setPassThrough_result (s : State) (v : Bool) : (s.setPassThrough v).result = s.result := rfl
@[simp] theorem State.setPassThrough_idata (s : State) (v : Bool) : (s.setPassThrough v).idata = s.idata := rfl
@[simp] theorem State.setPassThrough_iresult (s : State) (v : Bool) : (s.setPassThrough v).iresult = s.iresult := rfl
@[simp] theorem State.setPassThrough_events (s : State) (v : Bool) : (s.setPassThrough v).events = s.events := rfl
@[simp] theorem State.setPassThrough_readData (s : State) (v : Bool) : (s.setPassThrough v).readData = s.readData := rfl

/-! ### `State.setData` -/

@[simp] theorem State.setData_cfg (s : State) (v : Word) : (s.setData v).cfg = s.cfg := rfl
@[simp] theorem State.setData_readPtr (s : State) (v : Word) : (s.setData v).readPtr = s.readPtr := rfl
@[simp] theorem State.setData_processReadPtr (s : State) (v : Word) : (s.setData v).processReadPtr = s.processReadPtr := rfl
@[simp] theorem State.setData_writePtr (s : State) (v : Word) : (s.setData v).writePtr = s.writePtr := rfl
@[simp] theorem State.setData_processWritePtr (s : State) (v : Word) : (s.setData v).processWritePtr = s.processWritePtr := rfl
@[simp] theorem State.setData_seq (s : State) (v : Word) : (s.setData v).seq = s.seq := rfl
@[simp] theorem State.setData_mem (s : State) (v : Word) : (s.setData v).mem = s.mem := rfl
@[simp] theorem State.setData_err (s : State) (v : Word) : (s.setData v).err = s.err := rfl
@[simp] theorem State.setData_passThrough (s : State) (v : Word) : (s.setData v).passThrough = s.passThrough := rfl
@[simp] theorem State.setData_data (s : State) (v : Word) : (s.setData v).data = v := rfl
@[simp] theorem State.setData_result (s : State) (v : Word) : (s.setData v).result = s.result := rfl
@[simp] theorem State.setData_idata (s : State) (v : Word) : (s.setData v).idata = s.idata := rfl
@[simp] theorem State.setData_iresult (s : State) (v : Word) : (s.setData v).iresult = s.iresult := rfl
@[simp] theorem State.setData_events (s : State) (v : Word) : (s.setData v).events = s.events := rfl
@[simp] theorem State.setData_readData (s : State) (v : Word) : (s.setData v).readData = s.readData := rfl

/-! ### `State.setResultReg` -/

@[simp] theorem State.setResultReg_cfg (s : State) (v : Word) : (s.setResultReg v).cfg = s.cfg := rfl
@[simp] theorem State.setResultReg_readPtr (s : State) (v : Word) : (s.setResultReg v).readPtr = s.readPtr := rfl
@[simp] theorem State.setResultReg_processReadPtr (s : State) (v : Word) : (s.setResultReg v).processReadPtr = s.processReadPtr := rfl
@[simp] theorem State.setResultReg_writePtr (s : State) (v : Word) : (s.setResultReg v).writePtr = s.writePtr := rfl
@[simp] theorem State.setResultReg_processWritePtr (s : State) (v : Word) : (s.setResultReg v).processWritePtr = s.processWritePtr := rfl
@[simp] theorem State.setResultReg_seq (s : State) (v : Word) : (s.setResultReg v).seq = s.seq := rfl
@[simp] theorem State.setResultReg_mem (s : State) (v : Word) : (s.setResultReg v).mem = s.mem := rfl
@[simp] theorem State.setResultReg_err (s : State) (v : Word) : (s.setResultReg v).err = s.err := rfl
@[simp] theorem State.setResultReg_passThrough (s : State) (v : Word) : (s.setResultReg v).passThrough = s.passThrough := rfl
@[simp] theorem State.setResultReg_data (s : State) (v : Word) : (s.setResultReg v).data = s.data := rfl
@[simp] theorem State.setResultReg_result (s : State) (v : Word) : (s.setResultReg v).result = v := rfl
@[simp] theorem State.setResultReg_idata (s : State) (v : Word) : (s.setResultReg v).idata = s.idata := rfl
@[simp] theorem State.setResultReg_iresult (s : State) (v : Word) : (s.setResultReg v).iresult = s.iresult := rfl
@[simp] theorem State.setResultReg_events (s : State) (v : Word) : (s.setResultReg v).events = s.events := rfl
@[simp] theorem State.setResultReg_readData (s : State) (v : Word) : (s.setResultReg v).readData = s.readData := rfl

/-! ### `State.setIdata` -/

@[simp] theorem State.setIdata_cfg (s : State) (v : Word) : (s.setIdata v).cfg = s.cfg := rfl
@[simp] theorem State.setIdata_readPtr (s : State) (v : Word) : (s.setIdata v).readPtr = s.readPtr := rfl
@[simp] theorem State.setIdata_processReadPtr (s : State) (v : Word) : (s.setIdata v).processReadPtr = s.processReadPtr := rfl
@[simp] theorem State.setIdata_writePtr (s : State) (v : Word) : (s.setIdata v).writePtr = s.writePtr := rfl
@[simp] theorem State.setIdata_processWritePtr (s : State) (v : Word) : (s.setIdata v).processWritePtr = s.processWritePtr := rfl
@[simp] theorem State.setIdata_seq (s : State) (v : Word) : (s.setIdata v).seq = s.seq := rfl
@[simp] theorem State.setIdata_mem (s : State) (v : Word) : (s.setIdata v).mem = s.mem := rfl
@[simp] theorem State.setIdata_err (s : State) (v : Word) : (s.setIdata v).err = s.err := rfl
@[simp] theorem State.setIdata_passThrough (s : State) (v : Word) : (s.setIdata v).passThrough = s.passThrough := rfl
@[simp] theorem State.setIdata_data (s : State) (v : Word) : (s.setIdata v).data = s.data := rfl
@[simp] theorem State.setIdata_result (s : State) (v : Word) : (s.setIdata v).result = s.result := rfl
@[simp] theorem State.setIdata_idata (s : State) (v : Word) : (s.setIdata v).idata = v := rfl
@[simp] theorem State.setIdata_iresult (s : State) (v : Word) : (s.setIdata v).iresult = s.iresult := rfl
@[simp] theorem State.setIdata_events (s : State) (v : Word) : (s.setIdata v).events = s.events := rfl
@[simp] theorem State.setIdata_readData (s : State) (v : Word) : (s.setIdata v).readData = s.readData := rfl

/-! ### `State.setIresult` -/

@[simp] theorem State.setIresult_cfg (s : State) (v : Word) : (s.setIresult v).cfg = s.cfg := rfl
@[simp] theorem State.setIresult_readPtr (s : State) (v : Word) : (s.setIresult v).readPtr = s.readPtr := rfl
@[simp] theorem State.setIresult_processReadPtr (s : State) (v : Word) : (s.setIresult v).processReadPtr = s.processReadPtr := rfl
@[simp] theorem State.setIresult_writePtr (s : State) (v : Word) : (s.setIresult v).writePtr = s.writePtr := rfl
@[simp] theorem State.setIresult_processWritePtr (s : State) (v : Word) : (s.setIresult v).processWritePtr = s.processWritePtr := rfl
@[simp] theorem State.setIresult_seq (s : State) (v : Word) : (s.setIresult v).seq = s.seq := rfl
@[simp] theorem State.setIresult_mem (s : State) (v : Word) : (s.setIresult v).mem = s.mem := rfl
@[simp] theorem State.setIresult_err (s : State) (v : Word) : (s.setIresult v).err = s.err := rfl
@[simp] theorem State.setIresult_passThrough (s : State) (v : Word) : (s.setIresult v).passThrough = s.passThrough := rfl
@[simp] theorem State.setIresult_data (s : State) (v : Word) : (s.setIresult v).data = s.data := rfl
@[simp] theorem State.setIresult_result (s : State) (v : Word) : (s.setIresult v).result = s.result := rfl
@[simp] theorem State.setIresult_idata (s : State) (v : Word) : (s.setIresult v).idata = s.idata := rfl
@[simp] theorem State.setIresult_iresult (s : State) (v : Word) : (s.setIresult v).iresult = v := rfl
@[simp] theorem State.setIresult_events (s : State) (v : Word) : (s.setIresult v).events = s.events := rfl
@[simp] theorem State.setIresult_readData (s : State) (v : Word) : (s.setIresult v).readData = s.readData := rfl

/-! ### `State.setEvents` -/

@[simp] theorem State.setEvents_cfg (s : State) (v : List Event) : (s.setEvents v).cfg = s.cfg := rfl
@[simp] theorem State.setEvents_readPtr (s : State) (v : List Event) : (s.setEvents v).readPtr = s.readPtr := rfl
@[simp] theorem State.setEvents_processReadPtr (s : State) (v : List Event) : (s.setEvents v).processReadPtr = s.processReadPtr := rfl
@[simp] theorem State.setEvents_writePtr (s : State) (v : List Event) : (s.setEvents v).writePtr = s.writePtr := rfl
@[simp] theorem State.setEvents_processWritePtr (s : State) (v : List Event) : (s.setEvents v).processWritePtr = s.processWritePtr := rfl
@[simp] theorem State.setEvents_seq (s : State) (v : List Event) : (s.setEvents v).seq = s.seq := rfl
@[simp] theorem State.setEvents_mem (s : State) (v : List Event) : (s.setEvents v).mem = s.mem := rfl
@[simp] theorem State.setEvents_err (s : State) (v : List Event) : (s.setEvents v).err = s.err := rfl
@[simp] theorem State.setEvents_passThrough (s : State) (v : List Event) : (s.setEvents v).passThrough = s.passThrough := rfl
@[simp] theorem State.setEvents_data (s : State) (v : List Event) : (s.setEvents v).data = s.data := rfl
@[simp] theorem State.setEvents_result (s : State) (v : List Event) : (s.setEvents v).result = s.result := rfl
@[simp] theorem State.setEvents_idata (s : State) (v : List Event) : (s.setEvents v).idata = s.idata := rfl
@[simp] theorem State.setEvents_iresult (s : State) (v : List Event) : (s.setEvents v).iresult = s.iresult := rfl
@[simp] theorem State.setEvents_events (s : State) (v : List Event) : (s.setEvents v).events = v := rfl
@[simp] theorem State.setEvents_readData (s : State) (v : List Event) : (s.setEvents v).readData = s.readData := rfl

/-! ### `State.setReadData` -/

@[simp] theorem State.setReadData_cfg (s : State) (v : Option Word) : (s.setReadData v).cfg = s.cfg := rfl
@[simp] theorem State.setReadData_readPtr (s : State) (v : Option Word) : (s.setReadData v).readPtr = s.readPtr := rfl
@[simp] theorem State.setReadData_processReadPtr (s : State) (v : Option Word) : (s.setReadData v).processReadPtr = s.processReadPtr := rfl
@[simp] theorem State.setReadData_writePtr (s : State) (v : Option Word) : (s.setReadData v).writePtr = s.writePtr := rfl
@[simp] theorem State.setReadData_processWritePtr (s : State) (v : Option Word) : (s.setReadData v).processWritePtr = s.processWritePtr := rfl
@[simp] theorem State.setReadData_seq (s : State) (v : Option Word) : (s.setReadData v).seq = s.seq := rfl
@[simp] theorem State.setReadData_mem (s : State) (v : Option Word) : (s.setReadData v).mem = s.mem := rfl
@[simp] theorem State.setReadData_err (s : State) (v : Option Word) : (s.setReadData v).err = s.err := rfl
@[simp] theorem State.setReadData_passThrough (s : State) (v : Option Word) : (s.setReadData v).passThrough = s.passThrough := rfl
@[simp] theorem State.setReadData_data (s : State) (v : Option Word) : (s.setReadData v).data = s.data := rfl
@[simp] theorem State.setReadData_result (s : State) (v : Option Word) : (s.setReadData v).result = s.result := rfl
@[simp] theorem State.setReadData_idata (s : State) (v : Option Word) : (s.setReadData v).idata = s.idata := rfl
@[simp] theorem State.setReadData_iresult (s : State) (v : Option Word) : (s.setReadData v).iresult = s.iresult := rfl
@[simp] theorem State.setReadData_events (s : State) (v : Option Word) : (s.setReadData v).events = s.events := rfl
@[simp] theorem State.setReadData_readData (s : State) (v : Option Word) : (s.setReadData v).readData = v := rfl

end Sys2Proof.Machine
end

