-- ==== Sys2Proof/Laws/Memory.lean ====
section
/-! SUPPORT. Memory: read after write for windows and hop slots, what each operation leaves alone, and that
every operation keeps the canonical form. -/

namespace Sys2Proof.Machine

/-! ### The windows of memory -/

/-- A window held in memory: every one but the two coefficient windows, which are configuration. -/
def inMemory (w : Window) : Bool := w != .dcoef && w != .icoef

theorem mem_allWindows (w : Window) : w ∈ allWindows := by cases w <;> decide

@[simp] theorem Memory.get_put (m : Memory) (w w' : Window) (l : List Word) :
    (m.put w l).get w' = if w' = w ∧ inMemory w then l else m.get w' := by
  cases w <;> cases w' <;> rfl

@[simp] theorem Memory.slots_put (m : Memory) (w : Window) (l : List Word) (b : HopBuffer) :
    (m.put w l).slots b = m.slots b := by cases w <;> cases b <;> rfl

@[simp] theorem Memory.get_putSlots (m : Memory) (b : HopBuffer) (v : List (List Word)) (w : Window) :
    (m.putSlots b v).get w = m.get w := by cases w <;> cases b <;> rfl

@[simp] theorem Memory.slots_putSlots (m : Memory) (b b' : HopBuffer) (v : List (List Word)) :
    (m.putSlots b v).slots b' = if b' = b then v else m.slots b' := by cases b <;> cases b' <;> rfl

/-- Memories with equal windows and equal slots are equal. -/
theorem Memory.ext_windows {m n : Memory} (hw : ∀ w, m.get w = n.get w) (hb : ∀ b, m.slots b = n.slots b) :
    m = n := by
  cases m; cases n
  simp only [Memory.mk.injEq]
  exact ⟨hb .capbuf, hb .playbuf, hw .nin, hw .nout, hw .mhi, hw .mho, hw .ddl, hw .idl, hw .aframe, hw .spec,
    hw .mag, hw .mask, hw .tframe, hw .sframe, hw .acc, hw .stateA, hw .stateB, hw .capwin, hw .playwin⟩

/-! ### The state's windows -/

theorem State.win_eq (s : State) (w : Window) :
    s.win w = if w = .dcoef then s.cfg.dcoef else if w = .icoef then s.cfg.icoef else s.mem.get w := by
  cases w <;> rfl

@[simp] theorem State.win_dcoef (s : State) : s.win .dcoef = s.cfg.dcoef := rfl
@[simp] theorem State.win_icoef (s : State) : s.win .icoef = s.cfg.icoef := rfl

theorem State.win_of_inMemory (s : State) {w : Window} (h : inMemory w = true) : s.win w = s.mem.get w := by
  cases w <;> first | rfl | cases h

/-- A window is read from memory and the configuration alone. -/
theorem State.win_congr {s t : State} (hc : t.cfg = s.cfg) (hm : t.mem = s.mem) (w : Window) :
    t.win w = s.win w := by
  rw [State.win_eq, State.win_eq, hc, hm]

@[simp] theorem State.putWin_cfg (s : State) (w : Window) (l : List Word) : (s.putWin w l).cfg = s.cfg := rfl
@[simp] theorem State.putWin_readPtr (s : State) (w : Window) (l : List Word) :
    (s.putWin w l).readPtr = s.readPtr := rfl
@[simp] theorem State.putWin_processReadPtr (s : State) (w : Window) (l : List Word) :
    (s.putWin w l).processReadPtr = s.processReadPtr := rfl
@[simp] theorem State.putWin_writePtr (s : State) (w : Window) (l : List Word) :
    (s.putWin w l).writePtr = s.writePtr := rfl
@[simp] theorem State.putWin_processWritePtr (s : State) (w : Window) (l : List Word) :
    (s.putWin w l).processWritePtr = s.processWritePtr := rfl
@[simp] theorem State.putWin_seq (s : State) (w : Window) (l : List Word) : (s.putWin w l).seq = s.seq := rfl
@[simp] theorem State.putWin_mem (s : State) (w : Window) (l : List Word) :
    (s.putWin w l).mem = s.mem.put w l := rfl
@[simp] theorem State.putWin_err (s : State) (w : Window) (l : List Word) : (s.putWin w l).err = s.err := rfl
@[simp] theorem State.putWin_passThrough (s : State) (w : Window) (l : List Word) :
    (s.putWin w l).passThrough = s.passThrough := rfl
@[simp] theorem State.putWin_data (s : State) (w : Window) (l : List Word) : (s.putWin w l).data = s.data := rfl
@[simp] theorem State.putWin_result (s : State) (w : Window) (l : List Word) :
    (s.putWin w l).result = s.result := rfl
@[simp] theorem State.putWin_idata (s : State) (w : Window) (l : List Word) : (s.putWin w l).idata = s.idata := rfl
@[simp] theorem State.putWin_iresult (s : State) (w : Window) (l : List Word) :
    (s.putWin w l).iresult = s.iresult := rfl
@[simp] theorem State.putWin_events (s : State) (w : Window) (l : List Word) :
    (s.putWin w l).events = s.events := rfl
@[simp] theorem State.putWin_readData (s : State) (w : Window) (l : List Word) :
    (s.putWin w l).readData = s.readData := rfl

/-- Read after write, and the frame, of a whole window. -/
@[simp] theorem State.win_putWin (s : State) (w w' : Window) (l : List Word) :
    (s.putWin w l).win w' = if w' = w ∧ inMemory w then l else s.win w' := by
  cases w <;> cases w' <;> rfl

@[simp] theorem State.win_setReadPtr (s : State) (v : Nat) (w : Window) : (s.setReadPtr v).win w = s.win w := by
  cases w <;> rfl
@[simp] theorem State.win_setProcessReadPtr (s : State) (v : Nat) (w : Window) :
    (s.setProcessReadPtr v).win w = s.win w := by cases w <;> rfl
@[simp] theorem State.win_setWritePtr (s : State) (v : Nat) (w : Window) : (s.setWritePtr v).win w = s.win w := by
  cases w <;> rfl
@[simp] theorem State.win_setProcessWritePtr (s : State) (v : Nat) (w : Window) :
    (s.setProcessWritePtr v).win w = s.win w := by cases w <;> rfl
@[simp] theorem State.win_setSeq (s : State) (v : SeqState) (w : Window) : (s.setSeq v).win w = s.win w := by
  cases w <;> rfl
@[simp] theorem State.win_setErr (s : State) (v : Word) (w : Window) : (s.setErr v).win w = s.win w := by
  cases w <;> rfl
@[simp] theorem State.win_setPassThrough (s : State) (v : Bool) (w : Window) :
    (s.setPassThrough v).win w = s.win w := by cases w <;> rfl
@[simp] theorem State.win_setData (s : State) (v : Word) (w : Window) : (s.setData v).win w = s.win w := by
  cases w <;> rfl
@[simp] theorem State.win_setResultReg (s : State) (v : Word) (w : Window) :
    (s.setResultReg v).win w = s.win w := by cases w <;> rfl
@[simp] theorem State.win_setIdata (s : State) (v : Word) (w : Window) : (s.setIdata v).win w = s.win w := by
  cases w <;> rfl
@[simp] theorem State.win_setIresult (s : State) (v : Word) (w : Window) : (s.setIresult v).win w = s.win w := by
  cases w <;> rfl
@[simp] theorem State.win_setEvents (s : State) (v : List Event) (w : Window) :
    (s.setEvents v).win w = s.win w := by cases w <;> rfl
@[simp] theorem State.win_setReadData (s : State) (v : Option Word) (w : Window) :
    (s.setReadData v).win w = s.win w := by cases w <;> rfl

/-! ### One element -/

/-- Elements are read from memory and the configuration alone. -/
theorem State.peek_congr {s t : State} (hc : t.cfg = s.cfg) (hm : t.mem = s.mem) (l : Loc) : t.peek l = s.peek l := by
  cases l with
  | win w i => simp only [State.peek, hc, State.win_congr hc hm]
  | slot b j i => simp only [State.peek, State.slotElem, hc, hm]

@[simp] theorem State.peek_setResultReg (s : State) (v : Word) (l : Loc) : (s.setResultReg v).peek l = s.peek l :=
  State.peek_congr rfl rfl l
@[simp] theorem State.peek_setSeq (s : State) (v : SeqState) (l : Loc) : (s.setSeq v).peek l = s.peek l :=
  State.peek_congr rfl rfl l

theorem State.peek_win (s : State) (w : Window) (i : Nat) :
    s.peek (.win w i) = if i < windowLen s.cfg w then some (elem (s.win w) i) else none := rfl

theorem State.peek_slot (s : State) (b : HopBuffer) (j i : Nat) :
    s.peek (.slot b j i) = if j < s.cfg.numHops ∧ i < nhop s.cfg then some (s.slotElem b j i) else none := rfl

/-- What a write of a whole window does to one element. -/
theorem State.peek_putWin (s : State) (w : Window) (l : List Word) (loc : Loc) :
    (s.putWin w l).peek loc =
      match loc with
      | .win w' i =>
        if w' = w ∧ inMemory w then (if i < windowLen s.cfg w then some (elem l i) else none)
        else s.peek (.win w' i)
      | .slot b j i => s.peek (.slot b j i) := by
  cases loc with
  | win w' i =>
    simp only [State.peek, State.putWin_cfg, State.win_putWin]
    by_cases h : w' = w ∧ inMemory w = true
    · simp only [h, if_true, and_self]
    · simp only [if_neg h]
  | slot b j i => simp [State.peek, State.slotElem]

/-- A write of a whole window leaves every element outside the window. -/
theorem State.peek_putWin_of_not_mem (s : State) {w : Window} (l : List Word) {loc : Loc}
    (h : ∀ i, loc ≠ .win w i) : (s.putWin w l).peek loc = s.peek loc := by
  rw [State.peek_putWin]
  cases loc with
  | win w' i =>
    have : w' ≠ w := fun e => h i (by rw [e])
    simp [this]
  | slot b j i => rfl

/-- What a write of one element does to one element. -/
theorem State.peek_storeWin (s : State) {w : Window} (hw : inMemory w = true) (idx : Nat) (v : Word) (loc : Loc) :
    (s.storeWin w idx v).peek loc =
      if loc = .win w idx ∧ idx < windowLen s.cfg w then some v else s.peek loc := by
  rw [State.storeWin, State.peek_putWin]
  cases loc with
  | slot b j i => simp
  | win w' i =>
    by_cases hw' : w' = w
    · subst hw'
      by_cases hi : i < windowLen s.cfg w'
      · by_cases he : i = idx
        · subst he; simp [hw, hi, elem_store]
        · simp [hw, hi, elem_store, he, State.peek]
      · by_cases he : i = idx
        · subst he; simp [hw, hi, State.peek]
        · simp [hw, hi, he, State.peek]
    · simp [hw']

theorem State.readSlot_length (s : State) (b : HopBuffer) (index : Nat) :
    (s.readSlot b index).length = nhop s.cfg := by simp [State.readSlot]

/-- A slot is read from memory and the configuration alone. -/
theorem State.readSlot_congr {s t : State} (hc : t.cfg = s.cfg) {b : HopBuffer}
    (hm : t.mem.slots b = s.mem.slots b) (index : Nat) : t.readSlot b index = s.readSlot b index := by
  rw [State.readSlot, State.readSlot, hc]
  exact tabulate_congr fun i _ => by rw [State.slotElem, State.slotElem, hm]

@[simp] theorem State.writeSlot_cfg (s : State) (b : HopBuffer) (k : Nat) (hop : List Word) :
    (s.writeSlot b k hop).cfg = s.cfg := rfl
@[simp] theorem State.writeSlot_readPtr (s : State) (b : HopBuffer) (k : Nat) (hop : List Word) :
    (s.writeSlot b k hop).readPtr = s.readPtr := rfl
@[simp] theorem State.writeSlot_processReadPtr (s : State) (b : HopBuffer) (k : Nat) (hop : List Word) :
    (s.writeSlot b k hop).processReadPtr = s.processReadPtr := rfl
@[simp] theorem State.writeSlot_writePtr (s : State) (b : HopBuffer) (k : Nat) (hop : List Word) :
    (s.writeSlot b k hop).writePtr = s.writePtr := rfl
@[simp] theorem State.writeSlot_processWritePtr (s : State) (b : HopBuffer) (k : Nat) (hop : List Word) :
    (s.writeSlot b k hop).processWritePtr = s.processWritePtr := rfl
@[simp] theorem State.writeSlot_seq (s : State) (b : HopBuffer) (k : Nat) (hop : List Word) :
    (s.writeSlot b k hop).seq = s.seq := rfl
@[simp] theorem State.writeSlot_err (s : State) (b : HopBuffer) (k : Nat) (hop : List Word) :
    (s.writeSlot b k hop).err = s.err := rfl
@[simp] theorem State.writeSlot_passThrough (s : State) (b : HopBuffer) (k : Nat) (hop : List Word) :
    (s.writeSlot b k hop).passThrough = s.passThrough := rfl
@[simp] theorem State.writeSlot_data (s : State) (b : HopBuffer) (k : Nat) (hop : List Word) :
    (s.writeSlot b k hop).data = s.data := rfl
@[simp] theorem State.writeSlot_result (s : State) (b : HopBuffer) (k : Nat) (hop : List Word) :
    (s.writeSlot b k hop).result = s.result := rfl
@[simp] theorem State.writeSlot_idata (s : State) (b : HopBuffer) (k : Nat) (hop : List Word) :
    (s.writeSlot b k hop).idata = s.idata := rfl
@[simp] theorem State.writeSlot_iresult (s : State) (b : HopBuffer) (k : Nat) (hop : List Word) :
    (s.writeSlot b k hop).iresult = s.iresult := rfl
@[simp] theorem State.writeSlot_events (s : State) (b : HopBuffer) (k : Nat) (hop : List Word) :
    (s.writeSlot b k hop).events = s.events := rfl
@[simp] theorem State.writeSlot_readData (s : State) (b : HopBuffer) (k : Nat) (hop : List Word) :
    (s.writeSlot b k hop).readData = s.readData := rfl

/-- A slot write leaves every window. -/
@[simp] theorem State.win_writeSlot (s : State) (b : HopBuffer) (k : Nat) (hop : List Word) (w : Window) :
    (s.writeSlot b k hop).win w = s.win w := by
  cases w <;> cases b <;> rfl

/-- What a slot write does to one element of the hop buffers. -/
theorem State.slotElem_writeSlot (s : State) (b b' : HopBuffer) (k j i : Nat) (hop : List Word)
    (hj : j < s.cfg.numHops) (hi : i < nhop s.cfg) :
    (s.writeSlot b k hop).slotElem b' j i =
      if b' = b ∧ j = slotOf s.cfg k then elem hop i else s.slotElem b' j i := by
  simp only [State.writeSlot, State.slotElem, State.setMem_mem, Memory.slots_putSlots]
  by_cases hb : b' = b
  · subst hb
    simp only [if_true, getD_tabulate, hj, true_and]
    split
    · exact elem_fit_of_lt hop hi
    · rfl
  · simp [hb]

/-- What a slot write does to one element. -/
theorem State.peek_writeSlot (s : State) (b : HopBuffer) (k : Nat) (hop : List Word) (loc : Loc) :
    (s.writeSlot b k hop).peek loc =
      match loc with
      | .win w i => s.peek (.win w i)
      | .slot b' j i =>
        if (b' = b ∧ j = slotOf s.cfg k) ∧ j < s.cfg.numHops ∧ i < nhop s.cfg then some (elem hop i)
        else s.peek (.slot b' j i) := by
  cases loc with
  | win w i => simp [State.peek]
  | slot b' j i =>
    by_cases hr : j < s.cfg.numHops ∧ i < nhop s.cfg
    · simp only [State.peek, State.writeSlot_cfg, hr, and_true, and_self, if_true,
        State.slotElem_writeSlot s b b' k j i hop hr.1 hr.2]
      split <;> rfl
    · simp [State.peek, hr]

/-! ### The canonical form -/

/-- The canonical form, window by window and slot by slot. -/
theorem Memory.wf_iff (c : Cfg) (m : Memory) :
    m.wf c = true ↔
      (∀ w, inMemory w = true → (m.get w).length = windowLen c w) ∧
      ∀ b, (m.slots b).length = c.numHops ∧ ∀ l ∈ m.slots b, l.length = nhop c := by
  simp only [Memory.wf, Bool.and_eq_true, List.all_eq_true, Bool.or_eq_true, beq_iff_eq]
  constructor
  · rintro ⟨⟨⟨⟨hw, h1⟩, h2⟩, h3⟩, h4⟩
    refine ⟨fun w hm => ?_, fun b => ?_⟩
    · rcases hw w (mem_allWindows w) with (h | h) | h
      · subst h; cases hm
      · subst h; cases hm
      · exact h
    · cases b
      · exact ⟨h1, h2⟩
      · exact ⟨h3, h4⟩
  · rintro ⟨hw, hb⟩
    refine ⟨⟨⟨⟨fun w _ => ?_, (hb .capbuf).1⟩, (hb .capbuf).2⟩, (hb .playbuf).1⟩, (hb .playbuf).2⟩
    by_cases h : inMemory w = true
    · exact .inr (hw w h)
    · left
      cases w <;> simp [inMemory] at h ⊢

/-- Memory after reset is in canonical form. -/
theorem Memory.zero_wf (c : Cfg) : (Memory.zero c).wf c = true := by
  rw [Memory.wf_iff]
  refine ⟨fun w hw => ?_, fun b => ?_⟩
  · cases w <;> first | exact List.length_replicate | exact absurd hw (by decide)
  · cases b <;> simp [Memory.zero, Memory.slots, zeros]

/-- Writing a whole window of the right length keeps the canonical form. -/
theorem Memory.put_wf {c : Cfg} {m : Memory} (h : m.wf c = true) {w : Window} {l : List Word}
    (hl : l.length = windowLen c w) : (m.put w l).wf c = true := by
  rw [Memory.wf_iff] at *
  refine ⟨fun w' hw' => ?_, fun b => by simpa using h.2 b⟩
  rw [Memory.get_put]
  split
  · next he => rw [he.1, hl]
  · exact h.1 w' hw'

/-- Writing one element keeps the canonical form. -/
theorem State.storeWin_wf {s : State} (h : s.mem.wf s.cfg = true) (w : Window) (idx : Nat) (v : Word) :
    (s.storeWin w idx v).mem.wf s.cfg = true := Memory.put_wf h (by simp)

/-- Writing a slot keeps the canonical form. -/
theorem State.writeSlot_wf {s : State} (h : s.mem.wf s.cfg = true) (b : HopBuffer) (k : Nat) (hop : List Word) :
    (s.writeSlot b k hop).mem.wf s.cfg = true := by
  rw [Memory.wf_iff] at *
  refine ⟨fun w hw => by simpa [State.writeSlot] using h.1 w hw, fun b' => ?_⟩
  by_cases hb : b' = b
  · subst hb
    simp only [State.writeSlot, State.setMem_mem, Memory.slots_putSlots, if_true, length_tabulate, true_and]
    intro l hl
    obtain ⟨j, hj, rfl⟩ := mem_tabulate.mp hl
    split
    · simp
    · have hlen := (h.2 b').1
      have hj' : j < (s.mem.slots b').length := by omega
      have : (s.mem.slots b').getD j [] ∈ s.mem.slots b' := by simp [List.getD, hj']
      exact (h.2 b').2 _ this
  · simpa [State.writeSlot, hb] using h.2 b'

/-- In canonical form every window has the length the configuration gives it. -/
theorem State.win_length {s : State} (h : s.mem.wf s.cfg = true) {w : Window} (hw : inMemory w = true) :
    (s.win w).length = windowLen s.cfg w := by
  rw [State.win_of_inMemory s hw]
  exact ((Memory.wf_iff _ _).mp h).1 w hw

/-- Two states whose memories are in canonical form and whose elements agree have equal memories. -/
theorem Memory.eq_of_peek {s t : State} (hc : t.cfg = s.cfg) (hs : s.mem.wf s.cfg = true)
    (ht : t.mem.wf t.cfg = true) (h : ∀ l, t.peek l = s.peek l) : t.mem = s.mem := by
  have ws := (Memory.wf_iff _ _).mp hs
  have wt := (Memory.wf_iff _ _).mp ht
  rw [hc] at wt
  apply Memory.ext_windows
  · intro w
    by_cases hw : inMemory w = true
    · have ls := ws.1 w hw
      have lt := wt.1 w hw
      apply eq_of_elem (by omega)
      intro i hi
      have := h (.win w i)
      rw [lt] at hi
      simpa [State.peek, hc, hi, State.win_of_inMemory _ hw] using this
    · cases w <;> first | rfl | exact absurd rfl hw
  · intro b
    have ls := ws.2 b
    have lt := wt.2 b
    apply List.ext_getElem (by omega)
    intro j h1 h2
    have e1 : ((t.mem.slots b)[j]).length = nhop s.cfg := lt.2 _ (List.getElem_mem h1)
    have e2 : ((s.mem.slots b)[j]).length = nhop s.cfg := ls.2 _ (List.getElem_mem h2)
    apply eq_of_elem (by omega)
    intro i hi
    have := h (.slot b j i)
    simpa [State.peek, State.slotElem, hc, ← lt.1, ← ls.1, h1, h2, e1 ▸ hi, List.getD, show i < nhop s.cfg by omega,
      show j < s.cfg.numHops by omega] using this

end Sys2Proof.Machine
end

