-- ==== Sys2Proof/Laws/Ops.lean ====
section
/-! SUPPORT. Each shared operation, said once: result codes, faults, the halt, admission of window commands. -/

namespace Sys2Proof.Machine

/-! ### Result codes -/

theorem returnCode_M (code : ResultCode) (s : State) :
    returnCode .M code s = { s with result := codeWord code } := rfl
theorem returnCode_I (code : ResultCode) (s : State) :
    returnCode .I code s = { s with iresult := codeWord code } := rfl
theorem returnCode_M_eq_setResultReg (code : ResultCode) (s : State) :
    returnCode .M code s = s.setResultReg (codeWord code) := rfl
theorem refuse_eq (p : Agent) (code : ResultCode) (s : State) : refuse p code s = returnCode p code s := rfl

@[simp] theorem returnCode_cfg (p : Agent) (code : ResultCode) (s : State) :
    (returnCode p code s).cfg = s.cfg := by cases p <;> rfl
@[simp] theorem returnCode_readPtr (p : Agent) (code : ResultCode) (s : State) :
    (returnCode p code s).readPtr = s.readPtr := by cases p <;> rfl
@[simp] theorem returnCode_processReadPtr (p : Agent) (code : ResultCode) (s : State) :
    (returnCode p code s).processReadPtr = s.processReadPtr := by cases p <;> rfl
@[simp] theorem returnCode_writePtr (p : Agent) (code : ResultCode) (s : State) :
    (returnCode p code s).writePtr = s.writePtr := by cases p <;> rfl
@[simp] theorem returnCode_processWritePtr (p : Agent) (code : ResultCode) (s : State) :
    (returnCode p code s).processWritePtr = s.processWritePtr := by cases p <;> rfl
@[simp] theorem returnCode_seq (p : Agent) (code : ResultCode) (s : State) :
    (returnCode p code s).seq = s.seq := by cases p <;> rfl
@[simp] theorem returnCode_mem (p : Agent) (code : ResultCode) (s : State) :
    (returnCode p code s).mem = s.mem := by cases p <;> rfl
@[simp] theorem returnCode_err (p : Agent) (code : ResultCode) (s : State) :
    (returnCode p code s).err = s.err := by cases p <;> rfl
@[simp] theorem returnCode_passThrough (p : Agent) (code : ResultCode) (s : State) :
    (returnCode p code s).passThrough = s.passThrough := by cases p <;> rfl
@[simp] theorem returnCode_data (p : Agent) (code : ResultCode) (s : State) :
    (returnCode p code s).data = s.data := by cases p <;> rfl
@[simp] theorem returnCode_idata (p : Agent) (code : ResultCode) (s : State) :
    (returnCode p code s).idata = s.idata := by cases p <;> rfl
@[simp] theorem returnCode_events (p : Agent) (code : ResultCode) (s : State) :
    (returnCode p code s).events = s.events := by cases p <;> rfl
@[simp] theorem returnCode_readData (p : Agent) (code : ResultCode) (s : State) :
    (returnCode p code s).readData = s.readData := by cases p <;> rfl
@[simp] theorem returnCode_M_result (code : ResultCode) (s : State) :
    (returnCode .M code s).result = codeWord code := rfl
@[simp] theorem returnCode_M_iresult (code : ResultCode) (s : State) :
    (returnCode .M code s).iresult = s.iresult := rfl
@[simp] theorem returnCode_I_result (code : ResultCode) (s : State) :
    (returnCode .I code s).result = s.result := rfl
@[simp] theorem returnCode_I_iresult (code : ResultCode) (s : State) :
    (returnCode .I code s).iresult = codeWord code := rfl
@[simp] theorem returnCode_win (p : Agent) (code : ResultCode) (s : State) (w : Window) :
    (returnCode p code s).win w = s.win w := State.win_congr (by simp) (by simp) w
@[simp] theorem returnCode_peek (p : Agent) (code : ResultCode) (s : State) (l : Loc) :
    (returnCode p code s).peek l = s.peek l := State.peek_congr (by simp) (by simp) l

/-- The ten codes are ten words (30_encoding.md R100). -/
theorem codeWord_injective {c d : ResultCode} (h : codeWord c = codeWord d) : c = d := by
  revert h; cases c <;> cases d <;> decide

/-! ### Faults and the halt -/

theorem raiseFault_M (f : Fault) (s : State) :
    raiseFault .M f s = { s with err := s.err ||| errBit f, result := codeWord (faultCode f) } := rfl
theorem raiseFault_I (f : Fault) (s : State) :
    raiseFault .I f s = { s with err := s.err ||| errBit f, iresult := codeWord (faultCode f) } := rfl

@[simp] theorem raiseFault_cfg (p : Agent) (f : Fault) (s : State) :
    (raiseFault p f s).cfg = s.cfg := by cases p <;> rfl
@[simp] theorem raiseFault_readPtr (p : Agent) (f : Fault) (s : State) :
    (raiseFault p f s).readPtr = s.readPtr := by cases p <;> rfl
@[simp] theorem raiseFault_processReadPtr (p : Agent) (f : Fault) (s : State) :
    (raiseFault p f s).processReadPtr = s.processReadPtr := by cases p <;> rfl
@[simp] theorem raiseFault_writePtr (p : Agent) (f : Fault) (s : State) :
    (raiseFault p f s).writePtr = s.writePtr := by cases p <;> rfl
@[simp] theorem raiseFault_processWritePtr (p : Agent) (f : Fault) (s : State) :
    (raiseFault p f s).processWritePtr = s.processWritePtr := by cases p <;> rfl
@[simp] theorem raiseFault_seq (p : Agent) (f : Fault) (s : State) :
    (raiseFault p f s).seq = s.seq := by cases p <;> rfl
@[simp] theorem raiseFault_mem (p : Agent) (f : Fault) (s : State) :
    (raiseFault p f s).mem = s.mem := by cases p <;> rfl
@[simp] theorem raiseFault_passThrough (p : Agent) (f : Fault) (s : State) :
    (raiseFault p f s).passThrough = s.passThrough := by cases p <;> rfl
@[simp] theorem raiseFault_data (p : Agent) (f : Fault) (s : State) :
    (raiseFault p f s).data = s.data := by cases p <;> rfl
@[simp] theorem raiseFault_idata (p : Agent) (f : Fault) (s : State) :
    (raiseFault p f s).idata = s.idata := by cases p <;> rfl
@[simp] theorem raiseFault_events (p : Agent) (f : Fault) (s : State) :
    (raiseFault p f s).events = s.events := by cases p <;> rfl
@[simp] theorem raiseFault_readData (p : Agent) (f : Fault) (s : State) :
    (raiseFault p f s).readData = s.readData := by cases p <;> rfl
@[simp] theorem raiseFault_err (p : Agent) (f : Fault) (s : State) :
    (raiseFault p f s).err = s.err ||| errBit f := by cases p <;> rfl
@[simp] theorem raiseFault_M_result (f : Fault) (s : State) :
    (raiseFault .M f s).result = codeWord (faultCode f) := rfl
@[simp] theorem raiseFault_M_iresult (f : Fault) (s : State) : (raiseFault .M f s).iresult = s.iresult := rfl
@[simp] theorem raiseFault_I_result (f : Fault) (s : State) : (raiseFault .I f s).result = s.result := rfl
@[simp] theorem raiseFault_I_iresult (f : Fault) (s : State) :
    (raiseFault .I f s).iresult = codeWord (faultCode f) := rfl
@[simp] theorem raiseFault_win (p : Agent) (f : Fault) (s : State) (w : Window) :
    (raiseFault p f s).win w = s.win w := State.win_congr (by simp) (by simp) w
@[simp] theorem raiseFault_peek (p : Agent) (f : Fault) (s : State) (l : Loc) :
    (raiseFault p f s).peek l = s.peek l := State.peek_congr (by simp) (by simp) l

theorem halted_iff (s : State) : halted s = true ↔ s.err ≠ 0 := by simp [halted]

/-- A running block runs the command. -/
theorem unlessHalted_running {s : State} (h : s.err = 0) (p : Agent) (f : State → State) :
    unlessHalted p s f = f s := by simp [unlessHalted, halted, h]

/-- A halted block refuses the command. -/
theorem unlessHalted_halted {s : State} (h : s.err ≠ 0) (p : Agent) (f : State → State) :
    unlessHalted p s f = returnCode p .halted s := by
  rw [unlessHalted, if_pos ((halted_iff s).mpr h), refuse_eq]

/-- What a command under the halt check can do: refuse in a halted block, run in a running one. -/
theorem unlessHalted_cases (p : Agent) (s : State) (f : State → State) :
    (s.err ≠ 0 ∧ unlessHalted p s f = returnCode p .halted s) ∨ (s.err = 0 ∧ unlessHalted p s f = f s) := by
  by_cases h : s.err = 0
  · exact .inr ⟨h, unlessHalted_running h p f⟩
  · exact .inl ⟨h, unlessHalted_halted h p f⟩

/-- The way out of a halt: the reset state, but for the model's own fields. -/
theorem resetBlock_eq (s : State) :
    resetBlock s = { State.resetOf s.cfg with events := s.events, readData := s.readData } := rfl

/-! ### The data register of a port -/

theorem setPortData_M (v : Word) (s : State) : setPortData .M v s = { s with data := v } := rfl
theorem setPortData_I (v : Word) (s : State) : setPortData .I v s = { s with idata := v } := rfl
theorem portData_M (s : State) : portData .M s = s.data := rfl
theorem portData_I (s : State) : portData .I s = s.idata := rfl

/-! ### Window ids and admission -/

theorem windowId_lt (w : Window) : windowId w < 256 := by cases w <;> decide

theorem windowId_injective {v w : Window} (h : windowId v = windowId w) : v = w := by
  revert h; cases v <;> cases w <;> decide

/-- An id names the window that has it (10_state.md R24). -/
theorem windowOfId_eq_some {a : Nat} {w : Window} : windowOfId a = some w ↔ windowId w = a := by
  constructor
  · intro h
    simpa using List.find?_some h
  · rintro rfl
    cases w <;> rfl

theorem windowOfId_eq_none {a : Nat} : windowOfId a = none ↔ ∀ w, windowId w ≠ a := by
  constructor
  · intro h w hw
    rw [windowOfId_eq_some.mpr hw] at h
    cases h
  · intro h
    cases e : windowOfId a with
    | none => rfl
    | some w => exact absurd (windowOfId_eq_some.mp e) (h w)

/-- An id that names no window is out of range. -/
theorem admitWindow_unknown {a : Nat} (h : ∀ w, windowId w ≠ a) (p : Agent) (isWrite : Bool) (c : Cfg) (idx : Nat) :
    admitWindow p isWrite c a idx = .error .range := by
  simp [admitWindow, windowOfId_eq_none.mpr h]

/-- Admission of an access to a window, by its index, its owner and its rights. -/
theorem admitWindow_id (w : Window) (p : Agent) (isWrite : Bool) (c : Cfg) (idx : Nat) :
    admitWindow p isWrite c (windowId w) idx =
      if windowLen c w ≤ idx then .error .range
      else if windowOwner w ≠ p then .error .perm
      else if isWrite && !windowWritable w then .error .perm
      else .ok w := by
  rw [admitWindow, windowOfId_eq_some.mpr rfl]

/-- What admission lets through. -/
theorem admitWindow_ok {p : Agent} {isWrite : Bool} {c : Cfg} {a idx : Nat} {w : Window}
    (h : admitWindow p isWrite c a idx = .ok w) :
    windowId w = a ∧ idx < windowLen c w ∧ windowOwner w = p ∧ (isWrite = true → windowWritable w = true) := by
  cases e : windowOfId a with
  | none => rw [admitWindow, e] at h; cases h
  | some v =>
    have hv := windowOfId_eq_some.mp e
    subst hv
    rw [admitWindow_id] at h
    split at h <;> try cases h
    split at h <;> try cases h
    split at h <;> try cases h
    next h1 h2 h3 =>
      refine ⟨rfl, by omega, by simpa using h2, fun hw => ?_⟩
      simpa [hw] using h3

/-- Admission refuses with `E_RANGE` or `E_PERM` only. -/
theorem admitWindow_error {p : Agent} {isWrite : Bool} {c : Cfg} {a idx : Nat} {code : ResultCode}
    (h : admitWindow p isWrite c a idx = .error code) : code = .range ∨ code = .perm := by
  unfold admitWindow at h
  split at h
  · cases h; exact .inl rfl
  · split at h
    · cases h; exact .inl rfl
    · split at h
      · cases h; exact .inr rfl
      · split at h
        · cases h; exact .inr rfl
        · cases h

/-- A window a write command may reach is held in memory. -/
theorem inMemory_of_writable {w : Window} (h : windowWritable w = true) : inMemory w = true := by
  cases w <;> first | rfl | cases h

end Sys2Proof.Machine
end

