-- ==== Sys2Proof/Laws/Exec.lean ====
section
/-! SUPPORT. The commands: each answers a next state; a running block runs the body of the command; each body
writes memory in the windows named here and nothing else. -/

namespace Sys2Proof.Machine

/-- No command stops the machine. -/
theorem exec_next (i : Instr) (s : State) : ∃ t, exec i s = .next t := by
  cases i <;> exact ⟨_, rfl⟩

/-- A running block runs the command; a halted one runs four commands and refuses the rest. -/
theorem exec_running {s : State} (h : s.err = 0) :
    exec .capPop s = .next (capPop s) ∧ exec .playPush s = .next (playPush s) ∧
    exec .rsDec s = .next ((rsDecBody s).setResultReg 0) ∧
    exec .rsInt s = .next ((rsIntBody s).setResultReg 0) ∧
    exec .frmPush s = .next ((frmPushBody s).setResultReg 0) ∧
    exec .fftAnalyze s = .next ((fftAnalyzeBody s).setResultReg 0) ∧
    exec .fftMsyn s = .next ((fftMsynBody s).setResultReg 0) ∧
    (∀ sel, exec (.olaAcc sel) s = .next ((olaAccBody (olaSource sel) s).setResultReg 0)) ∧
    exec .olaEmit s = .next ((olaEmitBody s).setResultReg 0) ∧ exec .seqStep s = .next (seqStep s) ∧
    (∀ win idx, exec (.bufWr win idx) s = .next (windowWrite .M win idx s)) ∧
    exec .capPush s = .next (capPush s) ∧ exec .playPop s = .next (playPop s) ∧
    ∀ win idx, exec (.iwinWr win idx) s = .next (windowWrite .I win idx s) := by
  have hu : ∀ p f, unlessHalted p s f = f s := unlessHalted_running h
  refine ⟨?_, ?_, ?_, ?_, ?_, ?_, ?_, fun sel => ?_, ?_, ?_, fun win idx => ?_, ?_, ?_, fun win idx => ?_⟩
  · rw [exec, execCapPop, hu]
  · rw [exec, execPlayPush, hu]
  · rw [exec, execRsDec, hu]; rfl
  · rw [exec, execRsInt, hu]; rfl
  · rw [exec, execFrmPush, hu]; rfl
  · rw [exec, execFftAnalyze, hu]; rfl
  · rw [exec, execFftMsyn, hu]; rfl
  · rw [exec, execOlaAcc, hu]; rfl
  · rw [exec, execOlaEmit, hu]; rfl
  · rw [exec, execSeqStep, hu]
  · rw [exec, execBufWr, hu]
  · rw [exec, execCapPush, hu]
  · rw [exec, execPlayPop, hu]
  · rw [exec, execIwinWr, hu]

/-- The result code a halted block answers every command but four with (60_exceptions.md R247). -/
theorem exec_halted {i : Instr} (hi : runsWhileHalted i = false) {s : State} (h : s.err ≠ 0) :
    exec i s = .next (returnCode i.port .halted s) := by
  have hu : ∀ p f, unlessHalted p s f = returnCode p .halted s := unlessHalted_halted h
  cases i <;> first
    | exact congrArg Host.Outcome.next (hu _ _)
    | cases hi

/-! ### What a produce must pass -/

/-- Index overflow comes before overrun (40_hopbuffer.md R130). -/
theorem produceFault_cases (c : Cfg) (overrun : Fault) (w r : Nat) :
    (w = maxIndex c ∧ produceFault c overrun w r = some .indexOverflow) ∨
    (w ≠ maxIndex c ∧ c.numHops ≤ w - r ∧ produceFault c overrun w r = some overrun) ∨
    (w ≠ maxIndex c ∧ w - r < c.numHops ∧ produceFault c overrun w r = none) := by
  by_cases h1 : w = maxIndex c
  · exact .inl ⟨h1, by simp [produceFault, h1]⟩
  · by_cases h2 : c.numHops ≤ w - r
    · exact .inr (.inl ⟨h1, h2, by simp [produceFault, h1, h2]⟩)
    · exact .inr (.inr ⟨h1, by omega, by simp [produceFault, h1, h2]⟩)

/-! ### Every way a hop or window command can end -/

theorem capPush_cases (s : State) :
    (s.readPtr = maxIndex s.cfg ∧ capPush s = raiseFault .I .indexOverflow s) ∨
    (s.readPtr ≠ maxIndex s.cfg ∧ s.cfg.numHops ≤ s.readPtr - s.processReadPtr ∧
      capPush s = raiseFault .I .captureOverrun s) ∨
    (s.readPtr ≠ maxIndex s.cfg ∧ s.readPtr - s.processReadPtr < s.cfg.numHops ∧
      capPush s = returnCode .I .ok (capPushBody s)) := by
  rcases produceFault_cases s.cfg .captureOverrun s.readPtr s.processReadPtr with
    ⟨h1, h⟩ | ⟨h1, h2, h⟩ | ⟨h1, h2, h⟩
  · exact .inl ⟨h1, by rw [capPush, h]⟩
  · exact .inr (.inl ⟨h1, h2, by rw [capPush, h]⟩)
  · exact .inr (.inr ⟨h1, h2, by rw [capPush, h]⟩)

theorem playPush_cases (s : State) :
    (s.processWritePtr = maxIndex s.cfg ∧ playPush s = raiseFault .M .indexOverflow s) ∨
    (s.processWritePtr ≠ maxIndex s.cfg ∧ s.cfg.numHops ≤ s.processWritePtr - s.writePtr ∧
      playPush s = raiseFault .M .playbackOverrun s) ∨
    (s.processWritePtr ≠ maxIndex s.cfg ∧ s.processWritePtr - s.writePtr < s.cfg.numHops ∧
      playPush s = returnCode .M .ok (playPushBody s)) := by
  rcases produceFault_cases s.cfg .playbackOverrun s.processWritePtr s.writePtr with
    ⟨h1, h⟩ | ⟨h1, h2, h⟩ | ⟨h1, h2, h⟩
  · exact .inl ⟨h1, by rw [playPush, h]⟩
  · exact .inr (.inl ⟨h1, h2, by rw [playPush, h]⟩)
  · exact .inr (.inr ⟨h1, h2, by rw [playPush, h]⟩)

theorem capPop_cases (s : State) :
    (s.readPtr ≤ s.processReadPtr ∧ capPop s = returnCode .M .empty s) ∨
    (s.processReadPtr < s.readPtr ∧ capPop s = returnCode .M .ok (capPopBody s)) := by
  by_cases h : s.processReadPtr < s.readPtr
  · exact .inr ⟨h, if_pos h⟩
  · exact .inl ⟨by omega, if_neg h⟩

theorem playPop_cases (s : State) :
    (s.processWritePtr ≤ s.writePtr ∧ playPop s = returnCode .I .empty s) ∨
    (s.writePtr < s.processWritePtr ∧ playPop s = returnCode .I .ok (playPopBody s)) := by
  by_cases h : s.writePtr < s.processWritePtr
  · exact .inr ⟨h, if_pos h⟩
  · exact .inl ⟨by omega, if_neg h⟩

theorem windowRead_cases (p : Agent) (win idx : Nat) (s : State) :
    (∃ code, (code = .range ∨ code = .perm) ∧ windowRead p win idx s = returnCode p code s) ∨
    ∃ w, windowId w = win ∧ idx < windowLen s.cfg w ∧ windowOwner w = p ∧
      windowRead p win idx s = returnCode p .ok (setPortData p (elem (s.win w) idx) s) := by
  cases e : admitWindow p false s.cfg win idx with
  | error code => exact .inl ⟨code, admitWindow_error e, by rw [windowRead, e]; rfl⟩
  | ok w =>
    obtain ⟨h1, h2, h3, -⟩ := admitWindow_ok e
    exact .inr ⟨w, h1, h2, h3, by rw [windowRead, e]⟩

theorem windowWrite_cases (p : Agent) (win idx : Nat) (s : State) :
    (∃ code, (code = .range ∨ code = .perm) ∧ windowWrite p win idx s = returnCode p code s) ∨
    ∃ w, windowId w = win ∧ idx < windowLen s.cfg w ∧ windowOwner w = p ∧ windowWritable w = true ∧
      windowWrite p win idx s = returnCode p .ok (s.storeWin w idx (portData p s)) := by
  cases e : admitWindow p true s.cfg win idx with
  | error code => exact .inl ⟨code, admitWindow_error e, by rw [windowWrite, e]; rfl⟩
  | ok w =>
    obtain ⟨h1, h2, h3, h4⟩ := admitWindow_ok e
    exact .inr ⟨w, h1, h2, h3, h4 rfl, by rw [windowWrite, e]⟩

/-! ### The frame of each body -/

theorem sameOutside_putWin (s : State) (w : Window) (l : List Word) {ws : List Window} (h : w ∈ ws) :
    SameOutside (fun loc => loc.inWindows ws) s (s.putWin w l) := by
  intro loc hloc
  apply State.peek_putWin_of_not_mem
  rintro i rfl
  exact hloc h

theorem SameOutside.trans {p : Loc → Prop} {s t u : State} (h1 : SameOutside p s t) (h2 : SameOutside p t u) :
    SameOutside p s u := fun l hl => (h2 l hl).trans (h1 l hl)

theorem SameOutside.mono {p q : Loc → Prop} {s t : State} (h : SameOutside p s t) (hpq : ∀ l, p l → q l) :
    SameOutside q s t := fun l hl => h l fun hp => hl (hpq l hp)

/-- Setting a field that is neither memory nor configuration leaves every element. -/
theorem SameOutside.of_eq {p : Loc → Prop} {s t : State} (hc : t.cfg = s.cfg) (hm : t.mem = s.mem) :
    SameOutside p s t := fun l _ => State.peek_congr hc hm l

theorem rsDecBody_eq (s : State) : rsDecBody s = { s with mem := (rsDecBody s).mem } := rfl
theorem rsIntBody_eq (s : State) : rsIntBody s = { s with mem := (rsIntBody s).mem } := rfl
theorem frmPushBody_eq (s : State) : frmPushBody s = { s with mem := (frmPushBody s).mem } := rfl
theorem fftAnalyzeBody_eq (s : State) : fftAnalyzeBody s = { s with mem := (fftAnalyzeBody s).mem } := rfl
theorem fftMsynBody_eq (s : State) : fftMsynBody s = { s with mem := (fftMsynBody s).mem } := rfl
theorem olaAccBody_eq (src : Window) (s : State) :
    olaAccBody src s = { s with mem := (olaAccBody src s).mem } := rfl
theorem olaEmitBody_eq (s : State) : olaEmitBody s = { s with mem := (olaEmitBody s).mem } := rfl
theorem capPopBody_eq (s : State) :
    capPopBody s = { s with mem := (capPopBody s).mem, processReadPtr := s.processReadPtr + 1 } := rfl
theorem capPushBody_eq (s : State) :
    capPushBody s = { s with mem := (capPushBody s).mem, readPtr := s.readPtr + 1 } := rfl
theorem playPushBody_eq (s : State) :
    playPushBody s = { s with mem := (playPushBody s).mem, processWritePtr := s.processWritePtr + 1 } := rfl
theorem playPopBody_eq (s : State) :
    playPopBody s = { s with mem := (playPopBody s).mem, writePtr := s.writePtr + 1 } := rfl

theorem rsDecBody_frame (s : State) : SameOutside (fun l => l.inWindows [.mhi, .ddl]) s (rsDecBody s) :=
  (sameOutside_putWin _ _ _ (by simp)).trans (sameOutside_putWin _ _ _ (by simp))

theorem rsIntBody_frame (s : State) : SameOutside (fun l => l.inWindows [.nout, .idl]) s (rsIntBody s) :=
  (sameOutside_putWin _ _ _ (by simp)).trans (sameOutside_putWin _ _ _ (by simp))

theorem frmPushBody_frame (s : State) : SameOutside (fun l => l.inWindows [.aframe]) s (frmPushBody s) :=
  sameOutside_putWin _ _ _ (by simp)

theorem fftAnalyzeBody_frame (s : State) : SameOutside (fun l => l.inWindows [.spec, .mag]) s (fftAnalyzeBody s) :=
  (sameOutside_putWin _ _ _ (by simp)).trans (sameOutside_putWin _ _ _ (by simp))

theorem fftMsynBody_frame (s : State) : SameOutside (fun l => l.inWindows [.tframe]) s (fftMsynBody s) :=
  sameOutside_putWin _ _ _ (by simp)

theorem olaAccBody_frame (src : Window) (s : State) :
    SameOutside (fun l => l.inWindows [.acc]) s (olaAccBody src s) := sameOutside_putWin _ _ _ (by simp)

theorem olaEmitBody_frame (s : State) : SameOutside (fun l => l.inWindows [.mho, .acc]) s (olaEmitBody s) :=
  (sameOutside_putWin _ _ _ (by simp)).trans (sameOutside_putWin _ _ _ (by simp))

theorem capPopBody_frame (s : State) : SameOutside (fun l => l.inWindows [.nin]) s (capPopBody s) :=
  (sameOutside_putWin s .nin _ (by simp)).trans (SameOutside.of_eq rfl rfl)

theorem playPopBody_frame (s : State) : SameOutside (fun l => l.inWindows [.playwin]) s (playPopBody s) :=
  (sameOutside_putWin s .playwin _ (by simp)).trans (SameOutside.of_eq rfl rfl)

/-- A slot write leaves every element outside the slot. -/
theorem sameOutside_writeSlot (s : State) (b : HopBuffer) (k : Nat) (hop : List Word) :
    SameOutside (fun l => l.inSlot s.cfg b k) s (s.writeSlot b k hop) := by
  intro l hl
  rw [State.peek_writeSlot]
  cases l with
  | win w i => rfl
  | slot b' j i => exact if_neg fun h => hl h.1

theorem capPushBody_frame (s : State) :
    SameOutside (fun l => l.inSlot s.cfg .capbuf s.readPtr) s (capPushBody s) :=
  (sameOutside_writeSlot _ _ _ _).trans (SameOutside.of_eq rfl rfl)

theorem playPushBody_frame (s : State) :
    SameOutside (fun l => l.inSlot s.cfg .playbuf s.processWritePtr) s (playPushBody s) :=
  (sameOutside_writeSlot _ _ _ _).trans (SameOutside.of_eq rfl rfl)

/-- Writing a result register leaves every element. -/
theorem SameOutside.setResultReg {p : Loc → Prop} {s t : State} (h : SameOutside p s t) (v : Word) :
    SameOutside p s (t.setResultReg v) := h.trans (SameOutside.of_eq rfl rfl)

/-! ### Bodies that look past the sequencer state

The bodies read and write neither `SEQ` nor a result register, so they commute with writing them. -/

theorem rsDecBody_setSeq (s : State) (v : SeqState) : rsDecBody (s.setSeq v) = (rsDecBody s).setSeq v := rfl
theorem rsIntBody_setSeq (s : State) (v : SeqState) : rsIntBody (s.setSeq v) = (rsIntBody s).setSeq v := rfl
theorem frmPushBody_setSeq (s : State) (v : SeqState) : frmPushBody (s.setSeq v) = (frmPushBody s).setSeq v := rfl
theorem fftAnalyzeBody_setSeq (s : State) (v : SeqState) :
    fftAnalyzeBody (s.setSeq v) = (fftAnalyzeBody s).setSeq v := rfl
theorem fftMsynBody_setSeq (s : State) (v : SeqState) : fftMsynBody (s.setSeq v) = (fftMsynBody s).setSeq v := rfl
theorem olaEmitBody_setSeq (s : State) (v : SeqState) : olaEmitBody (s.setSeq v) = (olaEmitBody s).setSeq v := rfl
theorem olaAccBody_setSeq (src : Window) (s : State) (v : SeqState) :
    olaAccBody src (s.setSeq v) = (olaAccBody src s).setSeq v := by cases src <;> rfl
theorem capPopBody_setSeq (s : State) (v : SeqState) : capPopBody (s.setSeq v) = (capPopBody s).setSeq v := rfl
theorem playPushBody_setSeq (s : State) (v : SeqState) : playPushBody (s.setSeq v) = (playPushBody s).setSeq v := rfl

theorem rsDecBody_setResultReg (s : State) (v : Word) :
    rsDecBody (s.setResultReg v) = (rsDecBody s).setResultReg v := rfl
theorem rsIntBody_setResultReg (s : State) (v : Word) :
    rsIntBody (s.setResultReg v) = (rsIntBody s).setResultReg v := rfl
theorem frmPushBody_setResultReg (s : State) (v : Word) :
    frmPushBody (s.setResultReg v) = (frmPushBody s).setResultReg v := rfl
theorem fftAnalyzeBody_setResultReg (s : State) (v : Word) :
    fftAnalyzeBody (s.setResultReg v) = (fftAnalyzeBody s).setResultReg v := rfl
theorem fftMsynBody_setResultReg (s : State) (v : Word) :
    fftMsynBody (s.setResultReg v) = (fftMsynBody s).setResultReg v := rfl
theorem olaEmitBody_setResultReg (s : State) (v : Word) :
    olaEmitBody (s.setResultReg v) = (olaEmitBody s).setResultReg v := rfl
theorem capPopBody_setResultReg (s : State) (v : Word) :
    capPopBody (s.setResultReg v) = (capPopBody s).setResultReg v := rfl
theorem playPushBody_setResultReg (s : State) (v : Word) :
    playPushBody (s.setResultReg v) = (playPushBody s).setResultReg v := rfl
theorem olaAccBody_setResultReg (src : Window) (s : State) (v : Word) :
    olaAccBody src (s.setResultReg v) = (olaAccBody src s).setResultReg v := by cases src <;> rfl
theorem State.putWin_setResultReg (s : State) (v : Word) (w : Window) (l : List Word) :
    (s.setResultReg v).putWin w l = (s.putWin w l).setResultReg v := rfl
theorem State.putWin_setSeq (s : State) (v : SeqState) (w : Window) (l : List Word) :
    (s.setSeq v).putWin w l = (s.putWin w l).setSeq v := rfl

theorem setResultReg_setResultReg (s : State) (v w : Word) :
    (s.setResultReg v).setResultReg w = s.setResultReg w := rfl

theorem setSeq_setSeq (s : State) (v w : SeqState) : (s.setSeq v).setSeq w = s.setSeq w := rfl

/-- The first three states of a step are three commands' bodies, `SEQ` apart. -/
theorem seqFront_eq (s : State) : seqFront s = (frmPushBody (rsDecBody (capPopBody s))).setSeq .framing := rfl

end Sys2Proof.Machine
end

