-- ==== Sys2Proof/Laws/Bus.lean ====
section
/-! SUPPORT. The register space: which register an access reaches, and that the bus write of a command word
issues it. -/

namespace Sys2Proof.Machine

/-- An offset reaches the register that has it (10_state.md R36). -/
theorem regAt_eq_some {off : Nat} {r : Reg} : regAt off = some r ↔ regOffset r = off := by
  constructor
  · intro h
    simpa using List.find?_some h
  · rintro rfl
    cases r <;> rfl

theorem regAt_eq_none {off : Nat} : regAt off = none ↔ ∀ r, regOffset r ≠ off := by
  constructor
  · intro h r hr
    rw [regAt_eq_some.mpr hr] at h
    cases h
  · intro h
    cases e : regAt off with
    | none => rfl
    | some r => exact absurd (regAt_eq_some.mp e) (h r)

/-- The aligned offsets of the block that name no register (10_state.md R45). -/
theorem regAt_reserved {off : Nat} (h4 : off % 4 = 0) (h : off < 0x80) :
    regAt off = none ↔ off ∈ [0x2C, 0x3C, 0x68, 0x6C, 0x70, 0x74, 0x78, 0x7C] := by
  have all : ∀ o < 0x80, o % 4 = 0 → (regAt o = none ↔ o ∈ [0x2C, 0x3C, 0x68, 0x6C, 0x70, 0x74, 0x78, 0x7C]) := by
    decide +kernel
  exact all off h h4

/-- When an access reaches a register (20_memory.md R63, R66). -/
theorem accessReg_ok {c : Cfg} {addr bits : Nat} {r : Reg} :
    accessReg c addr bits = .ok r ↔
      bits = 32 ∧ addr % 4 = 0 ∧ c.base ≤ addr ∧ addr < c.base + 0x80 ∧ regOffset r = addr - c.base := by
  unfold accessReg
  split
  · next h => simp [h]
  · split
    · next h => simp [h]
    · split
      · next h =>
        constructor
        · intro hh
          cases hh
        · rintro ⟨_, _, _, _, _⟩
          omega
      · split
        · next h => simp [regAt_eq_none.mp h r]
        · next r' h =>
          have hr' := regAt_eq_some.mp h
          constructor
          · intro hh
            cases hh
            exact ⟨by omega, by omega, by omega, by omega, hr'⟩
          · rintro ⟨_, _, _, _, hr⟩
            rw [regAt_eq_some.mpr hr] at h
            cases h
            rfl

/-- When an access reaches no register. -/
theorem accessReg_error {c : Cfg} {addr bits : Nat} :
    (∃ cause, accessReg c addr bits = .error cause) ↔
      ¬(bits = 32 ∧ addr % 4 = 0 ∧ c.base ≤ addr ∧ addr < c.base + 0x80 ∧ ∃ r, regOffset r = addr - c.base) := by
  constructor
  · rintro ⟨cause, hc⟩ ⟨h1, h2, h3, h4, r, hr⟩
    rw [accessReg_ok.mpr ⟨h1, h2, h3, h4, hr⟩] at hc
    cases hc
  · intro h
    cases e : accessReg c addr bits with
    | error cause => exact ⟨cause, rfl⟩
    | ok r =>
      have ⟨h1, h2, h3, h4, hr⟩ := accessReg_ok.mp e
      exact absurd ⟨h1, h2, h3, h4, r, hr⟩ h

/-- `BASE` is a multiple of 128 (20_memory.md R68). -/
theorem base_aligned {c : Cfg} (hv : cfgValid c = true) : c.base % 128 = 0 := by
  simp only [cfgValid, Bool.and_eq_true, decide_eq_true_eq] at hv
  tauto

/-- The bus write of a command word to a port issues the word there (30_encoding.md R90). -/
theorem perform_commandWrite {s : State} (hv : cfgValid s.cfg = true) (p : Agent) (w : Word) :
    perform (commandWrite s.cfg p w) s = issue p w s := by
  have hb := base_aligned hv
  have hacc : ∀ r : Reg, regOffset r % 4 = 0 → regOffset r < 0x80 →
      accessReg s.cfg (s.cfg.base + regOffset r) 32 = .ok r := fun r h4 h =>
    accessReg_ok.mpr ⟨rfl, by omega, by omega, by omega, by omega⟩
  cases p
  · simp only [perform, commandWrite, busWrite, hacc .icmd (by decide) (by decide)]
    rfl
  · simp only [perform, commandWrite, busWrite, hacc .cmd (by decide) (by decide)]
    rfl

/-- A legal configuration lets the next event happen. -/
theorem step_cons {s : State} (hv : cfgValid s.cfg = true) {e : Event} {rest : List Event}
    (he : s.events = e :: rest) : step s = perform e (s.setEvents rest) := by
  simp only [step, advance, hv, he, if_true]

/-- With no event waiting the block waits. -/
theorem step_nil {s : State} (hv : cfgValid s.cfg = true) (he : s.events = []) : step s = .next s := by
  simp only [step, advance, hv, he, if_true]

/-- What one step can do: nothing, or its first event; nothing else ends in a next state. -/
theorem step_cases {s t : State} (h : step s = .next t) :
    cfgValid s.cfg = true ∧
      ((s.events = [] ∧ t = s) ∨ ∃ e rest, s.events = e :: rest ∧ perform e (s.setEvents rest) = .next t) := by
  by_cases hv : cfgValid s.cfg = true
  · refine ⟨hv, ?_⟩
    cases he : s.events with
    | nil =>
      rw [step_nil hv he] at h
      cases h
      exact .inl ⟨rfl, rfl⟩
    | cons e rest =>
      rw [step_cons hv he] at h
      exact .inr ⟨e, rest, rfl, h⟩
  · simp [step, advance, hv] at h

/-- What an event that happens can do: a read delivers, a write of a port's data register stores, a command is
issued, the mode bit is flipped, the block is reset. -/
theorem perform_cases {e : Event} {s t : State} (h : perform e s = .next t) :
    (∃ v, t = s.setReadData v) ∨ (∃ p v, t = setPortData p v s) ∨ (∃ p w, issue p w s = .next t) ∨
      t = s.setPassThrough (!s.passThrough) ∨ t = resetBlock s := by
  cases e with
  | read p addr bits =>
    simp only [perform, busRead] at h
    split at h
    · cases h
    · split at h
      · cases h
        exact .inl ⟨_, rfl⟩
      · cases h
  | write p addr bits v =>
    simp only [perform, busWrite] at h
    split at h
    · cases h
    · split at h
      · unfold writeReg at h
        split at h
        · exact .inr (.inr (.inl ⟨_, _, h⟩))
        · exact .inr (.inr (.inl ⟨_, _, h⟩))
        · cases h
          exact .inr (.inl ⟨_, _, rfl⟩)
      · cases h
  | toggle =>
    cases h
    exact .inr (.inr (.inr (.inl rfl)))
  | reset =>
    cases h
    exact .inr (.inr (.inr (.inr rfl)))

/-- What an issued word can do: it is illegal or on the wrong port and is refused, or it is a command and runs. -/
theorem issue_cases {p : Agent} {w : Word} {s t : State} (h : issue p w s = .next t) :
    (∃ e, decode w = .error e ∧ t = returnCode p .illegal s) ∨
    (∃ i, decode w = .ok i ∧ i.port ≠ p ∧ t = returnCode p .perm s) ∨
    ∃ i, decode w = .ok i ∧ i.port = p ∧ exec i s = .next t := by
  unfold issue at h
  split at h
  · next e he =>
    cases h
    exact .inl ⟨e, he, rfl⟩
  · next i hi =>
    split at h
    · next hp => exact .inr (.inr ⟨i, hi, hp, h⟩)
    · next hp =>
      cases h
      exact .inr (.inl ⟨i, hi, hp, rfl⟩)

end Sys2Proof.Machine
end

