-- ==== Sys2Proof/Laws/Codec.lean ====
section
/-! SUPPORT. The fields of a command word and the bytes of a word. -/

namespace Sys2Proof

/-- `op` of a packed word (30_encoding.md R92). -/
theorem opField_packWord {op : Nat} (a idx : Nat) (ho : op < 256) :
    opField (packWord op a idx) = op := by
  simp [opField, packWord, BitVec.extractLsb, BitVec.extractLsb', Nat.shiftRight_eq_div_pow]
  omega

/-- `a` of a packed word (30_encoding.md R92). -/
theorem aField_packWord {op a : Nat} (idx : Nat) (ho : op < 256) (ha : a < 256) :
    aField (packWord op a idx) = a := by
  simp [aField, packWord, BitVec.extractLsb, BitVec.extractLsb', Nat.shiftRight_eq_div_pow]
  omega

/-- `idx` of a packed word (30_encoding.md R92). -/
theorem idxField_packWord {op a idx : Nat} (ho : op < 256) (ha : a < 256) (hi : idx < 65536) :
    idxField (packWord op a idx) = idx := by
  simp [idxField, packWord, BitVec.extractLsb, BitVec.extractLsb', Nat.shiftRight_eq_div_pow]
  omega

theorem opField_lt (w : Word) : opField w < 256 := (w.extractLsb 7 0).isLt
theorem aField_lt (w : Word) : aField w < 256 := (w.extractLsb 15 8).isLt
theorem idxField_lt (w : Word) : idxField w < 65536 := (w.extractLsb 31 16).isLt

/-- A word is the packing of its three fields: no bit lies outside them (30_encoding.md R92). -/
theorem packWord_fields (w : Word) : packWord (opField w) (aField w) (idxField w) = w := by
  apply BitVec.eq_of_toNat_eq
  have := w.isLt
  simp [packWord, opField, aField, idxField, BitVec.extractLsb, BitVec.extractLsb', Nat.shiftRight_eq_div_pow]
  omega

/-- A word from its own bytes (20_memory.md R62). -/
theorem wordOfBytes_bytesOfWord (w : Word) : wordOfBytes (bytesOfWord w) = some w := by
  simp only [wordOfBytes, bytesOfWord, Option.some.injEq]
  apply BitVec.eq_of_getLsbD_eq
  intro i hi
  have e1 : ∀ k, k ≤ i → k + (i - k) = i := fun k h => by omega
  simp only [BitVec.getLsbD_append, BitVec.getLsbD_extractLsb]
  split
  · next h => rw [Nat.zero_add, decide_eq_true h, Bool.true_and]
  · split
    · next h1 h2 => rw [e1 _ (by omega), decide_eq_true (by omega), Bool.true_and]
    · split
      · next h1 h2 h3 =>
        rw [Nat.sub_sub, e1 _ (by omega), decide_eq_true (by omega), Bool.true_and]
      · next h1 h2 h3 =>
        rw [Nat.sub_sub, Nat.sub_sub, e1 _ (by omega), decide_eq_true (by omega), Bool.true_and]

end Sys2Proof
end

