-- ==== Sys2Proof/Laws/Geometry.lean ====
section
/-! SUPPORT. What a legal configuration gives, constraint by constraint (00_scope.md R6; log 7). -/

namespace Sys2Proof.Machine

/-- The constraints `cfgValid` checks, by name. -/
structure Legal (c : Cfg) : Prop where
  ratio : 1 ≤ c.ratio
  hopSize : 1 ≤ c.hopSize
  frameSize : c.frameSize = c.fftSize
  even : c.fftSize % 2 = 0
  fftSize : 2 ≤ c.fftSize
  hopDivides : c.frameSize % c.hopSize = 0
  numHops : 1 ≤ c.numHops
  decTaps : 1 ≤ c.decTaps
  intTaps : 1 ≤ c.intTaps
  counters : c.numHops < 2 ^ c.idxBits
  hop : nhop c ≤ 65536
  windows : ∀ w, windowLen c w ≤ 65536
  magScale : isPositiveFinite c.magScale = true
  ifftScale : isPositiveFinite c.ifftScale = true
  dcoef : c.dcoef.length = c.decTaps
  icoef : c.icoef.length = c.intTaps
  twc : c.twc.length = c.fftSize
  tws : c.tws.length = c.fftSize
  twcFinite : ∀ a ∈ c.twc, isFinite a = true
  twsFinite : ∀ a ∈ c.tws, isFinite a = true
  base : c.base % 128 = 0
  idxBits : c.idxBits ≤ 32

theorem allWindows_complete (w : Window) : w ∈ allWindows := by cases w <;> decide

theorem legal_of_cfgValid {c : Cfg} (hv : cfgValid c = true) : Legal c := by
  simp only [cfgValid, Bool.and_eq_true, decide_eq_true_eq, List.all_eq_true] at hv
  obtain ⟨h1, h2, h3, h4, h5, h6, h7, h8, h9, h10, h11, h12, h13, h14, h15, h16, h17, h18, h19, h20, h21, h22, _⟩ := hv
  exact ⟨h1, h2, h3, h4, h5, h6, h7, h8, h9, h10, h11, fun w => h12 w (allWindows_complete w), h13, h14, h15, h16,
    h17, h18, h19, h20, h21, h22⟩

/-- A hop is no longer than a frame. -/
theorem Legal.hop_le_frame {c : Cfg} (h : Legal c) : c.hopSize ≤ c.frameSize :=
  Nat.le_of_dvd (by have := h.frameSize; have := h.fftSize; omega) (Nat.dvd_of_mod_eq_zero h.hopDivides)

end Sys2Proof.Machine
end

