-- ==== Sys2Proof/Laws/Sums.lean ====
section
/-! SUPPORT. Ordered sums (00_scope.md R13). -/

namespace Sys2Proof.Machine

@[simp] theorem fsumFrom_zero (c : Cfg) (a : F32) (t : Nat → F32) : fsumFrom c a 0 t = a := List.foldl_nil

theorem fsumFrom_succ (c : Cfg) (a : F32) (n : Nat) (t : Nat → F32) :
    fsumFrom c a (n + 1) t = fadd c (fsumFrom c a n t) (t n) := by
  rw [fsumFrom, List.range_succ, List.foldl_append, List.foldl_cons, List.foldl_nil, ← fsumFrom]

/-- The fold depends on its start and its terms alone. -/
theorem fsumFrom_congr {c : Cfg} {a : F32} {n : Nat} {t u : Nat → F32} (h : ∀ k < n, t k = u k) :
    fsumFrom c a n t = fsumFrom c a n u := by
  induction n with
  | zero => rw [fsumFrom_zero, fsumFrom_zero]
  | succ n ih => rw [fsumFrom_succ, fsumFrom_succ, ih fun k hk => h k (by omega), h n (by omega)]

@[simp] theorem fsum_zero (c : Cfg) (t : Nat → F32) : fsum c 0 t = 0 := fsumFrom_zero c 0 t

theorem fsum_succ (c : Cfg) (n : Nat) (t : Nat → F32) : fsum c (n + 1) t = fadd c (fsum c n t) (t n) :=
  fsumFrom_succ c 0 n t

/-- The sum depends on its terms alone. -/
theorem fsum_congr {c : Cfg} {n : Nat} {t u : Nat → F32} (h : ∀ k < n, t k = u k) : fsum c n t = fsum c n u :=
  fsumFrom_congr h

/-! The arithmetic depends on the choice of arithmetic alone. Rewrite with these lemmas where two configurations
agree on it: asking for the equality by `rfl` unfolds the arithmetic. -/

theorem fadd_cfg {c d : Cfg} (h : c.arith = d.arith) (a b : F32) : fadd c a b = fadd d a b := by rw [fadd, fadd, h]

theorem fmul_cfg {c d : Cfg} (h : c.arith = d.arith) (a b : F32) : fmul c a b = fmul d a b := by rw [fmul, fmul, h]

theorem fsum_cfg {c d : Cfg} (h : c.arith = d.arith) (n : Nat) (t : Nat → F32) : fsum c n t = fsum d n t := by
  induction n with
  | zero => rw [fsum_zero, fsum_zero]
  | succ n ih => rw [fsum_succ, fsum_succ, ih, fadd_cfg h]

end Sys2Proof.Machine
end

