-- ==== Sys2Proof/Laws/Float.lean ====
section
/-! SUPPORT. Binary32 patterns as sign, magnitude bits and units, and what rounding does. -/

namespace Sys2Proof.Machine

/-! ### Patterns -/

/-- The units of magnitude bits `m`: `magUnits` of a pattern whose bits 30 to 0 are `m`. -/
def magOf (m : Nat) : Nat := if m / 2 ^ 23 = 0 then m % 2 ^ 23 else (2 ^ 23 + m % 2 ^ 23) * 2 ^ (m / 2 ^ 23 - 1)

/-- Bits 30 to 0 of a pattern. -/
def magBits (a : F32) : Nat := expField a * 2 ^ 23 + fracField a

theorem expField_lt (a : F32) : expField a < 256 := (a.extractLsb 30 23).isLt
theorem fracField_lt (a : F32) : fracField a < 2 ^ 23 := (a.extractLsb 22 0).isLt

theorem expField_eq (a : F32) : expField a = a.toNat / 2 ^ 23 % 256 := by
  simp [expField, BitVec.extractLsb, BitVec.extractLsb', Nat.shiftRight_eq_div_pow]

theorem fracField_eq (a : F32) : fracField a = a.toNat % 2 ^ 23 := by
  simp [fracField, BitVec.extractLsb, BitVec.extractLsb', Nat.shiftRight_eq_div_pow]

theorem signBit_eq (a : F32) : signBit a = decide (2 ^ 31 ≤ a.toNat) := by
  simp [signBit, BitVec.msb_eq_decide]

theorem toNat_withSign {s : Bool} {m : Nat} (h : m < 2 ^ 31) :
    (withSign s m).toNat = if s then 2 ^ 31 + m else m := by
  cases s <;> simp [withSign] <;> omega

theorem signBit_withSign {s : Bool} {m : Nat} (h : m < 2 ^ 31) : signBit (withSign s m) = s := by
  rw [signBit_eq, toNat_withSign h]
  cases s
  · simp
    omega
  · simp

theorem expField_withSign {s : Bool} {m : Nat} (h : m < 2 ^ 31) : expField (withSign s m) = m / 2 ^ 23 := by
  rw [expField_eq, toNat_withSign h]
  cases s <;> simp <;> omega

theorem fracField_withSign {s : Bool} {m : Nat} (h : m < 2 ^ 31) : fracField (withSign s m) = m % 2 ^ 23 := by
  rw [fracField_eq, toNat_withSign h]
  cases s
  · simp
  · simp
    omega

theorem magUnits_withSign {s : Bool} {m : Nat} (h : m < 2 ^ 31) : magUnits (withSign s m) = magOf m := by
  rw [magUnits, magOf, expField_withSign h, fracField_withSign h]

/-- A pattern is finite when its magnitude bits lie below those of infinity. -/
theorem isFinite_withSign {s : Bool} {m : Nat} (h : m ≤ 255 * 2 ^ 23) :
    isFinite (withSign s m) = true ↔ m < 255 * 2 ^ 23 := by
  rw [isFinite, expField_withSign (by omega)]
  simp only [bne_iff_ne, ne_eq]
  omega

theorem magBits_lt (a : F32) : magBits a < 2 ^ 31 := by
  have := expField_lt a
  have := fracField_lt a
  unfold magBits
  omega

/-- Every pattern is its sign and its magnitude bits. -/
theorem withSign_magBits (a : F32) : withSign (signBit a) (magBits a) = a := by
  apply BitVec.eq_of_toNat_eq
  rw [toNat_withSign (magBits_lt a), signBit_eq, magBits, expField_eq, fracField_eq]
  have := a.isLt
  by_cases h : 2 ^ 31 ≤ a.toNat
  · rw [decide_eq_true h, if_pos rfl]
    omega
  · rw [decide_eq_false h, if_neg (by decide)]
    omega

theorem magUnits_eq_magOf (a : F32) : magUnits a = magOf (magBits a) := by
  conv_lhs => rw [← withSign_magBits a]
  exact magUnits_withSign (magBits_lt a)

/-! ### The spacing of the binary32 values -/

/-- Normal patterns and the two rounded-up cases: `r` units of `2^q`. -/
theorem magOf_normal {q r : Nat} (h1 : 2 ^ 23 ≤ r) (h2 : r ≤ 2 ^ 24) : magOf (q * 2 ^ 23 + r) = r * 2 ^ q := by
  by_cases h : r = 2 ^ 24
  · subst h
    have e : (q * 2 ^ 23 + 2 ^ 24) / 2 ^ 23 = q + 2 := by omega
    have f : (q * 2 ^ 23 + 2 ^ 24) % 2 ^ 23 = 0 := by omega
    rw [magOf, e, f, if_neg (by omega), show q + 2 - 1 = q + 1 by omega, pow_succ]
    ring
  · have e : (q * 2 ^ 23 + r) / 2 ^ 23 = q + 1 := by omega
    have f : (q * 2 ^ 23 + r) % 2 ^ 23 = r - 2 ^ 23 := by omega
    rw [magOf, e, f, if_neg (by omega), show q + 1 - 1 = q by omega, show 2 ^ 23 + (r - 2 ^ 23) = r by omega]

/-- Below `2^24` units every whole number of units is its own magnitude bits. -/
theorem magOf_small {r : Nat} (h : r ≤ 2 ^ 24) : magOf r = r := by
  by_cases h1 : 2 ^ 23 ≤ r
  · have := magOf_normal (q := 0) h1 h
    simpa using this
  · have e : r / 2 ^ 23 = 0 := by omega
    rw [magOf, e, if_pos rfl]
    omega

/-- A magnitude of `2^(23+q)` units or more is a multiple of `2^q` units. -/
theorem dvd_magOf {m q : Nat} (h : 2 ^ (23 + q) ≤ magOf m) : 2 ^ q ∣ magOf m := by
  unfold magOf at h ⊢
  split at h
  · next he =>
    rw [if_pos he]
    by_cases hq : q = 0
    · subst hq
      simp
    · have : m % 2 ^ 23 < 2 ^ 23 := Nat.mod_lt _ (by decide)
      have : 2 ^ 23 ≤ 2 ^ (23 + q) := Nat.pow_le_pow_right (by decide) (by omega)
      omega
  · next he =>
    rw [if_neg he]
    apply Dvd.dvd.mul_left
    apply pow_dvd_pow
    by_contra hc
    have h1 : (2 ^ 23 + m % 2 ^ 23) * 2 ^ (m / 2 ^ 23 - 1) < 2 ^ 24 * 2 ^ (m / 2 ^ 23 - 1) :=
      Nat.mul_lt_mul_of_pos_right (by omega) (Nat.pow_pos (by decide))
    have h2 : 2 ^ 24 * 2 ^ (m / 2 ^ 23 - 1) ≤ 2 ^ (23 + q) := by
      rw [← pow_add]
      exact Nat.pow_le_pow_right (by decide) (by omega)
    omega

/-- Magnitude bits order as their magnitudes do. -/
theorem magOf_lt_succ (m : Nat) : magOf m < magOf (m + 1) := by
  have hr := Nat.mod_lt m (show 0 < 2 ^ 23 by decide)
  by_cases h : m < 2 ^ 24
  · rw [magOf_small (by omega), magOf_small (by omega)]
    omega
  · obtain ⟨q, r, h1, h2, rfl⟩ : ∃ q r, 2 ^ 23 ≤ r ∧ r < 2 ^ 24 ∧ m = q * 2 ^ 23 + r :=
      ⟨m / 2 ^ 23 - 1, 2 ^ 23 + m % 2 ^ 23, by omega, by omega, by omega⟩
    rw [Nat.add_assoc, magOf_normal h1 (by omega), magOf_normal (by omega) (by omega)]
    exact Nat.mul_lt_mul_of_pos_right (by omega) (Nat.pow_pos (by decide))

theorem magOf_strictMono : StrictMono magOf := strictMono_nat_of_lt_succ magOf_lt_succ

/-- The grid point nearest to `v` on the grid of `2^q` units is nearest among all binary32 magnitudes, when the
grid is no coarser than the binary32 values at `v`; another one is as near only in a tie. -/
theorem nearest_of_grid {v : Real} {q r : Nat} (hr : |(r : Real) * 2 ^ q - v| ≤ 2 ^ q / 2)
    (hq : q = 0 ∨ (2 : Real) ^ (23 + q) ≤ v) (x : Nat) :
    |(r : Real) * 2 ^ q - v| ≤ |(magOf x : Real) - v| ∧
      (|(r : Real) * 2 ^ q - v| = |(magOf x : Real) - v| → magOf x ≠ r * 2 ^ q →
        |(r : Real) * 2 ^ q - v| = 2 ^ q / 2) := by
  have hpos : (0 : Real) < 2 ^ q := by positivity
  have grid : ∀ k : Nat, k ≠ r → (2 : Real) ^ q / 2 ≤ |(k : Real) * 2 ^ q - v| := by
    intro k hk
    have h1 : (1 : Real) ≤ |(k : Real) - r| := by
      have : (1 : Int) ≤ |(k : Int) - r| := by
        rcases Nat.lt_or_gt_of_ne hk with h | h
        · rw [abs_of_neg (by omega)]; omega
        · rw [abs_of_pos (by omega)]; omega
      exact_mod_cast this
    have h2 : |(k : Real) * 2 ^ q - r * 2 ^ q| = |(k : Real) - r| * 2 ^ q := by
      rw [← sub_mul, abs_mul, abs_of_pos hpos]
    have h3 := abs_sub_le ((k : Real) * 2 ^ q) v (r * 2 ^ q)
    rw [h2, abs_sub_comm v] at h3
    nlinarith
  by_cases hd : 2 ^ q ∣ magOf x
  · obtain ⟨k, hk⟩ := hd
    have hx : (magOf x : Real) = (k : Real) * 2 ^ q := by
      rw [hk]
      push_cast
      ring
    rw [hx]
    by_cases e : k = r
    · subst e
      exact ⟨le_refl _, fun _ hne => absurd (by rw [hk, Nat.mul_comm]) hne⟩
    · exact ⟨hr.trans (grid k e), fun heq _ => le_antisymm hr (heq ▸ grid k e)⟩
  · have hq0 : q ≠ 0 := by
      rintro rfl
      exact hd (by simp)
    have hv := hq.resolve_left hq0
    have hlt : magOf x < 2 ^ (23 + q) := by
      by_contra hc
      exact hd (dvd_magOf (by omega))
    have hx : (magOf x : Real) < 2 ^ (23 + q) := by exact_mod_cast hlt
    have near : |(r : Real) * 2 ^ q - v| ≤ |((2 ^ 23 : Nat) : Real) * 2 ^ q - v| := by
      by_cases e : 2 ^ 23 = r
      · rw [e]
      · exact hr.trans (grid _ e)
    have e : ((2 ^ 23 : Nat) : Real) * 2 ^ q = 2 ^ (23 + q) := by
      rw [pow_add]
      norm_num
    rw [e, abs_of_nonpos (by linarith : (2 : Real) ^ (23 + q) - v ≤ 0)] at near
    rw [abs_of_neg (by linarith : (magOf x : Real) - v < 0)]
    exact ⟨by linarith, fun heq => by linarith⟩

/-! ### Rounding -/

/-- `roundShift` is the nearest whole number, the even one in a tie. -/
theorem roundShift_spec (n s : Nat) :
    |(roundShift n s : Real) * 2 ^ s - n| ≤ 2 ^ s / 2 ∧
      (|(roundShift n s : Real) * 2 ^ s - n| = 2 ^ s / 2 → roundShift n s % 2 = 0) := by
  have hd : n = 2 ^ s * (n / 2 ^ s) + n % 2 ^ s := (Nat.div_add_mod n (2 ^ s)).symm
  have hlt : n % 2 ^ s < 2 ^ s := Nat.mod_lt _ (Nat.pow_pos (by decide))
  unfold roundShift
  generalize n / 2 ^ s = d at *
  generalize n % 2 ^ s = m at *
  have hn : (n : Real) = 2 ^ s * d + m := by
    rw [hd]
    push_cast
    ring
  have hltR : (m : Real) < 2 ^ s := by exact_mod_cast hlt
  have hm0 : (0 : Real) ≤ m := Nat.cast_nonneg m
  split
  · next h =>
    have e : (((d + 1 : Nat) : Real)) * 2 ^ s - n = 2 ^ s - m := by
      rw [hn]
      push_cast
      ring
    rw [e, abs_of_pos (by linarith)]
    rcases h with h | ⟨h, hodd⟩
    · have hR : (2 : Real) ^ s < 2 * m := by exact_mod_cast h
      exact ⟨by linarith, fun heq => by linarith⟩
    · have hR : (2 : Real) ^ s = 2 * m := by exact_mod_cast h
      exact ⟨by linarith, fun _ => by omega⟩
  · next h =>
    have e : (d : Real) * 2 ^ s - n = -m := by
      rw [hn]
      ring
    rw [e, abs_neg, abs_of_nonneg hm0]
    have h1 : 2 * m ≤ 2 ^ s := by omega
    have hR : 2 * (m : Real) ≤ 2 ^ s := by exact_mod_cast h1
    refine ⟨by linarith, fun heq => ?_⟩
    have h2 : (2 : Real) ^ s = 2 * m := by linarith
    have h3 : 2 ^ s = 2 * m := by exact_mod_cast h2
    omega

theorem lt_pow_bitLength (n : Nat) : n < 2 ^ bitLength n := by
  unfold bitLength
  split
  · omega
  · exact Nat.lt_log2_self

theorem pow_le_of_bitLength {n : Nat} (h : n ≠ 0) : 2 ^ (bitLength n - 1) ≤ n := by
  rw [bitLength, if_neg h, Nat.add_sub_cancel]
  exact Nat.log2_self_le h

/-- Rounding to a whole number cannot leave an interval with whole ends. -/
theorem roundShift_le {n s b : Nat} (h : n ≤ b * 2 ^ s) : roundShift n s ≤ b := by
  have hpos : 0 < 2 ^ s := Nat.pow_pos (by decide)
  have hd : n / 2 ^ s ≤ b := by
    calc n / 2 ^ s ≤ b * 2 ^ s / 2 ^ s := Nat.div_le_div_right h
      _ = b := Nat.mul_div_cancel _ hpos
  unfold roundShift
  split
  · next hc =>
    by_contra hb
    have he : n / 2 ^ s = b := by omega
    have := Nat.div_add_mod n (2 ^ s)
    rw [he, Nat.mul_comm] at this
    have hm : n % 2 ^ s = 0 := by omega
    rw [hm] at hc
    omega
  · exact hd

theorem le_roundShift {n s b : Nat} (h : b * 2 ^ s ≤ n) : b ≤ roundShift n s := by
  have hd : b ≤ n / 2 ^ s := (Nat.le_div_iff_mul_le (Nat.pow_pos (by decide))).mpr h
  unfold roundShift
  split <;> omega

/-- What `roundMag` is before the overflow check: magnitude bits of the grid point nearest to `n / 2^p` on a grid
no coarser than the binary32 values there. -/
theorem roundMag_spec (n p : Nat) :
    ∃ m r q, roundMag n p = min m (255 * 2 ^ 23) ∧ magOf m = r * 2 ^ q ∧ m % 2 = r % 2 ∧
      |(r : Real) * 2 ^ q - n / 2 ^ p| ≤ 2 ^ q / 2 ∧
      (|(r : Real) * 2 ^ q - n / 2 ^ p| = 2 ^ q / 2 → r % 2 = 0) ∧
      (q = 0 ∨ (2 : Real) ^ (23 + q) ≤ n / 2 ^ p) ∧ (n : Real) / 2 ^ p ≤ 2 ^ (24 + q) := by
  set q := bitLength n - (p + 24) with hq
  set r := roundShift n (p + q) with hr
  have hlt := lt_pow_bitLength n
  have hup : n ≤ 2 ^ 24 * 2 ^ (p + q) := by
    rw [← pow_add]
    exact (Nat.le_of_lt hlt).trans (Nat.pow_le_pow_right (by decide) (by omega))
  have hr24 : r ≤ 2 ^ 24 := roundShift_le hup
  have hlow : q ≠ 0 → 2 ^ (23 + (p + q)) ≤ n := by
    intro h0
    have hn : n ≠ 0 := by
      rintro rfl
      simp [bitLength] at hq
      omega
    have := pow_le_of_bitLength hn
    rwa [show bitLength n - 1 = 23 + (p + q) by omega] at this
  have hspec := roundShift_spec n (p + q)
  have hpos : (0 : Real) < 2 ^ p := by positivity
  have hscale : |(r : Real) * 2 ^ q - n / 2 ^ p| = |(r : Real) * 2 ^ (p + q) - n| / 2 ^ p := by
    rw [← abs_of_pos hpos, ← abs_div, abs_of_pos hpos, pow_add]
    congr 1
    field_simp
  refine ⟨q * 2 ^ 23 + r, r, q, rfl, ?_, by omega, ?_, ?_, ?_, ?_⟩
  · by_cases h0 : q = 0
    · rw [h0]
      simpa using magOf_small hr24
    · exact magOf_normal (le_roundShift (by rw [← pow_add]; exact hlow h0)) hr24
  · rw [hscale, div_le_iff₀ hpos]
    calc |(r : Real) * 2 ^ (p + q) - n| ≤ 2 ^ (p + q) / 2 := hspec.1
      _ = 2 ^ q / 2 * 2 ^ p := by rw [pow_add]; ring
  · intro h
    apply hspec.2
    rw [hscale, div_eq_iff (ne_of_gt hpos)] at h
    rw [h, pow_add]
    ring
  · by_cases h0 : q = 0
    · exact .inl h0
    · right
      rw [le_div_iff₀ hpos, ← pow_add]
      have : 2 ^ (23 + q + p) ≤ n := by
        have := hlow h0
        rwa [show 23 + (p + q) = 23 + q + p by omega] at this
      exact_mod_cast this
  · rw [div_le_iff₀ hpos, ← pow_add]
    have : n ≤ 2 ^ (24 + q + p) := by
      rwa [← pow_add, show 24 + (p + q) = 24 + q + p by omega] at hup
    exact_mod_cast this

/-! ### Square roots and NaNs -/

theorem isqrtFrom_spec {b x r : Nat} (h : r * r ≤ x) (h2 : x < (r + 2 ^ b) * (r + 2 ^ b)) :
    isqrtFrom b x r * isqrtFrom b x r ≤ x ∧ x < (isqrtFrom b x r + 1) * (isqrtFrom b x r + 1) := by
  induction b generalizing r with
  | zero => exact ⟨h, by simpa [isqrtFrom] using h2⟩
  | succ b ih =>
    unfold isqrtFrom
    split
    · next hc => exact ih hc (by rw [pow_succ] at h2; convert h2 using 2 <;> ring)
    · next hc => exact ih h (by omega)

/-- `isqrt` is the whole part of the square root. -/
theorem isqrt_spec (x : Nat) : isqrt x * isqrt x ≤ x ∧ x < (isqrt x + 1) * (isqrt x + 1) := by
  refine isqrtFrom_spec (by simp) ?_
  have := lt_pow_bitLength x
  have h1 : 1 ≤ 2 ^ bitLength x := Nat.one_le_two_pow
  nlinarith

/-- `quietNan` is a NaN with fraction bit 22 set, whatever its payload (93_implementation_defined.md U6). -/
theorem quietNan_spec (b : BitVec 23) : isNan (quietNan b) = true ∧ (quietNan b).getLsbD 22 = true := by
  have h22 : (quietNan b).getLsbD 22 = true := by
    unfold quietNan
    rw [BitVec.getLsbD_append, BitVec.getLsbD_append]
    simp
  refine ⟨?_, h22⟩
  have h : (quietNan b).extractLsb 30 23 = 255#8 := by
    apply BitVec.eq_of_getLsbD_eq
    intro i hi
    rw [BitVec.getLsbD_extractLsb]
    unfold quietNan
    rw [BitVec.getLsbD_append, BitVec.getLsbD_append]
    have hi8 : i < 8 := hi
    interval_cases i <;> simp
  have e : expField (quietNan b) = 255 := by rw [expField, h]; rfl
  have f : fracField (quietNan b) ≠ 0 := by
    intro h
    rw [fracField_eq] at h
    have := Nat.testBit_mod_two_pow (quietNan b).toNat 23 22
    rw [h] at this
    rw [BitVec.getLsbD] at h22
    simp [h22] at this
  simp [isNan, e, f]

theorem nanResult_spec (r : NanRule) (op : FloatOp) (a b : F32) :
    isNan (nanResult r op a b) = true ∧ (nanResult r op a b).getLsbD 22 = true := by
  unfold nanResult
  split <;> exact quietNan_spec _

end Sys2Proof.Machine
end

