-- ==== Sys2Proof/Laws/Zero.lean ====
section
/-! SUPPORT. Zeros in the default arithmetic (00_scope.md R12, R13): what the silence rules rest on
(41_resampler.md R149, 43_spectral.md R182). -/

namespace Sys2Proof.Machine

theorem isZero_iff {a : F32} : isZero a = true ↔ expField a = 0 ∧ fracField a = 0 := by simp [isZero]

/-- A zero is one of two patterns. -/
theorem isZero_iff_eq {a : F32} : isZero a = true ↔ a = 0 ∨ a = 0x80000000 := by
  constructor
  · intro h
    obtain ⟨h1, h2⟩ := isZero_iff.mp h
    have e := withSign_magBits a
    rw [magBits, h1, h2] at e
    cases hs : signBit a <;> rw [hs] at e
    · exact .inl (e.symm.trans (by decide))
    · exact .inr (e.symm.trans (by decide))
  · rintro (rfl | rfl) <;> decide

theorem magUnits_of_isZero {a : F32} (h : isZero a = true) : magUnits a = 0 := by
  obtain ⟨h1, h2⟩ := isZero_iff.mp h
  rw [magUnits, if_pos h1, h2]

theorem isFinite_of_isZero {a : F32} (h : isZero a = true) : isFinite a = true := by
  simp [isFinite, (isZero_iff.mp h).1]

theorem isNan_of_isFinite {a : F32} (h : isFinite a = true) : isNan a = false := by
  simp only [isFinite, bne_iff_ne, ne_eq] at h
  simp [isNan, h]

theorem isInf_of_isFinite {a : F32} (h : isFinite a = true) : isInf a = false := by
  simp only [isFinite, bne_iff_ne, ne_eq] at h
  simp [isInf, h]

@[simp] theorem roundMag_zero (p : Nat) : roundMag 0 p = 0 := by simp [roundMag, bitLength, roundShift]

theorem isZero_withSign_zero (s : Bool) : isZero (withSign s 0) = true := by cases s <;> decide

/-- A finite sum, rounded once (00_scope.md R12). -/
theorem ieeeAdd_of_finite {r : NanRule} {a b : F32} (ha : isFinite a = true) (hb : isFinite b = true) :
    ieeeAdd r a b = addFinite a b := by
  simp [ieeeAdd, isNan_of_isFinite ha, isNan_of_isFinite hb, isInf_of_isFinite ha, isInf_of_isFinite hb]

/-- A finite product, rounded once (00_scope.md R12). -/
theorem ieeeMul_of_finite {r : NanRule} {a b : F32} (ha : isFinite a = true) (hb : isFinite b = true) :
    ieeeMul r a b = withSign (signBit a != signBit b) (roundMag (magUnits a * magUnits b) 149) := by
  simp [ieeeMul, isNan_of_isFinite ha, isNan_of_isFinite hb, isInf_of_isFinite ha, isInf_of_isFinite hb]

/-- `+0.0` plus a zero of either sign is `+0.0`: why every ordered sum of zeros is `+0.0`. -/
theorem ieeeAdd_zero_left {r : NanRule} {b : F32} (h : isZero b = true) : ieeeAdd r 0 b = 0 := by
  rw [ieeeAdd_of_finite (by decide) (isFinite_of_isZero h)]
  rcases isZero_iff_eq.mp h with rfl | rfl <;> decide

/-- The sum of two zeros is a zero. -/
theorem isZero_ieeeAdd {r : NanRule} {a b : F32} (ha : isZero a = true) (hb : isZero b = true) :
    isZero (ieeeAdd r a b) = true := by
  rw [ieeeAdd_of_finite (isFinite_of_isZero ha) (isFinite_of_isZero hb)]
  rcases isZero_iff_eq.mp ha with rfl | rfl <;> rcases isZero_iff_eq.mp hb with rfl | rfl <;> decide

/-- A zero times a finite number is a zero. -/
theorem isZero_ieeeMul {r : NanRule} {a b : F32} (ha : isFinite a = true) (hb : isFinite b = true)
    (h : isZero a = true ∨ isZero b = true) : isZero (ieeeMul r a b) = true := by
  have hz : magUnits a * magUnits b = 0 := by
    rcases h with h | h <;> simp [magUnits_of_isZero h]
  rw [ieeeMul_of_finite ha hb, hz, roundMag_zero]
  exact isZero_withSign_zero _

theorem isZero_fneg {a : F32} (h : isZero a = true) : isZero (fneg a) = true := by
  rcases isZero_iff_eq.mp h with rfl | rfl <;> decide

theorem isFinite_fneg {a : F32} (h : isFinite a = true) : isFinite (fneg a) = true := by
  have e : expField (fneg a) = expField a := by
    simp only [expField, fneg]
    congr 1
    apply BitVec.eq_of_getLsbD_eq
    intro i hi
    simp only [BitVec.getLsbD_extractLsb, BitVec.getLsbD_xor]
    have : BitVec.getLsbD (0x80000000 : F32) (23 + i) = false := by
      have : i < 8 := hi
      interval_cases i <;> decide
    rw [this, Bool.xor_false]
  rw [isFinite, e]
  exact h

/-! The same over a configuration with the default arithmetic. -/

theorem fadd_zero_left {c : Cfg} {r : NanRule} (hc : c.arith = .ieee r) {b : F32} (h : isZero b = true) :
    fadd c 0 b = 0 := by
  rw [fadd, hc]
  exact ieeeAdd_zero_left h

theorem isZero_fadd {c : Cfg} {r : NanRule} (hc : c.arith = .ieee r) {a b : F32} (ha : isZero a = true)
    (hb : isZero b = true) : isZero (fadd c a b) = true := by
  rw [fadd, hc]
  exact isZero_ieeeAdd ha hb

theorem isZero_fmul {c : Cfg} {r : NanRule} (hc : c.arith = .ieee r) {a b : F32} (ha : isFinite a = true)
    (hb : isFinite b = true) (h : isZero a = true ∨ isZero b = true) : isZero (fmul c a b) = true := by
  rw [fmul, hc]
  exact isZero_ieeeMul ha hb h

theorem isZero_fsub {c : Cfg} {r : NanRule} (hc : c.arith = .ieee r) {a b : F32} (ha : isZero a = true)
    (hb : isZero b = true) : isZero (fsub c a b) = true := isZero_fadd hc ha (isZero_fneg hb)

theorem fsqrt_zero {c : Cfg} {r : NanRule} (hc : c.arith = .ieee r) : fsqrt c 0 = 0 := by
  rw [fsqrt, hc]
  rfl

/-- An ordered sum of zeros of either sign is `+0.0` (00_scope.md R13). -/
theorem fsum_of_zeros {c : Cfg} {r : NanRule} (hc : c.arith = .ieee r) {n : Nat} {t : Nat → F32}
    (h : ∀ k < n, isZero (t k) = true) : fsum c n t = 0 := by
  induction n with
  | zero => exact fsum_zero c t
  | succ n ih => rw [fsum_succ, ih fun k hk => h k (by omega), fadd_zero_left hc (h n (by omega))]

/-- A fold of zeros onto a zero is a zero. -/
theorem isZero_fsumFrom {c : Cfg} {r : NanRule} (hc : c.arith = .ieee r) {a : F32} {n : Nat} {t : Nat → F32}
    (ha : isZero a = true) (h : ∀ k < n, isZero (t k) = true) : isZero (fsumFrom c a n t) = true := by
  induction n with
  | zero => rw [fsumFrom_zero]; exact ha
  | succ n ih =>
    rw [fsumFrom_succ]
    exact isZero_fadd hc (ih fun k hk => h k (by omega)) (h n (by omega))

end Sys2Proof.Machine
end

