-- ==== Sys2Proof/Laws/Transforms.lean ====
section
/-! SUPPORT. The transforms: their sizes, and that with the default arithmetic the reference transforms meet
law (c) by themselves, so that `rfft` and `irfft` are then `REF.rfft` and `REF.irfft` on every argument
(43_spectral.md R167, R168, R177, R178). -/

namespace Sys2Proof.Machine

theorem isFinite_elem {l : List Word} (h : ∀ a ∈ l, isFinite a = true) (i : Nat) : isFinite (elem l i) = true := by
  by_cases hi : i < l.length
  · exact h _ (elem_mem hi)
  · rw [elem_of_length_le (by omega)]
    decide

theorem isZero_elem {l : List Word} (h : ∀ a ∈ l, isZero a = true) (i : Nat) : isZero (elem l i) = true := by
  by_cases hi : i < l.length
  · exact h _ (elem_mem hi)
  · rw [elem_of_length_le (by omega)]
    decide

theorem bin_tabulate (n : Nat) (f : Nat → F32 × F32) (k : Nat) :
    bin (tabulate n f) k = if k < n then f k else (0, 0) := getD_tabulate n f k (0, 0)

@[simp] theorem length_rfft (c : Cfg) (x : List F32) : (rfft c x).length = binCount c := by
  unfold rfft chosenRfft refRfft
  split
  · simp
  · split <;> simp

@[simp] theorem length_irfft (c : Cfg) (y : List (F32 × F32)) : (irfft c y).length = c.fftSize := by
  unfold irfft chosenIrfft refIrfft
  split <;> split <;> simp

/-- The sign bit alone is a zero of either sign. -/
theorem isZero_zeroOf (a : F32) : isZero (zeroOf a) = true := by
  have h : ∀ i, i ≠ 31 → (zeroOf a).getLsbD i = false := by
    intro i hi
    rw [zeroOf, BitVec.getLsbD_and]
    by_cases h32 : i < 32
    · have : BitVec.getLsbD (0x80000000 : F32) i = false := by interval_cases i <;> first | rfl | omega
      rw [this, Bool.and_false]
    · rw [BitVec.getLsbD_of_ge _ _ (by omega), Bool.false_and]
  rw [isZero_iff_eq]
  cases h31 : (zeroOf a).getLsbD 31
  · left
    apply BitVec.eq_of_getLsbD_eq
    intro i _
    by_cases hi : i = 31
    · rw [hi, h31]; rfl
    · rw [h i hi]
      exact BitVec.getLsbD_zero.symm
  · right
    apply BitVec.eq_of_getLsbD_eq
    intro i hi
    have : i < 32 := hi
    by_cases hi : i = 31
    · rw [hi, h31]; rfl
    · rw [h i hi]
      interval_cases i <;> first | rfl | omega

theorem zeroOf_of_isZero {a : F32} (h : isZero a = true) : zeroOf a = a := by
  rcases isZero_iff_eq.mp h with rfl | rfl <;> decide

/-- The twiddles of a legal configuration are finite. -/
theorem isFinite_twiddleCos {c : Cfg} (hv : cfgValid c = true) (k n : Nat) : isFinite (twiddleCos c k n) = true :=
  isFinite_elem (legal_of_cfgValid hv).twcFinite _

theorem isFinite_twiddleSin {c : Cfg} (hv : cfgValid c = true) (k n : Nat) : isFinite (twiddleSin c k n) = true :=
  isFinite_elem (legal_of_cfgValid hv).twsFinite _

/-- `REF.rfft` of zeros is `+0.0` everywhere, with the default arithmetic and finite tables (R167 (c), R168). -/
theorem refRfft_of_zeros {c : Cfg} {r : NanRule} (hr : c.arith = .ieee r) (hv : cfgValid c = true) {x : List F32}
    (h : ∀ a ∈ x, isZero a = true) : refRfft c x = tabulate (binCount c) fun _ => (0, 0) := by
  refine tabulate_congr fun k _ => ?_
  have hz := isZero_elem h
  have hf := fun n => isFinite_of_isZero (hz n)
  rw [fsum_of_zeros hr fun n _ => isZero_fmul hr (hf n) (isFinite_twiddleCos hv k n) (.inl (hz n)),
    fsum_of_zeros hr fun n _ => isZero_fmul hr (hf n) (isFinite_fneg (isFinite_twiddleSin hv k n)) (.inl (hz n)),
    ite_self]

/-- With the default arithmetic the reference choice is `REF.rfft` on every argument. -/
theorem rfft_reference {c : Cfg} {r : NanRule} (ht : c.transform = .reference) (hr : c.arith = .ieee r)
    (hv : cfgValid c = true) (x : List F32) : rfft c x = refRfft c x := by
  unfold rfft chosenRfft
  rw [ht]
  split
  · next h => exact (refRfft_of_zeros hr hv (List.all_eq_true.mp h)).symm
  · rfl

theorem isZeroBins_iff {c : Cfg} {y : List (F32 × F32)} :
    isZeroBins c y = true ↔ ∀ k ≤ c.fftSize / 2, isZero (bin y k).1 = true ∧
      (0 < k → k < c.fftSize / 2 → isZero (bin y k).2 = true) := by
  rw [isZeroBins, List.all_eq_true]
  constructor
  · intro h k hk
    have := h _ (mem_tabulate.mpr ⟨k, by unfold binCount; omega, rfl⟩)
    simp only [Bool.and_eq_true] at this
    refine ⟨this.1, fun h1 h2 => ?_⟩
    have hb : isRealBin c k = false := by simp [isRealBin]; omega
    simpa [hb] using this.2
  · intro h b hb
    obtain ⟨k, hk, rfl⟩ := mem_tabulate.mp hb
    have hk' : k ≤ c.fftSize / 2 := by unfold binCount at hk; omega
    obtain ⟨h1, h2⟩ := h k hk'
    simp only [h1, Bool.true_and]
    split
    · decide
    · next hr =>
      simp only [isRealBin, Bool.or_eq_true, beq_iff_eq, not_or] at hr
      exact h2 (by omega) (by omega)

/-- `REF.irfft` of zeros is zeros, with the default arithmetic and finite tables (R177 (c), R178). -/
theorem refIrfft_of_zeros {c : Cfg} {r : NanRule} (hr : c.arith = .ieee r) (hv : cfgValid c = true)
    {y : List (F32 × F32)} (h : isZeroBins c y = true) : ∀ a ∈ refIrfft c y, isZero a = true := by
  have hb := isZeroBins_iff.mp h
  have hscale : isFinite c.ifftScale = true := by
    have := (legal_of_cfgValid hv).ifftScale
    simp only [isPositiveFinite, Bool.and_eq_true] at this
    exact this.1.1
  intro a ha
  obtain ⟨n, -, rfl⟩ := mem_tabulate.mp ha
  have hstart : isZero (refIrfftStart c y n) = true := by
    have h0 := (hb 0 (by omega)).1
    have h2 := (hb _ (le_refl _)).1
    unfold refIrfftStart
    split
    · exact isZero_fadd hr h0 h2
    · exact isZero_fadd hr h0 (isZero_fneg h2)
  have hterm : ∀ k < c.fftSize / 2 - 1, isZero (fmul c 0x40000000 (refIrfftTerm c y n (k + 1))) = true := by
    intro k hk
    obtain ⟨h1, h2⟩ := hb (k + 1) (by omega)
    have h2 := h2 (by omega) (by omega)
    have : isZero (refIrfftTerm c y n (k + 1)) = true :=
      isZero_fsub hr (isZero_fmul hr (isFinite_of_isZero h1) (isFinite_twiddleCos hv _ _) (.inl h1))
        (isZero_fmul hr (isFinite_of_isZero h2) (isFinite_twiddleSin hv _ _) (.inl h2))
    exact isZero_fmul hr (by decide) (isFinite_of_isZero this) (.inr this)
  have hfold := isZero_fsumFrom hr hstart hterm
  exact isZero_fmul hr hscale (isFinite_of_isZero hfold) (.inr hfold)

/-- With the default arithmetic the reference choice is `REF.irfft` on every argument. -/
theorem irfft_reference {c : Cfg} {r : NanRule} (ht : c.transform = .reference) (hr : c.arith = .ieee r)
    (hv : cfgValid c = true) (y : List (F32 × F32)) : irfft c y = refIrfft c y := by
  unfold irfft chosenIrfft
  rw [ht]
  split
  · next h =>
    have hz := refIrfft_of_zeros hr hv h
    conv_rhs => rw [← List.map_id (refIrfft c y)]
    exact List.map_congr_left fun a ha => zeroOf_of_isZero (hz a ha)
  · rfl

end Sys2Proof.Machine
end

