-- ==== Sys2Proof/Laws/Sequencer.lean ====
section
/-! SUPPORT. `SEQ.STEP`: what each stage of the walk may change, and every way a step can end. -/

namespace Sys2Proof.Machine

/-- The windows `SEQ.STEP` computes with after the hop is consumed: all of agent M's that are state, but `NIN`. -/
def walkWindows : List Window :=
  [.nout, .mhi, .mho, .ddl, .idl, .aframe, .spec, .mag, .mask, .tframe, .sframe, .acc, .stateA, .stateB]

/-- Those of them that PassThrough computes with (45_sequencer.md R208). -/
def passWindows : List Window := [.nout, .mhi, .mho, .ddl, .idl, .aframe]

/-- What a computation may change: some windows and `SEQ`; it keeps every other window, the hop slots and, in a
legal configuration, the canonical form. -/
structure Walk (ws : List Window) (s t : State) : Prop where
  regs : t = { s with mem := t.mem, seq := t.seq }
  windows : ∀ w, w ∉ ws → t.win w = s.win w
  slots : ∀ b, t.mem.slots b = s.mem.slots b
  wf : cfgValid s.cfg = true → s.mem.wf s.cfg = true → t.mem.wf s.cfg = true

section
variable {ws : List Window} {s t u : State}

theorem Walk.cfg (h : Walk ws s t) : t.cfg = s.cfg := by rw [h.regs]

/-- The frame of a computation, element by element. -/
theorem Walk.frame (h : Walk ws s t) : SameOutside (fun l => l.inWindows ws) s t := by
  intro l hl
  cases l with
  | win w i => simp only [State.peek, h.cfg, h.windows w hl]
  | slot b j i => simp only [State.peek, State.slotElem, h.cfg, h.slots b]

theorem Walk.refl (ws : List Window) (s : State) : Walk ws s s := ⟨rfl, fun _ _ => rfl, fun _ => rfl, fun _ h => h⟩

theorem Walk.trans (h1 : Walk ws s t) (h2 : Walk ws t u) : Walk ws s u where
  regs := by rw [h2.regs, h1.regs]
  windows w hw := (h2.windows w hw).trans (h1.windows w hw)
  slots b := (h2.slots b).trans (h1.slots b)
  wf hv hw := by
    have := h2.wf
    rw [h1.cfg] at this
    exact this hv (h1.wf hv hw)

theorem Walk.mono {vs : List Window} (h : Walk vs s t) (hsub : ∀ w ∈ vs, w ∈ ws) : Walk ws s t :=
  ⟨h.regs, fun w hw => h.windows w fun hv => hw (hsub w hv), h.slots, h.wf⟩

theorem Walk.setSeq (ws : List Window) (s : State) (v : SeqState) : Walk ws s (s.setSeq v) :=
  ⟨rfl, fun w _ => State.win_setSeq s v w, fun _ => rfl, fun _ h => h⟩

/-- One window written with its own length. -/
theorem Walk.putWin (s : State) {w : Window} {l : List Word} (hw : w ∈ ws)
    (hl : cfgValid s.cfg = true → l.length = windowLen s.cfg w) : Walk ws s (s.putWin w l) := by
  refine ⟨rfl, fun v hv => ?_, fun b => Memory.slots_put _ _ _ b, fun hv h => Memory.put_wf h (hl hv)⟩
  rw [State.win_putWin, if_neg]
  rintro ⟨rfl, -⟩
  exact hv hw

end

theorem frameSize_eq {c : Cfg} (hv : cfgValid c = true) : c.frameSize = c.fftSize := by
  simp only [cfgValid, Bool.and_eq_true, decide_eq_true_eq] at hv
  tauto

/-- A stage answers with the sizes of its type (93_implementation_defined.md U9). -/
theorem callStage_length {free : Nat → List F32 → List F32 → Option ((Nat → F32) × (Nat → F32))} {stage : Stage}
    {n m : Nat} {input state out st : List F32} (h : callStage free stage n m input state = some (out, st)) :
    out.length = n ∧ st.length = m := by
  unfold callStage at h
  split at h
  · simp only [Option.some.injEq, Prod.mk.injEq] at h
    simp [← h.1, ← h.2]
  · cases h
  · split at h
    · simp only [Option.some.injEq, Prod.mk.injEq] at h
      simp [← h.1, ← h.2]
    · cases h

theorem rsDecBody_walk (s : State) : Walk [.mhi, .ddl] s (rsDecBody s) :=
  (Walk.putWin s (by decide) fun _ => by simp [decOutput, windowLen]).trans
    (Walk.putWin _ (by decide) fun _ => by simp [decLine, windowLen])

theorem rsIntBody_walk (s : State) : Walk [.nout, .idl] s (rsIntBody s) :=
  (Walk.putWin s (by decide) fun _ => by simp [intOutput, windowLen]).trans
    (Walk.putWin _ (by decide) fun _ => by simp [intLine, windowLen])

theorem frmPushBody_walk (s : State) : Walk [.aframe] s (frmPushBody s) :=
  Walk.putWin s (by decide) fun _ => by simp [shiftIn, windowLen]

theorem fftAnalyzeBody_walk (s : State) : Walk [.spec, .mag] s (fftAnalyzeBody s) :=
  (Walk.putWin s (by decide) fun _ => by simp [windowLen]).trans
    (Walk.putWin _ (by decide) fun _ => by simp [windowLen, binCount])

theorem fftMsynBody_walk (s : State) : Walk [.tframe] s (fftMsynBody s) :=
  Walk.putWin s (by decide) fun hv => by simp [windowLen, frameSize_eq hv]

theorem olaAccBody_walk (src : Window) (s : State) : Walk [.acc] s (olaAccBody src s) :=
  Walk.putWin s (by decide) fun _ => by simp [windowLen]

theorem olaEmitBody_walk (s : State) : Walk [.mho, .acc] s (olaEmitBody s) :=
  (Walk.putWin s (by decide) fun _ => by simp [windowLen]).trans
    (Walk.putWin _ (by decide) fun _ => by simp [shiftIn, windowLen])

/-- The first three states consume one captured hop, decimate it and frame it. -/
theorem seqFront_walk (s : State) : Walk [.mhi, .ddl, .aframe] (capPopBody s) (seqFront s) := by
  rw [seqFront_eq]
  exact (((rsDecBody_walk _).mono (by decide)).trans ((frmPushBody_walk _).mono (by decide))).trans
    (Walk.setSeq _ _ _)

theorem seqAnalyzing_walk (s : State) : Walk [.spec, .mag] s (seqAnalyzing s) :=
  (Walk.setSeq _ s _).trans (fftAnalyzeBody_walk _)

theorem seqMasking_walk (s : State) : Walk [.tframe] s (seqMasking s) :=
  (Walk.setSeq _ s _).trans (fftMsynBody_walk _)

theorem seqOverlapAdding_walk (s : State) : Walk [.mho, .acc] s (seqOverlapAdding s) :=
  ((Walk.setSeq _ s _).trans ((olaAccBody_walk _ _).mono (by decide))).trans (olaEmitBody_walk _)

theorem seqPassThrough_walk (s : State) : Walk [.mho] s (seqPassThrough s) :=
  Walk.putWin s (by decide) fun _ => by simp [windowLen]

/-- State InferringA: the new mask and state, or the fault (45_sequencer.md R204). -/
theorem seqInferringA_ok {s : State} {mask stA : List F32}
    (h : inferA s.cfg (s.win .mag) (s.win .stateA) = some (mask, stA)) :
    seqInferringA s = .ok (((s.setSeq .inferringA).putWin .mask mask).putWin .stateA stA) := by
  simp only [seqInferringA, h]

theorem seqInferringA_error {s : State} (h : inferA s.cfg (s.win .mag) (s.win .stateA) = none) :
    seqInferringA s = .error (raiseFault .M .inferenceA (s.setSeq .inferringA)) := by
  simp only [seqInferringA, h]

/-- State InferringB: the new frame and state, or the fault (45_sequencer.md R205). -/
theorem seqInferringB_ok {s : State} {frame stB : List F32}
    (h : inferB s.cfg (s.win .tframe) (s.win .stateB) = some (frame, stB)) :
    seqInferringB s = .ok (((s.setSeq .inferringB).putWin .sframe frame).putWin .stateB stB) := by
  simp only [seqInferringB, h]

theorem seqInferringB_error {s : State} (h : inferB s.cfg (s.win .tframe) (s.win .stateB) = none) :
    seqInferringB s = .error (raiseFault .M .inferenceB (s.setSeq .inferringB)) := by
  simp only [seqInferringB, h]

theorem seqInferringA_walk {s t : State} (h : seqInferringA s = .ok t) :
    Walk [.mask, .stateA] s t := by
  cases e : inferA s.cfg (s.win .mag) (s.win .stateA) with
  | none => rw [seqInferringA_error e] at h; cases h
  | some r =>
    obtain ⟨out, st⟩ := r
    rw [seqInferringA_ok e] at h
    cases h
    have hl := callStage_length e
    exact ((Walk.setSeq _ s _).trans (Walk.putWin _ (by decide) fun _ => hl.1)).trans
      (Walk.putWin _ (by decide) fun _ => hl.2)

theorem seqInferringB_walk {s t : State} (h : seqInferringB s = .ok t) :
    Walk [.sframe, .stateB] s t := by
  cases e : inferB s.cfg (s.win .tframe) (s.win .stateB) with
  | none => rw [seqInferringB_error e] at h; cases h
  | some r =>
    obtain ⟨out, st⟩ := r
    rw [seqInferringB_ok e] at h
    cases h
    have hl := callStage_length e
    exact ((Walk.setSeq _ s _).trans (Walk.putWin _ (by decide) fun _ => hl.1)).trans
      (Walk.putWin _ (by decide) fun _ => hl.2)

/-- How the full chain ends: computed, or stopped in a stage that reported failure. -/
theorem seqFullChain_cases (s : State) :
    (∃ t, seqFullChain s = .ok t ∧ Walk walkWindows s t) ∨
    (∃ t, seqFullChain s = .error (raiseFault .M .inferenceA t) ∧ Walk walkWindows s t ∧ t.seq = .inferringA) ∨
    ∃ t, seqFullChain s = .error (raiseFault .M .inferenceB t) ∧ Walk walkWindows s t ∧ t.seq = .inferringB := by
  have w4 : Walk walkWindows s (seqAnalyzing s) := (seqAnalyzing_walk s).mono (by decide)
  cases e5 : seqInferringA (seqAnalyzing s) with
  | error t =>
    right; left
    refine ⟨(seqAnalyzing s).setSeq .inferringA, ?_, w4.trans (Walk.setSeq _ _ _), rfl⟩
    cases e : inferA (seqAnalyzing s).cfg ((seqAnalyzing s).win .mag) ((seqAnalyzing s).win .stateA) with
    | none => rw [seqFullChain, seqInferringA_error e]
    | some r => rw [seqInferringA_ok e] at e5; cases e5
  | ok s5 =>
    have w6 : Walk walkWindows s (seqMasking s5) :=
      (w4.trans ((seqInferringA_walk e5).mono (by decide))).trans ((seqMasking_walk s5).mono (by decide))
    cases e7 : seqInferringB (seqMasking s5) with
    | error t =>
      right; right
      refine ⟨(seqMasking s5).setSeq .inferringB, ?_, w6.trans (Walk.setSeq _ _ _), rfl⟩
      cases e : inferB (seqMasking s5).cfg ((seqMasking s5).win .tframe) ((seqMasking s5).win .stateB) with
      | none => rw [seqFullChain, e5]; simp only [seqInferringB_error e]
      | some r => rw [seqInferringB_ok e] at e7; cases e7
    | ok s7 =>
      left
      refine ⟨seqOverlapAdding s7, ?_,
        (w6.trans ((seqInferringB_walk e7).mono (by decide))).trans ((seqOverlapAdding_walk s7).mono (by decide))⟩
      rw [seqFullChain, e5]
      simp only [e7]

/-- The end of the walk: published, or stopped in Emitting by one of two faults. -/
def EmitsFrom (s t r : State) : Prop :=
  (s.processWritePtr = maxIndex s.cfg ∧ r = raiseFault .M .indexOverflow t) ∨
  (s.processWritePtr ≠ maxIndex s.cfg ∧ s.cfg.numHops ≤ s.processWritePtr - s.writePtr ∧
    r = raiseFault .M .playbackOverrun t) ∨
  (s.processWritePtr ≠ maxIndex s.cfg ∧ s.processWritePtr - s.writePtr < s.cfg.numHops ∧
    r = returnCode .M .ok ((playPushBody t).setSeq .idle))

theorem seqBack_cases (s : State) :
    Walk [.nout, .idl] s ((rsIntBody s).setSeq .emitting) ∧ EmitsFrom s ((rsIntBody s).setSeq .emitting) (seqBack s) := by
  refine ⟨(rsIntBody_walk s).trans (Walk.setSeq _ _ _), ?_⟩
  have hb : seqBack s =
      match produceFault s.cfg .playbackOverrun s.processWritePtr s.writePtr with
      | some f => raiseFault .M f ((rsIntBody s).setSeq .emitting)
      | none => returnCode .M .ok ((playPushBody ((rsIntBody s).setSeq .emitting)).setSeq .idle) := rfl
  rcases produceFault_cases s.cfg .playbackOverrun s.processWritePtr s.writePtr with ⟨h1, h⟩ | ⟨h1, h2, h⟩ | ⟨h1, h2, h⟩
  · exact .inl ⟨h1, by rw [hb, h]⟩
  · exact .inr (.inl ⟨h1, h2, by rw [hb, h]⟩)
  · exact .inr (.inr ⟨h1, h2, by rw [hb, h]⟩)

/-- The end of the walk depends on the counters the walk began with. -/
theorem EmitsFrom.of_walk {ws : List Window} {s u t r : State} (hu : Walk ws (capPopBody s) u)
    (h : EmitsFrom u t r) : EmitsFrom s t r := by
  rw [hu.regs] at h
  exact h

/-- Every way an admitted `SEQ.STEP` can end (45_sequencer.md R202, R207): no hop waited; or the hop was
consumed, and a stage failed, or the walk came to Emitting. In PassThrough it computes with few windows. -/
theorem seqStep_cases (s : State) :
    (s.readPtr ≤ s.processReadPtr ∧ seqStep s = returnCode .M .empty s) ∨
    (s.processReadPtr < s.readPtr ∧ ∃ t, Walk walkWindows (capPopBody s) t ∧
      (s.passThrough = true → Walk passWindows (capPopBody s) t) ∧
      ((t.seq = .inferringA ∧ s.passThrough = false ∧ seqStep s = raiseFault .M .inferenceA t) ∨
       (t.seq = .inferringB ∧ s.passThrough = false ∧ seqStep s = raiseFault .M .inferenceB t) ∨
       (t.seq = .emitting ∧ EmitsFrom s t (seqStep s)))) := by
  by_cases hp : s.processReadPtr < s.readPtr
  · right
    refine ⟨hp, ?_⟩
    have w3 : Walk walkWindows (capPopBody s) (seqFront s) := (seqFront_walk s).mono (by decide)
    have back : ∀ u, Walk walkWindows (capPopBody s) u → (s.passThrough = true → Walk passWindows (capPopBody s) u) →
        seqStep s = seqBack u →
        ∃ t, Walk walkWindows (capPopBody s) t ∧ (s.passThrough = true → Walk passWindows (capPopBody s) t) ∧
          ((t.seq = .inferringA ∧ s.passThrough = false ∧ seqStep s = raiseFault .M .inferenceA t) ∨
           (t.seq = .inferringB ∧ s.passThrough = false ∧ seqStep s = raiseFault .M .inferenceB t) ∨
           (t.seq = .emitting ∧ EmitsFrom s t (seqStep s))) := by
      intro u wu pu hu
      obtain ⟨wt, ht⟩ := seqBack_cases u
      refine ⟨(rsIntBody u).setSeq .emitting, wu.trans (wt.mono (by decide)),
        fun h => (pu h).trans (wt.mono (by decide)), .inr (.inr ⟨rfl, ?_⟩)⟩
      rw [hu]
      exact ht.of_walk wu
    cases hpt : s.passThrough with
    | true =>
      rw [hpt] at back
      have w4 : Walk passWindows (capPopBody s) (seqPassThrough (seqFront s)) :=
        ((seqFront_walk s).mono (by decide)).trans ((seqPassThrough_walk _).mono (by decide))
      exact back _ (w4.mono (by decide)) (fun _ => w4) (by simp [seqStep, hp, hpt])
    | false =>
      rw [hpt] at back
      rcases seqFullChain_cases (seqFront s) with ⟨u, e, wu⟩ | ⟨t, e, wt, ht⟩ | ⟨t, e, wt, ht⟩
      all_goals have hu := show seqStep s = _ by simp only [seqStep, if_pos hp, hpt, e]; rfl
      · exact back _ (w3.trans wu) (fun h => by cases h) hu
      · exact ⟨t, w3.trans wt, fun h => (by cases h), .inl ⟨ht, rfl, hu⟩⟩
      · exact ⟨t, w3.trans wt, fun h => (by cases h), .inr (.inl ⟨ht, rfl, hu⟩)⟩
  · exact .inl ⟨by omega, by simp [seqStep, hp]⟩

end Sys2Proof.Machine
end

