-- ==== Sys2Proof/Laws/Effect.lean ====
section
/-! SUPPORT. Every way a command can end, said once: the cases of `Effect` are all that `exec` can do. -/

namespace Sys2Proof.Machine

/-- The state a command `i` can leave `s` in. -/
inductive Effect (i : Instr) (s : State) : State → Prop
  /-- Refused, or `R_EMPTY`: the code alone (60_exceptions.md R246). -/
  | refused (code : ResultCode) (hc : code ∈ [ResultCode.empty, .range, .perm, .halted]) (hi : i ≠ .sysSetup) :
      Effect i s (returnCode i.port code s)
  | nop (hi : i = .sysNop) : Effect i s (returnCode .M .ok s)
  | setup (hi : i = .sysSetup) : Effect i s (returnCode .M .ok (resetBlock s))
  /-- A window command that reads one element (R223, R225). -/
  | read (w : Window) (idx : Nat) (hi : i = .bufRd (windowId w) idx ∨ i = .iwinRd (windowId w) idx)
      (hr : idx < windowLen s.cfg w) (ho : windowOwner w = i.port) :
      Effect i s (returnCode i.port .ok (setPortData i.port (elem (s.win w) idx) s))
  /-- A window command that writes one element (R224, R226). -/
  | write (w : Window) (idx : Nat) (hi : i = .bufWr (windowId w) idx ∨ i = .iwinWr (windowId w) idx)
      (he : s.err = 0) (hr : idx < windowLen s.cfg w) (ho : windowOwner w = i.port)
      (hw : windowWritable w = true) :
      Effect i s (returnCode i.port .ok (s.storeWin w idx (portData i.port s)))
  | capPop (hi : i = .capPop) (he : s.err = 0) (hp : s.processReadPtr < s.readPtr) :
      Effect i s (returnCode .M .ok (capPopBody s))
  | playPop (hi : i = .playPop) (he : s.err = 0) (hp : s.writePtr < s.processWritePtr) :
      Effect i s (returnCode .I .ok (playPopBody s))
  | capPush (hi : i = .capPush) (he : s.err = 0) (hm : s.readPtr ≠ maxIndex s.cfg)
      (hr : s.readPtr - s.processReadPtr < s.cfg.numHops) : Effect i s (returnCode .I .ok (capPushBody s))
  | playPush (hi : i = .playPush) (he : s.err = 0) (hm : s.processWritePtr ≠ maxIndex s.cfg)
      (hr : s.processWritePtr - s.writePtr < s.cfg.numHops) : Effect i s (returnCode .M .ok (playPushBody s))
  /-- A produce that found no room (R122, R124, R130). -/
  | capFault (f : Fault) (hf : f = .captureOverrun ∨ f = .indexOverflow) (hi : i = .capPush) (he : s.err = 0) :
      Effect i s (raiseFault .I f s)
  | playFault (f : Fault) (hf : f = .playbackOverrun ∨ f = .indexOverflow) (hi : i = .playPush)
      (he : s.err = 0) : Effect i s (raiseFault .M f s)
  /-- A computing command: windows of the walk and the code. -/
  | compute (t : State) (hi : i.port = .M) (hne : i ≠ .seqStep) (he : s.err = 0) (hw : Walk walkWindows s t)
      (hs : t.seq = s.seq) (hq : i ≠ .capPop ∧ i ≠ .playPush) : Effect i s (returnCode .M .ok t)
  /-- `SEQ.STEP` that stopped in a fault (45_sequencer.md R207). -/
  | seqFault (f : Fault) (t : State) (hi : i = .seqStep) (he : s.err = 0) (hp : s.processReadPtr < s.readPtr)
      (hw : Walk walkWindows (capPopBody s) t) (hpass : s.passThrough = true → Walk passWindows (capPopBody s) t)
      (hf : (f = .inferenceA ∧ t.seq = .inferringA) ∨ (f = .inferenceB ∧ t.seq = .inferringB) ∨
        ((f = .playbackOverrun ∨ f = .indexOverflow) ∧ t.seq = .emitting)) :
      Effect i s (raiseFault .M f t)
  /-- `SEQ.STEP` that published its hop. -/
  | seqDone (t : State) (hi : i = .seqStep) (he : s.err = 0) (hp : s.processReadPtr < s.readPtr)
      (hw : Walk walkWindows (capPopBody s) t) (hpass : s.passThrough = true → Walk passWindows (capPopBody s) t)
      (hm : s.processWritePtr ≠ maxIndex s.cfg) (hr : s.processWritePtr - s.writePtr < s.cfg.numHops) :
      Effect i s (returnCode .M .ok ((playPushBody t).setSeq .idle))

theorem effect_capPop (s : State) (he : s.err = 0) : Effect .capPop s (capPop s) := by
  rcases capPop_cases s with ⟨_, h⟩ | ⟨hp, h⟩ <;> rw [h]
  · exact .refused .empty (by simp) (by simp)
  · exact .capPop rfl he hp

theorem effect_playPop (s : State) (he : s.err = 0) : Effect .playPop s (playPop s) := by
  rcases playPop_cases s with ⟨_, h⟩ | ⟨hp, h⟩ <;> rw [h]
  · exact .refused .empty (by simp) (by simp)
  · exact .playPop rfl he hp

theorem effect_capPush (s : State) (he : s.err = 0) : Effect .capPush s (capPush s) := by
  rcases capPush_cases s with ⟨_, h⟩ | ⟨_, _, h⟩ | ⟨hm, hr, h⟩ <;> rw [h]
  · exact .capFault _ (.inr rfl) rfl he
  · exact .capFault _ (.inl rfl) rfl he
  · exact .capPush rfl he hm hr

theorem effect_playPush (s : State) (he : s.err = 0) : Effect .playPush s (playPush s) := by
  rcases playPush_cases s with ⟨_, h⟩ | ⟨_, _, h⟩ | ⟨hm, hr, h⟩ <;> rw [h]
  · exact .playFault _ (.inr rfl) rfl he
  · exact .playFault _ (.inl rfl) rfl he
  · exact .playPush rfl he hm hr

theorem effect_seqStep (s : State) (he : s.err = 0) : Effect .seqStep s (seqStep s) := by
  rcases seqStep_cases s with ⟨_, h⟩ | ⟨hp, t, hw, hq, ⟨hs, _, h⟩ | ⟨hs, _, h⟩ | ⟨hs, ⟨_, h⟩ | ⟨_, _, h⟩ | ⟨hm, hr, h⟩⟩⟩ <;>
    rw [h]
  · exact .refused .empty (by simp) (by simp)
  · exact .seqFault _ t rfl he hp hw hq (.inl ⟨rfl, hs⟩)
  · exact .seqFault _ t rfl he hp hw hq (.inr (.inl ⟨rfl, hs⟩))
  · exact .seqFault _ t rfl he hp hw hq (.inr (.inr ⟨.inr rfl, hs⟩))
  · exact .seqFault _ t rfl he hp hw hq (.inr (.inr ⟨.inl rfl, hs⟩))
  · exact .seqDone t rfl he hp hw hq hm hr

theorem effect_bufRd (win idx : Nat) (s : State) : Effect (.bufRd win idx) s (windowRead .M win idx s) := by
  rcases windowRead_cases .M win idx s with ⟨code, hc, h⟩ | ⟨w, rfl, hr, ho, h⟩ <;> rw [h]
  · exact .refused code (by rcases hc with rfl | rfl <;> simp) (by simp)
  · exact .read w idx (.inl rfl) hr ho

theorem effect_iwinRd (win idx : Nat) (s : State) : Effect (.iwinRd win idx) s (windowRead .I win idx s) := by
  rcases windowRead_cases .I win idx s with ⟨code, hc, h⟩ | ⟨w, rfl, hr, ho, h⟩ <;> rw [h]
  · exact .refused code (by rcases hc with rfl | rfl <;> simp) (by simp)
  · exact .read w idx (.inr rfl) hr ho

theorem effect_bufWr (win idx : Nat) (s : State) (he : s.err = 0) :
    Effect (.bufWr win idx) s (windowWrite .M win idx s) := by
  rcases windowWrite_cases .M win idx s with ⟨code, hc, h⟩ | ⟨w, rfl, hr, ho, hw, h⟩ <;> rw [h]
  · exact .refused code (by rcases hc with rfl | rfl <;> simp) (by simp)
  · exact .write w idx (.inl rfl) he hr ho hw

theorem effect_iwinWr (win idx : Nat) (s : State) (he : s.err = 0) :
    Effect (.iwinWr win idx) s (windowWrite .I win idx s) := by
  rcases windowWrite_cases .I win idx s with ⟨code, hc, h⟩ | ⟨w, rfl, hr, ho, hw, h⟩ <;> rw [h]
  · exact .refused code (by rcases hc with rfl | rfl <;> simp) (by simp)
  · exact .write w idx (.inr rfl) he hr ho hw

theorem calc_effect {i : Instr} {s t : State} {ws : List Window} (hi : i.port = .M) (hne : i ≠ .seqStep)
    (hq : i ≠ .capPop ∧ i ≠ .playPush) (he : s.err = 0) (hw : Walk ws s t) (hws : ws ⊆ walkWindows)
    (hs : t.seq = s.seq) : Effect i s (t.setResultReg 0) := .compute t hi hne he (hw.mono hws) hs hq

/-- The cases of `Effect` are all that a command can do. -/
theorem exec_effect {i : Instr} {s t : State} (h : exec i s = .next t) : Effect i s t := by
  by_cases hr : runsWhileHalted i = false ∧ s.err ≠ 0
  · rw [exec_halted hr.1 hr.2] at h
    cases h
    exact .refused .halted (by simp) (by rintro rfl; cases hr.1)
  have er : runsWhileHalted i = false → s.err = 0 := fun hi => by
    by_contra he
    exact hr ⟨hi, he⟩
  cases i
  case sysNop => cases h; exact .nop rfl
  case sysSetup => cases h; exact .setup rfl
  case bufRd win idx => cases h; exact effect_bufRd win idx s
  case iwinRd win idx => cases h; exact effect_iwinRd win idx s
  all_goals
    have he := er rfl
    obtain ⟨x1, x2, x3, x4, x5, x6, x7, x8, x9, x10, x11, x12, x13, x14⟩ := exec_running he
  case capPop => rw [x1] at h; cases h; exact effect_capPop s he
  case playPush => rw [x2] at h; cases h; exact effect_playPush s he
  case rsDec => rw [x3] at h; cases h; exact calc_effect rfl (by simp) (by simp) he (rsDecBody_walk s) (by decide) rfl
  case rsInt => rw [x4] at h; cases h; exact calc_effect rfl (by simp) (by simp) he (rsIntBody_walk s) (by decide) rfl
  case frmPush => rw [x5] at h; cases h; exact calc_effect rfl (by simp) (by simp) he (frmPushBody_walk s) (by decide) rfl
  case fftAnalyze => rw [x6] at h; cases h; exact calc_effect rfl (by simp) (by simp) he (fftAnalyzeBody_walk s) (by decide) rfl
  case fftMsyn => rw [x7] at h; cases h; exact calc_effect rfl (by simp) (by simp) he (fftMsynBody_walk s) (by decide) rfl
  case olaAcc sel => rw [x8] at h; cases h; exact calc_effect rfl (by simp) (by simp) he (olaAccBody_walk _ s) (by decide) rfl
  case olaEmit => rw [x9] at h; cases h; exact calc_effect rfl (by simp) (by simp) he (olaEmitBody_walk s) (by decide) rfl
  case seqStep => rw [x10] at h; cases h; exact effect_seqStep s he
  case bufWr win idx => rw [x11] at h; cases h; exact effect_bufWr win idx s he
  case capPush => rw [x12] at h; cases h; exact effect_capPush s he
  case playPop => rw [x13] at h; cases h; exact effect_playPop s he
  case iwinWr win idx => rw [x14] at h; cases h; exact effect_iwinWr win idx s he

end Sys2Proof.Machine
end

