-- ==== Sys2Proof/Laws/PerInstr.lean ====
section
/-! SUPPORT. The family WordShape: for every command, its word carries its `op` in bits 7 to 0, and the port bit
`op[7]` is the port it belongs to (30_encoding.md R92, R93, R96). -/

namespace Sys2Proof.Laws.WordShape

/-- The word of a well-formed command has the command's `op` field and port bit (30_encoding.md R92, R93). -/
def Statement (i : Instr) : Prop :=
  i.wellFormed = true → opField (encode i) = opcode i ∧ (i.port = .I ↔ opField (encode i) / 128 = 1)

/-- The port is the top bit of `op` (30_encoding.md R93). -/
theorem of_opField {i : Instr} (h : opField (encode i) = opcode i) (hlt : opcode i < 256) :
    opField (encode i) = opcode i ∧ (i.port = .I ↔ opField (encode i) / 128 = 1) := by
  refine ⟨h, ?_⟩
  rw [h, Instr.port]
  split <;> simp <;> omega

theorem sysNop : Statement .sysNop := fun _ => of_opField (opField_packWord 0 0 (by decide)) (by decide)

theorem sysSetup : Statement .sysSetup := fun _ => of_opField (opField_packWord 0 0 (by decide)) (by decide)

theorem capPop : Statement .capPop := fun _ => of_opField (opField_packWord 0 0 (by decide)) (by decide)

theorem playPush : Statement .playPush := fun _ => of_opField (opField_packWord 0 0 (by decide)) (by decide)

theorem rsDec : Statement .rsDec := fun _ => of_opField (opField_packWord 0 0 (by decide)) (by decide)

theorem rsInt : Statement .rsInt := fun _ => of_opField (opField_packWord 0 0 (by decide)) (by decide)

theorem frmPush : Statement .frmPush := fun _ => of_opField (opField_packWord 0 0 (by decide)) (by decide)

theorem fftAnalyze : Statement .fftAnalyze := fun _ => of_opField (opField_packWord 0 0 (by decide)) (by decide)

theorem fftMsyn : Statement .fftMsyn := fun _ => of_opField (opField_packWord 0 0 (by decide)) (by decide)

theorem olaAcc (sel : Nat) : Statement (.olaAcc sel) := fun _ =>
  of_opField (opField_packWord sel 0 (by decide)) (by simp [opcode])

theorem olaEmit : Statement .olaEmit := fun _ => of_opField (opField_packWord 0 0 (by decide)) (by decide)

theorem seqStep : Statement .seqStep := fun _ => of_opField (opField_packWord 0 0 (by decide)) (by decide)

theorem bufRd (win idx : Nat) : Statement (.bufRd win idx) := fun _ =>
  of_opField (opField_packWord win idx (by decide)) (by simp [opcode])

theorem bufWr (win idx : Nat) : Statement (.bufWr win idx) := fun _ =>
  of_opField (opField_packWord win idx (by decide)) (by simp [opcode])

theorem capPush : Statement .capPush := fun _ => of_opField (opField_packWord 0 0 (by decide)) (by decide)

theorem playPop : Statement .playPop := fun _ => of_opField (opField_packWord 0 0 (by decide)) (by decide)

theorem iwinRd (win idx : Nat) : Statement (.iwinRd win idx) := fun _ =>
  of_opField (opField_packWord win idx (by decide)) (by simp [opcode])

theorem iwinWr (win idx : Nat) : Statement (.iwinWr win idx) := fun _ =>
  of_opField (opField_packWord win idx (by decide)) (by simp [opcode])

end Sys2Proof.Laws.WordShape
end

