-- ==== Sys2Proof/Laws/Queues.lean ====
section
/-! SUPPORT. The queues of waiting hops: distinct waiting indices lie in distinct slots, so a push appends a hop
and a pop takes the oldest one. -/

namespace Sys2Proof.Machine

/-- Indices less than `NUM_HOPS` apart lie in distinct slots (40_hopbuffer.md R129). -/
theorem slotOf_ne {c : Cfg} {a b : Nat} (hlt : a < b) (hclose : b - a < c.numHops) : slotOf c a ≠ slotOf c b := by
  intro h
  have hd : c.numHops ∣ b - a := (Nat.modEq_iff_dvd' (Nat.le_of_lt hlt)).mp h
  exact absurd (Nat.le_of_dvd (by omega) hd) (by omega)

theorem slotOf_lt {c : Cfg} (hn : 0 < c.numHops) (k : Nat) : slotOf c k < c.numHops := Nat.mod_lt _ hn

/-- A slot that is written reads back as the hop. -/
theorem readSlot_writeSlot_same (s : State) (b : HopBuffer) (k : Nat) (hop : List Word)
    (hn : 0 < s.cfg.numHops) (hl : hop.length = nhop s.cfg) : (s.writeSlot b k hop).readSlot b k = hop := by
  apply eq_of_elem (by simp [State.readSlot, hl])
  intro i hi
  simp only [State.readSlot, State.writeSlot_cfg, length_tabulate] at hi ⊢
  rw [elem_tabulate_of_lt _ hi, State.slotElem_writeSlot s b b k _ i hop (slotOf_lt hn k) hi]
  simp

/-- A slot that is not written reads as before. -/
theorem readSlot_writeSlot_ne (s : State) (b b' : HopBuffer) (j k : Nat) (hop : List Word)
    (hn : 0 < s.cfg.numHops) (h : b' = b → slotOf s.cfg j ≠ slotOf s.cfg k) :
    (s.writeSlot b k hop).readSlot b' j = s.readSlot b' j := by
  simp only [State.readSlot, State.writeSlot_cfg]
  apply tabulate_congr
  intro i hi
  rw [State.slotElem_writeSlot s b b' k _ i hop (slotOf_lt hn j) hi]
  rw [if_neg]
  rintro ⟨hb, hs⟩
  exact h hb hs

/-- The capture queue depends on the capture side alone. -/
theorem waitingHops_capbuf_congr {s t : State} (hc : t.cfg = s.cfg) (hr : t.readPtr = s.readPtr)
    (hp : t.processReadPtr = s.processReadPtr) (hm : t.mem.slots .capbuf = s.mem.slots .capbuf) :
    waitingHops t .capbuf = waitingHops s .capbuf := by
  simp only [waitingHops, hr, hp, State.readSlot_congr hc hm]

/-- The playback queue depends on the playback side alone. -/
theorem waitingHops_playbuf_congr {s t : State} (hc : t.cfg = s.cfg) (hr : t.writePtr = s.writePtr)
    (hp : t.processWritePtr = s.processWritePtr) (hm : t.mem.slots .playbuf = s.mem.slots .playbuf) :
    waitingHops t .playbuf = waitingHops s .playbuf := by
  simp only [waitingHops, hr, hp, State.readSlot_congr hc hm]

/-- The oldest waiting hop and the rest. -/
theorem waitingHops_capbuf_cons {s : State} (h : s.processReadPtr < s.readPtr) :
    waitingHops s .capbuf = s.readSlot .capbuf s.processReadPtr ::
      waitingHops (s.setProcessReadPtr (s.processReadPtr + 1)) .capbuf := by
  obtain ⟨n, hn⟩ : ∃ n, s.readPtr - s.processReadPtr = n + 1 := ⟨s.readPtr - s.processReadPtr - 1, by omega⟩
  have hn' : s.readPtr - (s.processReadPtr + 1) = n := by omega
  simp only [waitingHops, State.setProcessReadPtr_readPtr, State.setProcessReadPtr_processReadPtr, hn, hn',
    List.range_succ_eq_map, List.map_cons, List.map_map, Nat.add_zero]
  congr 1
  apply List.map_congr_left
  intro k _
  simp only [Function.comp_apply, Nat.succ_eq_add_one]
  rw [show s.processReadPtr + (k + 1) = s.processReadPtr + 1 + k by omega]
  exact (State.readSlot_congr rfl rfl _).symm

theorem waitingHops_playbuf_cons {s : State} (h : s.writePtr < s.processWritePtr) :
    waitingHops s .playbuf = s.readSlot .playbuf s.writePtr ::
      waitingHops (s.setWritePtr (s.writePtr + 1)) .playbuf := by
  obtain ⟨n, hn⟩ : ∃ n, s.processWritePtr - s.writePtr = n + 1 := ⟨s.processWritePtr - s.writePtr - 1, by omega⟩
  have hn' : s.processWritePtr - (s.writePtr + 1) = n := by omega
  simp only [waitingHops, State.setWritePtr_processWritePtr, State.setWritePtr_writePtr, hn, hn',
    List.range_succ_eq_map, List.map_cons, List.map_map, Nat.add_zero]
  congr 1
  apply List.map_congr_left
  intro k _
  simp only [Function.comp_apply, Nat.succ_eq_add_one]
  rw [show s.writePtr + (k + 1) = s.writePtr + 1 + k by omega]
  exact (State.readSlot_congr rfl rfl _).symm

/-- Publishing a hop in a capture buffer with room appends it to the queue. -/
theorem waitingHops_capPushBody {s : State} (ho : s.processReadPtr ≤ s.readPtr)
    (hr : s.readPtr - s.processReadPtr < s.cfg.numHops) (hl : (s.win .capwin).length = nhop s.cfg) :
    waitingHops (capPushBody s) .capbuf = waitingHops s .capbuf ++ [s.win .capwin] := by
  have hn : 0 < s.cfg.numHops := by omega
  have hread : ∀ k, (capPushBody s).readSlot .capbuf k = (s.writeSlot .capbuf s.readPtr (s.win .capwin)).readSlot .capbuf k :=
    fun k => State.readSlot_congr rfl rfl k
  have hlen : (capPushBody s).readPtr - (capPushBody s).processReadPtr = s.readPtr - s.processReadPtr + 1 := by
    simp only [capPushBody, State.setReadPtr_readPtr, State.setReadPtr_processReadPtr, State.writeSlot_processReadPtr]
    omega
  simp only [waitingHops, hlen, List.range_succ, List.map_append, List.map_cons, List.map_nil, hread]
  congr 1
  · apply List.map_congr_left
    intro k hk
    have hk := List.mem_range.mp hk
    exact readSlot_writeSlot_ne s _ _ _ _ _ hn fun _ =>
      slotOf_ne (c := s.cfg) (a := s.processReadPtr + k) (b := s.readPtr) (by omega) (by omega)
  · rw [show (capPushBody s).processReadPtr + (s.readPtr - s.processReadPtr) = s.readPtr by
      show s.processReadPtr + _ = _; omega]
    rw [readSlot_writeSlot_same s _ _ _ hn hl]

theorem waitingHops_playPushBody {s : State} (ho : s.writePtr ≤ s.processWritePtr)
    (hr : s.processWritePtr - s.writePtr < s.cfg.numHops) (hl : (s.win .nout).length = nhop s.cfg) :
    waitingHops (playPushBody s) .playbuf = waitingHops s .playbuf ++ [s.win .nout] := by
  have hn : 0 < s.cfg.numHops := by omega
  have hread : ∀ k, (playPushBody s).readSlot .playbuf k =
      (s.writeSlot .playbuf s.processWritePtr (s.win .nout)).readSlot .playbuf k :=
    fun k => State.readSlot_congr rfl rfl k
  have hlen : (playPushBody s).processWritePtr - (playPushBody s).writePtr = s.processWritePtr - s.writePtr + 1 := by
    simp only [playPushBody, State.setProcessWritePtr_processWritePtr, State.setProcessWritePtr_writePtr,
      State.writeSlot_writePtr]
    omega
  simp only [waitingHops, hlen, List.range_succ, List.map_append, List.map_cons, List.map_nil, hread]
  congr 1
  · apply List.map_congr_left
    intro k hk
    have hk := List.mem_range.mp hk
    exact readSlot_writeSlot_ne s _ _ _ _ _ hn fun _ =>
      slotOf_ne (c := s.cfg) (a := s.writePtr + k) (b := s.processWritePtr) (by omega) (by omega)
  · rw [show (playPushBody s).writePtr + (s.processWritePtr - s.writePtr) = s.processWritePtr by
      show s.writePtr + _ = _; omega]
    rw [readSlot_writeSlot_same s _ _ _ hn hl]

end Sys2Proof.Machine
end

