-- ==== Sys2Proof/Tests/Slice0.lean ====
section
/-! SUPPORT. Tests. Expected values come from `spec/`: the words are written out from the encoding of
30_encoding.md R92 and R97, the results are the vectors of 95_test_vectors.md, whose name each test cites. The
`witness_` theorems show states and operands that meet the hypotheses of the statement they are named after. -/

namespace Sys2Proof.Tests

open Sys2Proof.Machine

/-! One declaration after the other: elaborated all at once, the kernel evaluations below ask for more threads
than the memory limit of the checks allows. -/

set_option Elab.async false

/-! ## Helpers -/

/-- Configuration T with one fixed quiet NaN (0x7FC00000). -/
def cfgT : Cfg := { Config.testT with arith := .ieee (.fixed 0) }

/-- Configuration T after reset. -/
def fresh : State := State.resetOf cfgT

/-- The answer is a next state with the property. -/
def holds (o : StepResult) (p : State → Bool) : Bool :=
  match o with
  | .next t => p t
  | .fault _ => false
  | .refused _ => false

/-- Four equal words. -/
def hop4 (v : Word) : List Word := List.replicate 4 v

/-- A hop of six equal words. -/
def hop6 (v : Word) : List Word := List.replicate 6 v

/-- One captured hop and one processed hop wait. -/
def busy : State := (fresh.setReadPtr 1).setProcessWritePtr 1

/-- `busy` with the event waiting. -/
def busyWith (e : Event) : State := busy.setEvents [e]

theorem inv_busy : Inv busy where
  config := by decide
  memory := by decide
  counters := ⟨by decide, by decide, by decide, by decide⟩
  fit := ⟨by decide, by decide, by decide, by decide⟩
  err := .inl rfl
  seq := .inl rfl
  result := ⟨.ok, rfl⟩
  iresult := ⟨.ok, rfl⟩

theorem inv_busyWith (e : Event) : Inv (busyWith e) where
  config := inv_busy.config
  memory := inv_busy.memory
  counters := ⟨inv_busy.counters.1, inv_busy.counters.2, inv_busy.counters.3, inv_busy.counters.4⟩
  fit := ⟨inv_busy.fit.1, inv_busy.fit.2, inv_busy.fit.3, inv_busy.fit.4⟩
  err := inv_busy.err
  seq := inv_busy.seq
  result := inv_busy.result
  iresult := inv_busy.iresult

theorem no_window_0x11 : ∀ w, windowId w ≠ 0x11 := by
  intro w
  cases w <;> decide

/-! ## WellFormed refuses -/


theorem test_wf_olaAcc : (Instr.olaAcc 2).wellFormed = false ∧ (Instr.olaAcc 1).wellFormed = true := by decide

theorem test_wf_bufRd :
    (Instr.bufRd 256 0).wellFormed = false ∧ (Instr.bufRd 0 65536).wellFormed = false ∧
    (Instr.bufRd 255 65535).wellFormed = true := by decide

theorem test_wf_bufWr :
    (Instr.bufWr 256 0).wellFormed = false ∧ (Instr.bufWr 0 65536).wellFormed = false ∧
    (Instr.bufWr 255 65535).wellFormed = true := by decide

theorem test_wf_iwinRd :
    (Instr.iwinRd 256 0).wellFormed = false ∧ (Instr.iwinRd 0 65536).wellFormed = false ∧
    (Instr.iwinRd 255 65535).wellFormed = true := by decide

theorem test_wf_iwinWr :
    (Instr.iwinWr 256 0).wellFormed = false ∧ (Instr.iwinWr 0 65536).wellFormed = false ∧
    (Instr.iwinWr 255 65535).wellFormed = true := by decide

/-! ## Decoding: every command's word, written out bit by bit from 30_encoding.md R92, R96, R97 -/

theorem test_decode_sysNop : decode 0b00000000000000000000000000000000 = .ok .sysNop := rfl

theorem test_decode_sysSetup : decode 0b00000000000000000000000000000001 = .ok .sysSetup := rfl

theorem test_decode_capPop : decode 0b00000000000000000000000000010000 = .ok .capPop := rfl

theorem test_decode_playPush : decode 0b00000000000000000000000000010001 = .ok .playPush := rfl

theorem test_decode_rsDec : decode 0b00000000000000000000000000100000 = .ok .rsDec := rfl

theorem test_decode_rsInt : decode 0b00000000000000000000000000100001 = .ok .rsInt := rfl

theorem test_decode_frmPush : decode 0b00000000000000000000000000110000 = .ok .frmPush := rfl

theorem test_decode_fftAnalyze : decode 0b00000000000000000000000001000000 = .ok .fftAnalyze := rfl

theorem test_decode_fftMsyn : decode 0b00000000000000000000000001000001 = .ok .fftMsyn := rfl

theorem test_decode_olaAcc : decode 0b00000000000000000000000101010000 = .ok (.olaAcc 1) := rfl

theorem test_decode_olaEmit : decode 0b00000000000000000000000001010001 = .ok .olaEmit := rfl

theorem test_decode_seqStep : decode 0b00000000000000000000000001100000 = .ok .seqStep := rfl

theorem test_decode_bufRd : decode 0b00000000000000010000101001110000 = .ok (.bufRd 0x0A 1) := rfl

theorem test_decode_bufWr : decode 0b00000000000000100000101101110001 = .ok (.bufWr 0x0B 2) := rfl

theorem test_decode_capPush : decode 0b00000000000000000000000010000000 = .ok .capPush := rfl

theorem test_decode_playPop : decode 0b00000000000000000000000010000001 = .ok .playPop := rfl

theorem test_decode_iwinRd : decode 0b00000000000001010010000010010000 = .ok (.iwinRd 0x20 5) := rfl

theorem test_decode_iwinWr : decode 0b00000000000000000010000110010001 = .ok (.iwinWr 0x21 0) := rfl

/-- 95_test_vectors.md E12, E13, E37, E38, E40, E41. -/
theorem test_decode_illegal :
    decode 0x00000250 = .error .reservedSelect ∧ decode 0x00010050 = .error .nonzeroField ∧
    decode 0x00000002 = .error .unassignedOp ∧ decode 0x000000FF = .error .unassignedOp ∧
    decode 0x00000110 = .error .nonzeroField ∧ decode 0x00010060 = .error .nonzeroField := ⟨rfl, rfl, rfl, rfl, rfl, rfl⟩

/-- The bytes of a word lie least significant first (20_memory.md R62). -/
theorem test_decode_bytes : decodeBytes [0x71, 0x0B, 0x02, 0x00] = some (.bufWr 0x0B 2) := by decide

/-- A table row's bits go through the same decoder. -/
theorem test_decodeTableWord : decodeTableWord 32 0x00010A70 = some (.bufRd 0x0A 1) := by decide

/-! ## One step of each command -/

/-- 95_test_vectors.md E1. -/
theorem test_sysNop :
    holds (exec .sysNop ((fresh.setErr 1).setResultReg 0x13)) (fun t => t == (fresh.setErr 1).setResultReg 0) = true := by decide +kernel

/-- 95_test_vectors.md X9, X10. -/
theorem test_sysSetup :
    holds (exec .sysSetup (((((fresh.setErr 1).setReadPtr 3).setProcessReadPtr 1).setPassThrough true).putWin .nin (hop6 1))) (fun t => t == fresh) = true := by decide +kernel

/-- 95_test_vectors.md H4: the oldest of two hops. -/
theorem test_capPop :
    holds (exec .capPop (((fresh.writeSlot .capbuf 0 (hop6 0x3F800000)).writeSlot .capbuf 1 (hop6 0x40000000)).setReadPtr 2)) (fun t => t.mem.nin == hop6 0x3F800000 &&
      t.processReadPtr == 1 && statusWord t == 0x001) = true := by decide +kernel

/-- 95_test_vectors.md H7. -/
theorem test_capPop_halted :
    holds (exec .capPop ((fresh.setErr 1).setReadPtr 3)) (fun t => t == ((fresh.setErr 1).setReadPtr 3).setResultReg 0x13) = true := by decide +kernel

/-- 95_test_vectors.md H10. -/
theorem test_playPush :
    holds (exec .playPush ((fresh.putWin .nout (hop6 0x40000000)).setProcessWritePtr 1)) (fun t => t.mem.playbuf == [hop6 0, hop6 0x40000000] &&
      t.processWritePtr == 2 && statusWord t == 0x00A) = true := by decide +kernel

/-- 95_test_vectors.md H11. -/
theorem test_playPush_overrun :
    holds (exec .playPush (fresh.setProcessWritePtr 2)) (fun t => t == ((fresh.setProcessWritePtr 2).setErr 0x02).setResultReg 0x20 &&
      statusWord t == 0x01A) = true := by decide +kernel

/-- 95_test_vectors.md RS2: the delay line joins the hops. -/
theorem test_rsDec :
    holds (exec .rsDec ((fresh.putWin .ddl [0x40400000, 0x40800000, 0x40A00000, 0x40C00000]).putWin .nin [0x40E00000, 0x41000000, 0x41100000, 0x41200000, 0x41300000, 0x41400000])) (fun t => t.mem.mhi == [0x40E00000, 0x41200000] &&
      t.mem.ddl == [0x41100000, 0x41200000, 0x41300000, 0x41400000]) = true := by decide +kernel

/-- 95_test_vectors.md RS6: sums start at `+0.0`, the delay line moves patterns. -/
theorem test_rsDec_minus_zero :
    holds (exec .rsDec (fresh.putWin .nin (hop6 0x80000000))) (fun t => t.mem.mhi == [0, 0] &&
      t.mem.ddl == List.replicate 4 0x80000000) = true := by decide +kernel

/-- 95_test_vectors.md RS9. -/
theorem test_rsInt :
    holds (exec .rsInt ((fresh.putWin .idl [0x41000000, 0x00000000, 0x00000000]).putWin .mho [0xC0000000, 0x40C00000])) (fun t => t.mem.nout ==
      [0x40400000, 0xC0000000, 0xC0000000, 0x40000000, 0x40C00000, 0x40C00000] && t.mem.idl == [0x40C00000, 0x00000000, 0x00000000]) = true := by decide +kernel

/-- 95_test_vectors.md RS11: subnormals are kept. -/
theorem test_rsInt_subnormal :
    holds (exec .rsInt (fresh.putWin .mho [2, 0])) (fun t => t.mem.nout == [1, 2, 2, 1, 0, 0]) = true := by decide +kernel

/-- 95_test_vectors.md F3. -/
theorem test_frmPush :
    holds (exec .frmPush ((fresh.putWin .aframe [0x40A00000, 0x41000000, 0x41500000, 0x41800000]).putWin .mhi [0x3F800000, 0xC1000000])) (fun t => t.mem.aframe == [0x41500000, 0x41800000, 0x3F800000, 0xC1000000]) = true := by decide +kernel

/-- 95_test_vectors.md F4: patterns are moved unchanged. -/
theorem test_frmPush_patterns :
    holds (exec .frmPush ((fresh.putWin .aframe [0x41500000, 0x41800000, 0x3F800000, 0xC1000000]).putWin .mhi [0x7FC00001, 0x80000000])) (fun t => t.mem.aframe ==
      [0x3F800000, 0xC1000000, 0x7FC00001, 0x80000000]) = true := by decide +kernel

/-- 95_test_vectors.md A9. -/
theorem test_fftAnalyze :
    holds (exec .fftAnalyze (fresh.putWin .aframe [0x00000000, 0x00000000, 0x3F900000, 0x40800000])) (fun t => t.mem.spec ==
      [0x40A40000, 0x00000000, 0xBF900000, 0x40800000, 0xC0380000, 0x00000000, 0xBF900000, 0xC0800000] &&
      t.mem.mag == [0x40240000, 0x4004F756, 0x3FB80000]) = true := by decide +kernel

/-- 95_test_vectors.md A8: a square overflows although the magnitude is finite. -/
theorem test_fftAnalyze_overflow :
    holds (exec .fftAnalyze (fresh.putWin .aframe (List.replicate 4 0x5E800000))) (fun t => t.mem.spec ==
      [0x5F800000, 0, 0, 0, 0, 0, 0, 0x80000000] && t.mem.mag == [0x7F800000, 0, 0]) = true := by decide +kernel

/-- 95_test_vectors.md M9. -/
theorem test_fftMsyn :
    holds (exec .fftMsyn ((fresh.putWin .spec 
      [0x40A40000, 0x00000000, 0xBF900000, 0x40800000, 0xC0380000, 0x00000000, 0xBF900000, 0xC0800000]).putWin .mask [0x3F800000, 0x3F000000, 0x00000000])) (fun t => t.mem.tframe ==
      [0x3F000000, 0x3E100000, 0x3F480000, 0x3F920000]) = true := by decide +kernel

/-- 95_test_vectors.md M8: the imaginary parts of bins 0 and 2 are ignored. -/
theorem test_fftMsyn_ignores :
    holds (exec .fftMsyn ((fresh.putWin .spec 
      [0x41200000, 0x40A00000, 0xC0000000, 0x40000000, 0xC0000000, 0x40E00000, 0xC0000000, 0xC0000000]).putWin .mask [0x3F800000, 0x3F800000, 0x3F800000])) (fun t => t.mem.tframe ==
      [0x3F000000, 0x3F800000, 0x3FC00000, 0x40000000]) = true := by decide +kernel

/-- 95_test_vectors.md O3: SFRAME is added first, TFRAME after it. -/
theorem test_olaAcc :
    holds (exec (.olaAcc 1) (((fresh.putWin .sframe [0x3F800000, 0x3F800000, 0x3F800000, 0x3F800000]).putWin .tframe [0x40000000, 0x40000000, 0x40000000, 0x40000000]).putWin .acc [0x3F800000, 0x3F800000, 0x3F800000, 0x3F800000])) (fun t => t.mem.acc == List.replicate 4 0x40400000) = true := by decide +kernel

/-- 95_test_vectors.md O2. -/
theorem test_olaAcc_specials :
    holds (exec (.olaAcc 0) ((fresh.putWin .acc [0x7F800000, 0x3F800000, 0x7F7FFFFF, 0]).putWin .sframe [0xFF800000, 0x40000000, 0x7F7FFFFF, 0x80000000])) (fun t => t.mem.acc ==
      [0x7FC00000, 0x40400000, 0x7F800000, 0]) = true := by decide +kernel

/-- 95_test_vectors.md O1, second frame. -/
theorem test_olaEmit :
    holds (exec .olaEmit (fresh.putWin .acc [0x41500000, 0x41C00000, 0x41F00000, 0x42200000])) (fun t => t.mem.mho == [0x41500000, 0x41C00000] &&
      t.mem.acc == [0x41F00000, 0x42200000, 0x00000000, 0x00000000]) = true := by decide +kernel

/-- The stages of Q2 on its first hop: `InferA` a mask and state plus 1, `InferB` half the frame and state plus 2. -/
def cfgQ2 : Cfg :=
  { cfgT with
    stageA := { known := [⟨[0x40D00000, 0x4096F196, 0x3FC00000], hop4 0, some ([0x3F800000, 0x3F000000, 0x00000000], hop4 0x3F800000)⟩], id := 0 }
    stageB := { known := [⟨[0x3F800000, 0x3F200000, 0x40100000, 0x40280000], hop4 0,
      some ([0x3F000000, 0x3EA00000, 0x3F900000, 0x3FA80000], hop4 0x40000000)⟩], id := 0 } }

/-- 95_test_vectors.md Q2, step 1. -/
theorem test_seqStep :
    holds (exec .seqStep ((State.resetOf cfgQ2 |>.writeSlot .capbuf 0 (hop6 0x41000000)).setReadPtr 1)) (fun t => t.mem.nout ==
      [0x3E800000, 0x3F000000, 0x3F000000, 0x3ED00000, 0x3EA00000, 0x3EA00000] &&
      t.mem.acc == [0x3F900000, 0x3FA80000, 0x00000000, 0x00000000] && t.mem.stateA == hop4 0x3F800000 &&
      t.mem.stateB == hop4 0x40000000 && t.mem.playbuf == [t.mem.nout, hop6 0] && t.seq == .idle && t.result == 0 &&
      (t.readPtr, t.processReadPtr, t.writePtr, t.processWritePtr) == (1, 1, 0, 1)) = true := by decide +kernel

/-- 95_test_vectors.md P4, step 2. -/
theorem test_seqStep_passThrough :
    holds (exec .seqStep (((((fresh.writeSlot .capbuf 1 (hop6 0x41800000)).setReadPtr 2).setProcessReadPtr 1).setPassThrough true
      |>.putWin .ddl (hop4 0x41000000) |>.putWin .aframe [0x00000000, 0x00000000, 0x40A00000, 0x41000000]
      |>.putWin .acc [0x40200000, 0x40800000, 0x00000000, 0x00000000]))) (fun t => 
      t.mem.mho == [0x41500000, 0x41800000] && t.mem.aframe == [0x40A00000, 0x41000000, 0x41500000, 0x41800000] &&
      t.mem.acc == [0x40200000, 0x40800000, 0x00000000, 0x00000000] && t.mem.idl == [0x41800000, 0x00000000, 0x00000000] &&
      t.mem.nout == [0x40D00000, 0x41500000, 0x41500000, 0x41680000, 0x41800000, 0x41800000] && t.result == 0) = true := by decide +kernel

/-- 95_test_vectors.md X1. -/
theorem test_bufRd :
    holds (exec (.bufRd 0x0A 1) (fresh.putWin .mag [0x40A00000, 0x3FB504F3, 0x3F800000])) (fun t => t.data == 0x3FB504F3 &&
      t.result == 0) = true := by decide +kernel

/-- 95_test_vectors.md E23. -/
theorem test_bufRd_coefficient :
    holds (exec (.bufRd 0x06 4) (fresh)) (fun t => t.data == 0x3E000000) = true := by decide +kernel

/-- 95_test_vectors.md X2. -/
theorem test_bufWr :
    holds (exec (.bufWr 0x0B 2) (fresh.setData 0x3F000000)) (fun t => t == (fresh.setData 0x3F000000).putWin .mask [0, 0, 0x3F000000]) = true := by decide +kernel

/-- 95_test_vectors.md E21. -/
theorem test_bufWr_readOnly :
    holds (exec (.bufWr 0x06 0) (fresh)) (fun t => t == fresh.setResultReg 0x12) = true := by decide +kernel

/-- 95_test_vectors.md H5: slot 2 mod 2. -/
theorem test_capPush :
    holds (exec .capPush ((((fresh.writeSlot .capbuf 0 (hop6 0x3F800000)).writeSlot .capbuf 1 (hop6 0x40000000)).setReadPtr 2
      |>.setProcessReadPtr 1 |>.putWin .capwin (hop6 0x40400000)))) (fun t => 
      t.mem.capbuf == [hop6 0x40400000, hop6 0x40000000] && t.readPtr == 3 && statusWord t == 0x005) = true := by decide +kernel

/-- 95_test_vectors.md H14: `IDX_BITS = 2`. -/
theorem test_capPush_indexOverflow :
    holds (exec .capPush ((State.resetOf { cfgT with idxBits := 2 } |>.setReadPtr 3).setProcessReadPtr 3)) (fun t => 
      t == (((State.resetOf { cfgT with idxBits := 2 } |>.setReadPtr 3).setProcessReadPtr 3).setErr 0x10).setIresult 0x23) = true := by decide +kernel

/-- 95_test_vectors.md P2, line 14. -/
theorem test_playPop :
    holds (exec .playPop ((fresh.writeSlot .playbuf 0 [0x3E800000, 0x3F000000, 0x3F000000, 0x3EA40000, 0x3E100000, 0x3E100000]).setProcessWritePtr 1)) (fun t => 
      t.mem.playwin == [0x3E800000, 0x3F000000, 0x3F000000, 0x3EA40000, 0x3E100000, 0x3E100000] && t.writePtr == 1) = true := by decide +kernel

/-- 95_test_vectors.md H8. -/
theorem test_playPop_empty :
    holds (exec .playPop (fresh)) (fun t => t == fresh.setIresult 0x01) = true := by decide +kernel

/-- 95_test_vectors.md P2, line 14: the fourth word read back. -/
theorem test_iwinRd :
    holds (exec (.iwinRd 0x21 3) (fresh.putWin .playwin [0x3E800000, 0x3F000000, 0x3F000000, 0x3EA40000, 0x3E100000, 0x3E100000])) (fun t => 
      t.idata == 0x3EA40000 && t.iresult == 0) = true := by decide +kernel

/-- 95_test_vectors.md E33. -/
theorem test_iwinRd_perm :
    holds (exec (.iwinRd 0x00 0) (fresh)) (fun t => t == fresh.setIresult 0x12) = true := by decide +kernel

/-- 95_test_vectors.md P2, line 1: the sixth word. -/
theorem test_iwinWr :
    holds (exec (.iwinWr 0x20 5) (fresh.setIdata 0x40C00000)) (fun t => t == (fresh.setIdata 0x40C00000).putWin .capwin [0x00000000, 0x00000000, 0x00000000, 0x00000000, 0x00000000, 0x40C00000]) = true := by decide +kernel

/-- 95_test_vectors.md E32. -/
theorem test_iwinWr_perm :
    holds (exec (.iwinWr 0x21 0) (fresh)) (fun t => t == fresh.setIresult 0x12) = true := by decide +kernel

/-! ## Steps -/

/-- 95_test_vectors.md E34 and E35: the other agent's port. -/
theorem test_wrong_port :
    holds (step (fresh.setEvents [.write .M 0x20 32 0x00000080])) (fun t => t == fresh.setResultReg 0x12) = true ∧
    holds (step (fresh.setEvents [.write .I 0x30 32 0x00000060])) (fun t => t == fresh.setIresult 0x12) = true := by decide +kernel

/-- 95_test_vectors.md P1, line 6: `STATUS` read while halted with a full capture buffer. -/
theorem test_status :
    holds (step ((((fresh.setErr 1).setReadPtr 3).setProcessReadPtr 1).setEvents [.read .M 0x04 32]))
    (fun t => t.readData == some 0x00000015) = true := by decide +kernel

/-- 95_test_vectors.md X13: bus errors. -/
theorem test_bus_error :
    step (fresh.setEvents [.read .I 0x24 32]) = .refused (.busError .notReadable) ∧
    step (fresh.setEvents [.write .M 0x30 32 0]) = .refused (.busError .notWritable) ∧
    step (fresh.setEvents [.read .M 0x2C 32]) = .refused (.busError .reserved) ∧
    step (fresh.setEvents [.read .M 0x04 16]) = .refused (.busError .width) ∧
    step (fresh.setEvents [.read .M 0x06 32]) = .refused (.busError .misaligned) := ⟨rfl, rfl, rfl, rfl, rfl⟩

/-- `withFetchWord` places the command on the port its word names: E29. -/
theorem test_withFetchWord :
    holds (step (fresh.withFetchWord 32 0x80)) (fun t => t.readPtr == 1 && t.iresult == 0) = true := by decide +kernel

/-- 00_scope.md R12: rounding to nearest even, at a tie below and above; `1 + 2^-24` and `1 + 3 * 2^-24`. -/
theorem test_add_ties :
    ieeeAdd (.fixed 0) 0x3F800000 0x33800000 = 0x3F800000 ∧ ieeeAdd (.fixed 0) 0x3F800001 0x33800000 = 0x3F800002 := by decide +kernel
/-! ## Witnesses: encoding and steps -/

theorem witness_DecodeInvertsEncode :
    (Instr.iwinWr 255 65535).wellFormed = true ∧ (Instr.olaAcc 1).wellFormed = true := by decide +kernel

theorem witness_EncodeInvertsDecode :
    decode 0xFFFFFF91 = .ok (.iwinWr 255 65535) ∧ decode 0x00000150 = .ok (.olaAcc 1) := ⟨rfl, rfl⟩

theorem witness_DecodeFollowsOpcodeTable :
    opcodeTable[17]? = some (0x91, 0xFF) ∧ rowSelects (0x91, 0xFF) 0xFFFFFF91 = true ∧
    opcodeTable[13]? = some (0x71, 0xFF) ∧ rowSelects (0x71, 0xFF) 0x00020B71 = true := by decide +kernel

/-- The last word of each kind: unassigned `op`, a set bit in `idx`, a set bit in `a`, `OLA.ACC` with `a = 2`. -/
theorem witness_IllegalWordsAreRefused :
    (∃ e, decode 0x00000092 = .error e) ∧ (∃ e, decode 0x00010081 = .error e) ∧
    (∃ e, decode 0x00000181 = .error e) ∧ ∃ e, decode 0x00000250 = .error e :=
  ⟨⟨_, rfl⟩, ⟨_, rfl⟩, ⟨_, rfl⟩, ⟨_, rfl⟩⟩

theorem witness_StepRunsDecodedCommand :
    cfgValid (busyWith (commandWrite cfgT .I 0x80)).cfg = true ∧ decode 0x80 = .ok .capPush ∧
    (busyWith (commandWrite cfgT .I 0x80)).events = commandWrite cfgT (Instr.capPush).port 0x80 :: [] :=
  ⟨by decide +kernel, rfl, rfl⟩

theorem witness_StepRefusesOtherPortsCommand :
    cfgValid cfgT = true ∧ decode 0x80 = .ok .capPush ∧ (Instr.capPush).port = .I ∧
    (busyWith (commandWrite cfgT .M 0x80)).events = commandWrite cfgT .M 0x80 :: [] ∧
    decode 0x60 = .ok .seqStep ∧ (Instr.seqStep).port = .M ∧
    (busyWith (commandWrite cfgT .I 0x60)).events = commandWrite cfgT .I 0x60 :: [] :=
  ⟨by decide +kernel, rfl, rfl, rfl, rfl, rfl, rfl⟩

/-- The last readable register, and the last offset of the block. -/
theorem witness_BusReadsFollowTheRegisterMap :
    cfgValid cfgT = true ∧ (busyWith (.read .I 0x64 32)).events = .read .I 0x64 32 :: [] ∧
    (∀ cause, step (busyWith (.read .I 0x64 32)) ≠ .refused (.busError cause)) ∧
    step (busyWith (.read .I 0x7C 32)) = .refused (.busError .reserved) := by
  refine ⟨by decide +kernel, rfl, fun cause h => ?_, rfl⟩
  have h' : Host.Outcome.next _ = (Host.Outcome.refused _ : StepResult) := h
  cases h'

theorem witness_BusWritesFollowTheRegisterMap :
    cfgValid cfgT = true ∧ (busyWith (.write .M 0x24 32 5)).events = .write .M (cfgT.base + 0x24) 32 5 :: [] ∧
    (busyWith (.write .I 0x34 32 5)).events = .write .I (cfgT.base + 0x34) 32 5 :: [] ∧
    step (busyWith (.write .I 0x24 32 5)) = .refused (.busError .notWritable) :=
  ⟨by decide +kernel, rfl, rfl, rfl⟩

/-- Every counter at its largest value. -/
theorem witness_RegistersReadTheirContents :
    let s := (((fresh.setReadPtr (2 ^ 32 - 1)).setProcessReadPtr (2 ^ 32 - 1)).setWritePtr (2 ^ 32 - 1)).setProcessWritePtr
      (2 ^ 32 - 1)
    cfgValid s.cfg = true ∧ CountersFit s := ⟨by decide +kernel, by decide +kernel, by decide +kernel, by decide +kernel, by decide +kernel⟩

theorem witness_ToggleResetAndWaiting :
    cfgValid cfgT = true ∧ (busyWith .toggle).events = .toggle :: [] ∧ (busyWith .reset).events = .reset :: [] ∧
    busy.events = [] := ⟨by decide +kernel, rfl, rfl, rfl⟩

/-- A state of each kind, just past the constraint it breaks. -/
theorem witness_InvalidConfigurationIsRefused :
    (State.resetOf { cfgT with ratio := 0 }).cfg.ratio < 1 ∧
    (State.resetOf { cfgT with frameSize := 6 }).cfg.frameSize ≠ (State.resetOf { cfgT with frameSize := 6 }).cfg.fftSize ∧
    2 ^ (State.resetOf { cfgT with idxBits := 1 }).cfg.idxBits ≤ (State.resetOf { cfgT with idxBits := 1 }).cfg.numHops ∧
    65536 < nhop (State.resetOf { cfgT with hopSize := 21846 }).cfg ∧
    65536 < windowLen (State.resetOf { cfgT with decTaps := 65537 }).cfg .dcoef ∧
    isPositiveFinite (State.resetOf { cfgT with magScale := 0 }).cfg.magScale = false ∧
    isPositiveFinite (State.resetOf { cfgT with ifftScale := 0x7F800000 }).cfg.ifftScale = false := by
  refine ⟨?_, ?_, ?_, ?_, ?_, ?_, ?_⟩ <;> decide +kernel

/-! ## Witnesses: every command -/

theorem witness_HaltedBlockRefusesCommands :
    runsWhileHalted .capPop = false ∧ halted (fresh.setErr 0x10) = true := by decide +kernel

/-- `R_EMPTY`, `E_RANGE`, `E_PERM`, `E_HALTED`. -/
theorem witness_RefusedCommandChangesOnlyResult :
    exec .capPop fresh = .next (fresh.setResultReg 0x01) ∧
    exec (.bufRd 0x11 0) fresh = .next (fresh.setResultReg 0x11) ∧
    exec (.iwinWr 0x21 0) fresh = .next (fresh.setIresult 0x12) ∧
    exec .playPop (fresh.setErr 1) = .next ((fresh.setErr 1).setIresult 0x13) := ⟨rfl, rfl, rfl, rfl⟩

/-- The stage that fails on its first call. -/
def cfgFailA : Cfg := { cfgT with stageA := { known := [⟨[0, 0, 0], hop4 0, none⟩], id := 0 } }

/-- Stage A answers a mask, stage B fails. -/
def cfgFailB : Cfg :=
  { cfgT with
    stageA := { known := [⟨[0, 0, 0], hop4 0, some ([0, 0, 0], hop4 0)⟩], id := 0 }
    stageB := { known := [⟨hop4 0, hop4 0, none⟩], id := 0 } }

/-- No fault, and each of the five faults, in the ports and commands that can raise it. -/
theorem witness_FaultSetsOneErrBitAndItsCode :
    (∃ t, exec .capPop busy = .next t ∧ t.err = 0) ∧
    (∃ t, exec .capPush (fresh.setReadPtr 2) = .next t ∧ t.err = 0x01) ∧
    (∃ t, exec .playPush (fresh.setProcessWritePtr 2) = .next t ∧ t.err = 0x02) ∧
    (∃ t, exec .seqStep ((State.resetOf cfgFailA).setReadPtr 1) = .next t ∧ t.err = 0x04 ∧ t.seq = .inferringA) ∧
    (∃ t, exec .seqStep ((State.resetOf cfgFailB).setReadPtr 1) = .next t ∧ t.err = 0x08 ∧ t.seq = .inferringB) ∧
    (∃ t, exec .seqStep ((busy.setProcessWritePtr 2).setPassThrough true) = .next t ∧ t.err = 0x02 ∧ t.seq = .emitting) ∧
    ∃ t, exec .capPush ((fresh.setReadPtr (2 ^ 32 - 1)).setProcessReadPtr (2 ^ 32 - 1)) = .next t ∧ t.err = 0x10 :=
  ⟨⟨_, rfl, by decide +kernel⟩, ⟨_, rfl, by decide +kernel⟩, ⟨_, rfl, by decide +kernel⟩, ⟨_, rfl, by decide +kernel⟩,
    ⟨_, rfl, by decide +kernel⟩, ⟨_, rfl, by decide +kernel⟩, ⟨_, rfl, by decide +kernel⟩⟩

theorem witness_OnlySetupClearsErr :
    ∃ t, exec .sysNop (fresh.setErr 0x08) = .next t ∧ (fresh.setErr 0x08).err ≠ 0 := ⟨_, rfl, by decide +kernel⟩

theorem witness_CountersHaveOneWriter :
    (∃ t, exec .capPush busy = .next t ∧ t.readPtr = 2) ∧ (∃ t, exec .capPop busy = .next t ∧ t.processReadPtr = 1) ∧
    (∃ t, exec .playPop busy = .next t ∧ t.writePtr = 1) ∧
    ∃ t, exec .playPush busy = .next t ∧ t.processWritePtr = 2 :=
  ⟨⟨_, rfl, by decide +kernel⟩, ⟨_, rfl, by decide +kernel⟩, ⟨_, rfl, by decide +kernel⟩, ⟨_, rfl, by decide +kernel⟩⟩

theorem witness_AgentsKeepToTheirState :
    (∃ t, exec .capPush busy = .next t) ∧ (Instr.capPush).port = .I ∧
    (∃ t, exec .seqStep busy = .next t) ∧ (Instr.seqStep).port = .M := ⟨⟨_, rfl⟩, rfl, ⟨_, rfl⟩, rfl⟩

/-- Two states that differ in what agent M owns alone. -/
theorem witness_InterruptCommandsIgnoreMainLoopState :
    let s := busy
    let u := ((busy.putWin .nin (hop6 7)).setData 9).setPassThrough true
    (∃ s', exec .capPush s = .next s') ∧ (∃ u', exec .capPush u = .next u') ∧ (Instr.capPush).port = .I ∧ u ≠ s ∧
    u = { s with mem := { u.mem with capbuf := s.mem.capbuf, playbuf := s.mem.playbuf,
                                     capwin := s.mem.capwin, playwin := s.mem.playwin },
                 data := u.data, result := u.result, seq := u.seq, passThrough := u.passThrough } :=
  ⟨⟨_, rfl⟩, ⟨_, rfl⟩, rfl, by decide +kernel, rfl⟩

theorem witness_SysSetupLeavesResetState : ∃ t, exec .sysSetup (busy.setErr 0x10) = .next t := ⟨_, rfl⟩

theorem witness_ResetLeavesZeroState :
    cfgValid cfgT = true ∧ fresh.peek (.slot .capbuf 1 5) = some 0 ∧ fresh.peek (.win .spec 7) = some 0 := by decide +kernel

/-! ## Witnesses: hop buffers -/

/-- The largest index; the largest fill; one slot short of it. -/
theorem witness_CapPushPublishesOneHop :
    let s1 := (fresh.setReadPtr (2 ^ 32 - 1)).setProcessReadPtr (2 ^ 32 - 1)
    let s2 := fresh.setReadPtr 2
    let s3 := fresh.setReadPtr 1
    s1.err = 0 ∧ s1.readPtr = 2 ^ s1.cfg.idxBits - 1 ∧
    s2.err = 0 ∧ s2.readPtr ≠ 2 ^ s2.cfg.idxBits - 1 ∧ s2.cfg.numHops ≤ s2.readPtr - s2.processReadPtr ∧
    s3.err = 0 ∧ s3.readPtr ≠ 2 ^ s3.cfg.idxBits - 1 ∧ s3.readPtr - s3.processReadPtr < s3.cfg.numHops := by decide +kernel

theorem witness_CapPopConsumesOldestHop :
    fresh.err = 0 ∧ fresh.readPtr ≤ fresh.processReadPtr ∧ busy.err = 0 ∧ busy.processReadPtr < busy.readPtr := by
  decide +kernel

theorem witness_PlayPushPublishesOneHop :
    let s1 := (fresh.setProcessWritePtr (2 ^ 32 - 1)).setWritePtr (2 ^ 32 - 1)
    let s2 := fresh.setProcessWritePtr 2
    let s3 := fresh.setProcessWritePtr 1
    s1.err = 0 ∧ s1.processWritePtr = 2 ^ s1.cfg.idxBits - 1 ∧
    s2.err = 0 ∧ s2.processWritePtr ≠ 2 ^ s2.cfg.idxBits - 1 ∧ s2.cfg.numHops ≤ s2.processWritePtr - s2.writePtr ∧
    s3.err = 0 ∧ s3.processWritePtr ≠ 2 ^ s3.cfg.idxBits - 1 ∧ s3.processWritePtr - s3.writePtr < s3.cfg.numHops := by
  decide +kernel

theorem witness_PlayPopConsumesOldestHop :
    fresh.err = 0 ∧ fresh.processWritePtr ≤ fresh.writePtr ∧ busy.err = 0 ∧ busy.writePtr < busy.processWritePtr := by
  decide +kernel

theorem witness_HopBuffersAreFifoQueues :
    Inv busy ∧ (∃ t, exec .capPush busy = .next t) ∧ (∃ t, exec .capPop busy = .next t) ∧
    (∃ t, exec .playPush busy = .next t) ∧ (∃ t, exec .playPop busy = .next t) ∧
    (∃ t, exec .seqStep busy = .next t) ∧ Instr.capPush ≠ .sysSetup ∧
    (waitingHops busy .capbuf).length = 1 ∧ (waitingHops busy .playbuf).length = 1 :=
  ⟨inv_busy, ⟨_, rfl⟩, ⟨_, rfl⟩, ⟨_, rfl⟩, ⟨_, rfl⟩, ⟨_, rfl⟩, by decide, by decide +kernel, by decide +kernel⟩

theorem witness_ProducerAndConsumerCommute :
    Inv busy ∧ busy.err = 0 ∧ busy.processReadPtr < busy.readPtr ∧ busy.readPtr ≠ 2 ^ busy.cfg.idxBits - 1 ∧
    busy.readPtr - busy.processReadPtr < busy.cfg.numHops ∧ busy.writePtr < busy.processWritePtr ∧
    busy.processWritePtr ≠ 2 ^ busy.cfg.idxBits - 1 ∧ busy.processWritePtr - busy.writePtr < busy.cfg.numHops :=
  ⟨inv_busy, by decide +kernel, by decide +kernel, by decide +kernel, by decide +kernel, by decide +kernel, by decide +kernel, by decide +kernel⟩

/-! ## Witnesses: the hop in work -/

theorem witness_RsDecFiltersAndDecimates : cfgValid busy.cfg = true ∧ busy.err = 0 := by decide +kernel

theorem witness_RsIntStuffsAndFilters :
    let z : Nat → F32 := fun j => if j % 3 = 0 then busy.item .mho (j / 3) else 0
    cfgValid busy.cfg = true ∧ busy.err = 0 ∧
    ∀ m < busy.cfg.hopSize, z (busy.cfg.ratio * m) = busy.item .mho m ∧
      ∀ p, 1 ≤ p → p < busy.cfg.ratio → z (busy.cfg.ratio * m + p) = 0 := by
  refine ⟨by decide +kernel, by decide +kernel, fun m hm => ?_⟩
  have h2 : m < 2 := hm
  refine ⟨?_, fun p h1 h3 => ?_⟩
  · interval_cases m <;> rfl
  · have h3' : p < 3 := h3
    interval_cases m <;> interval_cases p <;> rfl

theorem witness_DecimationPersistsAcrossHops :
    cfgValid busy.cfg = true ∧ busy.err = 0 ∧ (hop6 1).length = nhop busy.cfg ∧ (hop6 2).length = nhop busy.cfg := by
  decide +kernel

theorem witness_InterpolationPersistsAcrossHops :
    cfgValid busy.cfg = true ∧ busy.err = 0 ∧ [(1 : Word), 2].length = busy.cfg.hopSize ∧
    [(3 : Word), 4].length = busy.cfg.hopSize := by decide +kernel

theorem witness_FrmPushSlidesTheFrame : cfgValid busy.cfg = true ∧ busy.err = 0 := by decide +kernel

/-- Three hops fill the frame of T; one hop leaves its first two elements before the first sample. -/
theorem witness_FrameHoldsTheLastSamples :
    cfgValid cfgT = true ∧ (∀ hop ∈ [[(1 : Word), 2], [3, 4], [5, 6]], hop.length = cfgT.hopSize) ∧
    cfgT.frameSize ≤ [[(1 : Word), 2], [3, 4], [5, 6]].length * cfgT.hopSize + 0 ∧
    (∀ hop ∈ [[(1 : Word), 2]], hop.length = cfgT.hopSize) ∧
    ¬cfgT.frameSize ≤ [[(1 : Word), 2]].length * cfgT.hopSize + 1 := by decide +kernel

theorem witness_FftAnalyzeFillsSpecAndMag : cfgValid busy.cfg = true ∧ busy.err = 0 := by decide +kernel

theorem witness_FftMsynSynthesizesMaskedBins : cfgValid busy.cfg = true ∧ busy.err = 0 := by decide +kernel

/-- A property of a list, tested element by element. -/
theorem all_of {α : Type} {l : List α} {p : α → Bool} (h : l.all p = true) : ∀ a ∈ l, p a = true :=
  List.all_eq_true.mp h

theorem silenceConfig_cfgT : SilenceConfig cfgT :=
  ⟨⟨_, rfl⟩, by decide, all_of (by decide +kernel), all_of (by decide +kernel)⟩

/-- Configuration T with replaced arithmetic. -/
def cfgCustom : Cfg := { cfgT with arith := .custom 0 }

/-- Zeros of both signs; the default arithmetic; replaced arithmetic with an argument that is not all zeros. -/
theorem witness_RfftLaws :
    cfgValid cfgT = true ∧ (∀ a ∈ [(0 : F32), 0x80000000, 0, 0], isZero a = true) ∧
    cfgT.transform = .reference ∧ (∃ r, cfgT.arith = .ieee r) ∧ cfgValid cfgCustom = true ∧
    cfgCustom.transform = .reference ∧ ∃ a ∈ [(0 : F32), 0x3F800000, 0, 0], isZero a = false :=
  ⟨by decide, all_of (by decide), rfl, ⟨_, rfl⟩, by decide, rfl, 0x3F800000, by simp, by decide⟩

/-- 43_spectral.md R167 (c): zeros of either sign give `+0.0`, with replaced arithmetic too. -/
theorem test_rfft_zeros_custom : rfft cfgCustom [0, 0x80000000, 0, 0] = [(0, 0), (0, 0), (0, 0)] := by decide +kernel

/-- A table entry that is an infinity is no rounded cosine (43_spectral.md R168): the configuration is refused. -/
theorem test_infinite_twiddle_refused :
    cfgValid { cfgT with twc := [0x3F800000, 0x7F800000, 0xBF800000, 0x00000000] } = false := by decide +kernel

/-- Zero bins of both signs; two lists of bins that differ in the imaginary parts of bins 0 and NF/2; the default
arithmetic; replaced arithmetic with a bin that is not zero. -/
theorem witness_IrfftLaws :
    let y : List (F32 × F32) := [(0, 0x80000000), (0x80000000, 0), (0, 0)]
    let y' : List (F32 × F32) := [(0, 7), (0x80000000, 0), (0, 9)]
    let z : List (F32 × F32) := [(0, 0), (0, 0x3F800000), (0, 0)]
    cfgValid cfgT = true ∧ y.length = cfgT.fftSize / 2 + 1 ∧ y'.length = cfgT.fftSize / 2 + 1 ∧
    (∀ b ∈ y, isZero b.1 = true ∧ isZero b.2 = true) ∧
    (∀ k ≤ cfgT.fftSize / 2, (bin y k).1 = (bin y' k).1 ∧
      (0 < k → k < cfgT.fftSize / 2 → (bin y k).2 = (bin y' k).2)) ∧
    cfgT.transform = .reference ∧ (∃ r, cfgT.arith = .ieee r) ∧ 0 < cfgT.fftSize ∧
    cfgValid cfgCustom = true ∧ cfgCustom.transform = .reference ∧ z.length = cfgCustom.fftSize / 2 + 1 ∧
    0 < 1 ∧ 1 < cfgCustom.fftSize / 2 ∧ isZero (bin z 1).2 = false :=
  ⟨by decide, by decide, by decide,
    fun b hb => by
      have h := all_of (p := fun b => isZero b.1 && isZero b.2) (by decide) b hb
      exact Bool.and_eq_true_iff.mp h,
    by decide, rfl, ⟨_, rfl⟩, by decide, by decide, rfl, by decide, by decide, by decide, by decide⟩

theorem witness_OlaAccAddsTheSelectedFrame : busy.err = 0 := by decide +kernel

theorem witness_OlaEmitShiftsOutOneHop : cfgValid busy.cfg = true ∧ busy.err = 0 := by decide +kernel

theorem witness_EmittedHopSumsOverlappingFrames :
    cfgValid cfgT = true ∧ [[(1 : Word), 2, 3, 4], [5, 6, 7, 8], [9, 10, 11, 12]] ≠ [] := by decide +kernel

theorem witness_FlushDeliversTheTail :
    let s := busy.putWin .acc [1, 2, 0, 0]
    cfgValid s.cfg = true ∧ s.err = 0 ∧
    (∀ i, s.cfg.frameSize - s.cfg.hopSize ≤ i → i < s.cfg.frameSize → s.item .acc i = 0) ∧
    0 < s.cfg.frameSize / s.cfg.hopSize - 1 := by
  refine ⟨by decide +kernel, by decide +kernel, fun i h1 h2 => ?_, by decide +kernel⟩
  have h1' : 2 ≤ i := h1
  have h2' : i < 4 := h2
  interval_cases i <;> rfl

/-! ## Witnesses: the sequencer -/

theorem witness_SeqStepWithNoHopDoesNothing : fresh.err = 0 ∧ fresh.readPtr ≤ fresh.processReadPtr := by decide +kernel

/-- A step that publishes, one that finds no room, one at the largest index. -/
theorem witness_PassThroughStepIsItsCommands :
    let s1 := busy.setPassThrough true
    let s2 := (busy.setPassThrough true).setProcessWritePtr 2
    let s3 := ((busy.setPassThrough true).setProcessWritePtr (2 ^ 32 - 1)).setWritePtr (2 ^ 32 - 1)
    (∀ s ∈ [s1, s2, s3], s.err = 0 ∧ s.passThrough = true ∧ s.processReadPtr < s.readPtr) ∧
    s1.processWritePtr - s1.writePtr < s1.cfg.numHops ∧ s2.cfg.numHops ≤ s2.processWritePtr - s2.writePtr ∧
    s3.processWritePtr = 2 ^ s3.cfg.idxBits - 1 := by decide +kernel

/-- A hop whose stage A fails, one whose stage B fails, one whose stages both answer. -/
theorem witness_FullChainStepIsStepManual :
    let sA := (State.resetOf cfgFailA).setReadPtr 1
    let sB := (State.resetOf cfgFailB).setReadPtr 1
    let sC := (State.resetOf cfgQ2).setReadPtr 1
    (∀ s ∈ [sA, sB, sC], s.err = 0 ∧ s.passThrough = false ∧ s.processReadPtr < s.readPtr) ∧
    inferA cfgFailA [0, 0, 0] (hop4 0) = none ∧ inferA cfgFailB [0, 0, 0] (hop4 0) = some ([0, 0, 0], hop4 0) ∧
    inferB cfgFailB (hop4 0) (hop4 0) = none ∧
    (inferB cfgQ2 [0x3F800000, 0x3F200000, 0x40100000, 0x40280000] (hop4 0)).isSome = true := by decide +kernel

theorem witness_PassThroughFreezesTheSpectralChain :
    (busy.setPassThrough true).passThrough = true ∧ ∃ t, exec .seqStep (busy.setPassThrough true) = .next t :=
  ⟨rfl, _, rfl⟩

/-- The sixteen all-zero frames of configuration T. -/
def zeroFrames : List (List F32) :=
  [(0 : F32), 0x80000000].flatMap fun a => [(0 : F32), 0x80000000].flatMap fun b =>
    [(0 : F32), 0x80000000].flatMap fun c => [(0 : F32), 0x80000000].map fun d => [a, b, c, d]

/-- Configuration T with a mask of ones for silence and an identity second stage for all-zero frames. -/
def cfgSilent : Cfg :=
  { cfgT with
    stageA := { known := [⟨[0, 0, 0], hop4 0, some ([0x3F800000, 0x3F800000, 0x3F800000], hop4 0)⟩], id := 0 }
    stageB := { known := zeroFrames.map fun x => ⟨x, hop4 0, some (x, hop4 0)⟩, id := 0 } }

/-- A hop of zeros captured, one processed hop of zeros waiting. -/
def silentState : State := ((State.resetOf cfgSilent).setReadPtr 1).setProcessWritePtr 1

theorem mem_zeroFrames {x : List F32} (hl : x.length = 4) (h : ∀ a ∈ x, isZero a = true) : x ∈ zeroFrames := by
  obtain ⟨a, b, c, d, rfl⟩ := List.length_eq_four.mp hl
  simp only [List.mem_cons, List.not_mem_nil, or_false, forall_eq_or_imp, forall_eq] at h
  obtain ⟨ha, hb, hc, hd⟩ := h
  rcases isZero_iff_eq.mp ha with rfl | rfl <;> rcases isZero_iff_eq.mp hb with rfl | rfl <;>
    rcases isZero_iff_eq.mp hc with rfl | rfl <;> rcases isZero_iff_eq.mp hd with rfl | rfl <;> decide +kernel

theorem silentStages_silentState : SilentStages silentState := by
  constructor
  · intro out st' h
    have e : inferA silentState.cfg (zeros (binCount silentState.cfg)) (silentState.win .stateA) =
        some ([0x3F800000, 0x3F800000, 0x3F800000], hop4 0) := by decide +kernel
    rw [e] at h
    cases h
    exact all_of (by decide)
  · intro frame out st' hl hz h
    have all : inferB silentState.cfg frame (silentState.win .stateB) = some (frame, hop4 0) :=
      eq_of_beq (all_of (p := fun x => inferB silentState.cfg x (silentState.win .stateB) == some (x, hop4 0))
        (by decide +kernel) frame (mem_zeroFrames hl hz))
    rw [all] at h
    cases h
    exact hz

theorem inv_silentState : Inv silentState where
  config := by decide +kernel
  memory := by decide +kernel
  counters := ⟨by decide +kernel, by decide +kernel, by decide +kernel, by decide +kernel⟩
  fit := ⟨by decide +kernel, by decide +kernel, by decide +kernel, by decide +kernel⟩
  err := .inl rfl
  seq := .inl rfl
  result := ⟨.ok, rfl⟩
  iresult := ⟨.ok, rfl⟩

theorem silent_silentState : Silent silentState where
  ddl := by unfold AllZero; decide +kernel
  idl := by unfold AllZero; decide +kernel
  aframe := by unfold AllZero; decide +kernel
  acc := by unfold AllPlusZero; decide +kernel
  captured hop hh a ha := eq_of_beq (all_of (all_of (p := fun hop => hop.all (· == 0)) (by decide +kernel) hop hh) a ha)
  processed hop hh a ha := eq_of_beq (all_of (all_of (p := fun hop => hop.all (· == 0)) (by decide +kernel) hop hh) a ha)

theorem witness_SilenceInSilenceOut :
    Inv silentState ∧ SilenceConfig silentState.cfg ∧ Silent silentState ∧ silentState.passThrough = false ∧
    SilentStages silentState ∧ (∃ t, exec .seqStep silentState = .next t) ∧ AllPlusZero silentState .capwin ∧
    ∃ t, exec .capPush silentState = .next t :=
  ⟨inv_silentState, ⟨⟨_, rfl⟩, by decide +kernel, silenceConfig_cfgT.2.2⟩, silent_silentState, rfl,
    silentStages_silentState, ⟨_, rfl⟩, by unfold AllPlusZero; decide +kernel, ⟨_, rfl⟩⟩

/-! ## Witnesses: window access -/

/-- The first id past M's windows, the first index past a window, its last index, another agent's window, a
read-only window. -/
theorem witness_BufRdLoadsData :
    (255 < 256 ∧ 65535 < 65536) ∧ (∀ w, windowId w ≠ 0x11) ∧ windowId .stateB = 0x10 ∧
    windowLen busy.cfg .stateB ≤ 4 ∧ 3 < windowLen busy.cfg .stateB ∧ 5 < windowLen busy.cfg .playwin := by
  exact ⟨by decide +kernel, no_window_0x11, rfl, by decide +kernel, by decide +kernel, by decide +kernel⟩

theorem witness_BufWrStoresData :
    (∀ w, windowId w ≠ 0x11) ∧ busy.err = 0 ∧ windowId .mask = 0x0B ∧ windowLen busy.cfg .mask ≤ 3 ∧
    2 < windowLen busy.cfg .mask ∧ Window.mask ∉ [Window.capwin, .playwin, .dcoef, .icoef] ∧
    4 < windowLen busy.cfg .dcoef ∧ Window.dcoef ∈ [Window.capwin, .playwin, .dcoef, .icoef] := by
  exact ⟨no_window_0x11, by decide +kernel, rfl, by decide +kernel, by decide +kernel, by decide +kernel, by decide +kernel, by decide +kernel⟩

theorem witness_IwinRdLoadsIdata :
    (∀ w, windowId w ≠ 0x11) ∧ windowId .playwin = 0x21 ∧ windowLen busy.cfg .playwin ≤ 6 ∧
    5 < windowLen busy.cfg .playwin ∧ 0 < windowLen busy.cfg .nin ∧ Window.nin ≠ .capwin ∧ Window.nin ≠ .playwin := by
  exact ⟨no_window_0x11, rfl, by decide +kernel, by decide +kernel, by decide +kernel, by decide +kernel, by decide +kernel⟩

theorem witness_IwinWrStoresIdata :
    (∀ w, windowId w ≠ 0x11) ∧ busy.err = 0 ∧ windowId .capwin = 0x20 ∧ windowLen busy.cfg .capwin ≤ 6 ∧
    5 < windowLen busy.cfg .capwin ∧ 5 < windowLen busy.cfg .playwin ∧ Window.playwin ≠ .capwin := by
  exact ⟨no_window_0x11, by decide +kernel, rfl, by decide +kernel, by decide +kernel, by decide +kernel, by decide +kernel⟩

/-! ## Witnesses: invariants and arithmetic -/

theorem witness_StepKeepsInvariant :
    Inv (busyWith (commandWrite cfgT .M 0x60)) ∧ Inv (busyWith .toggle) ∧ Inv (busyWith .reset) ∧
    (∃ t, step (busyWith .toggle) = .next t) ∧ (∃ t, step (busyWith .reset) = .next t) ∧
    ∃ t, step (busyWith (commandWrite cfgT .M 0x10)) = .next t :=
  ⟨inv_busyWith _, inv_busyWith _, inv_busyWith _, ⟨_, rfl⟩, ⟨_, rfl⟩, ⟨_, rfl⟩⟩

theorem witness_InvariantHoldsAtReset : cfgValid { cfgT with idxBits := 2 } = true := by decide +kernel

theorem witness_StepKeepsConfiguration : ∃ t, step (busyWith .toggle) = .next t := ⟨_, rfl⟩

/-- A finite sum that is a tie, and a sum that overflows, just past the largest finite value. -/
theorem witness_AddRoundsToNearestEven :
    isFinite 0x3F800001 = true ∧ isFinite 0x33800000 = true ∧
    isFinite (ieeeAdd (.fixed 0) 0x3F800001 0x33800000) = true ∧
    isFinite 0x7F7FFFFF = true ∧ isFinite 0x73000000 = true ∧
    isFinite (ieeeAdd (.fixed 0) 0x7F7FFFFF 0x73000000) = false := by decide +kernel

/-- A finite product that underflows to a subnormal, and one that overflows. -/
theorem witness_MulRoundsToNearestEven :
    isFinite 0x00800001 = true ∧ isFinite 0x3F000000 = true ∧
    isFinite (ieeeMul (.fixed 0) 0x00800001 0x3F000000) = true ∧
    isFinite 0x7F7FFFFF = true ∧ isFinite 0x3F800001 = true ∧
    isFinite (ieeeMul (.fixed 0) 0x7F7FFFFF 0x3F800001) = false := by decide +kernel

theorem witness_SqrtRoundsToNearest :
    isFinite 0x40000000 = true ∧ 0 ≤ units 0x40000000 ∧ isFinite 0x80000000 = true ∧ 0 ≤ units 0x80000000 := by
  decide +kernel

theorem witness_SpecialOperands :
    isNan 0x7F800001 = true ∧ isInf 0x7F800000 = true ∧ isInf 0xFF800000 = true ∧
    signBit 0x7F800000 ≠ signBit 0xFF800000 ∧ isZero 0x80000000 = true ∧ isNan 0xBF800000 = false ∧
    isZero 0xBF800000 = false ∧ signBit 0xBF800000 = true ∧ isFinite 0x7F7FFFFF = true ∧
    isNan (ieeeAdd (.fixed 0) 0x7F800000 0xFF800000) = true ∧ isNan (ieeeMul (.fixed 0) 0x7F800000 0) = true ∧
    isNan (ieeeSqrt (.fixed 0) 0xBF800000) = true := by decide +kernel

end Sys2Proof.Tests
end

section
/-! What the block refuses outright, a configuration that breaks a constraint of 00_scope.md R6; and the NaN and
infinite operands of the default arithmetic. -/

namespace Sys2Proof.Machine

/-- An illegal configuration stops every step, whatever event waits. -/
theorem step_of_not_cfgValid {s : State} (hv : cfgValid s.cfg ≠ true) : step s = .refused .invalidConfig := by
  rw [step, advance, if_neg hv]

/-- Settles O13: a legal configuration meets each constraint, so breaking any one makes it illegal. -/
theorem invalidConfigurationIsRefused : Obligations.InvalidConfigurationIsRefused := by
  unfold Obligations.InvalidConfigurationIsRefused
  intro s hbroken
  refine step_of_not_cfgValid fun hv => ?_
  have legal := legal_of_cfgValid hv
  rcases hbroken with h | h | h | h | h | h | h | h | h | h | h | ⟨w, h⟩ | h | h
  · exact absurd legal.ratio (by omega)
  · exact absurd legal.hopSize (by omega)
  · exact h legal.frameSize
  · exact h legal.even
  · exact absurd legal.fftSize (by omega)
  · exact h legal.hopDivides
  · exact absurd legal.numHops (by omega)
  · exact absurd legal.decTaps (by omega)
  · exact absurd legal.intTaps (by omega)
  · exact absurd legal.counters (by omega)
  · exact absurd legal.hop (by omega)
  · exact absurd (legal.windows w) (by omega)
  · exact absurd legal.magScale (by simp [h])
  · exact absurd legal.ifftScale (by simp [h])

/-! ### NaN and infinite operands of the default arithmetic (00_scope.md R12) -/

theorem isInf_iff {a : F32} : isInf a = true ↔ expField a = 255 ∧ fracField a = 0 := by simp [isInf]

theorem isNan_of_isInf {a : F32} (h : isInf a = true) : isNan a = false := by
  simp [isNan, (isInf_iff.mp h).2]

theorem isZero_of_isInf {a : F32} (h : isInf a = true) : isZero a = false := by
  simp [isZero, (isInf_iff.mp h).1]

theorem isInf_infOf (s : Bool) : isInf (infOf s) = true := by cases s <;> decide

theorem isNan_nanResult (r : NanRule) (op : FloatOp) (a b : F32) : isNan (nanResult r op a b) = true :=
  (nanResult_spec r op a b).1

theorem roundMag_le (n p : Nat) : roundMag n p ≤ 255 * 2 ^ 23 := min_le_right _ _

/-- Rounding never makes a NaN: it stops at infinity. -/
theorem isNan_withSign_roundMag (s : Bool) (n p : Nat) : isNan (withSign s (roundMag n p)) = false := by
  have hm := roundMag_le n p
  rw [isNan, expField_withSign (by omega), fracField_withSign (by omega)]
  simp only [Bool.and_eq_false_iff, beq_eq_false_iff_ne, bne_eq_false_iff_eq]
  omega

theorem isNan_addFinite (a b : F32) : isNan (addFinite a b) = false := by
  unfold addFinite
  split_ifs
  · exact isNan_withSign_roundMag _ _ _
  · exact isNan_withSign_roundMag _ _ _
  · exact isNan_withSign_roundMag _ _ _
  · decide

theorem isNan_sqrtFinite (a : F32) : isNan (sqrtFinite a) = false := isNan_withSign_roundMag _ _ _

/-- The only NaN a sum can be is the one the NaN rule chooses. -/
theorem ieeeAdd_isNan {r : NanRule} {a b : F32} (h : isNan (ieeeAdd r a b) = true) :
    ieeeAdd r a b = nanResult r .add a b := by
  unfold ieeeAdd at h ⊢
  split_ifs at h ⊢ with hnan hinf hinv hinfb
  · rfl
  · rfl
  · simp [isNan_of_isInf hinf] at h
  · simp [isNan_of_isInf hinfb] at h
  · simp [isNan_addFinite] at h

/-- The only NaN a product can be is the one the NaN rule chooses. -/
theorem ieeeMul_isNan {r : NanRule} {a b : F32} (h : isNan (ieeeMul r a b) = true) :
    ieeeMul r a b = nanResult r .mul a b := by
  unfold ieeeMul at h ⊢
  split_ifs at h ⊢
  · rfl
  · rfl
  · simp [isNan_of_isInf (isInf_infOf _)] at h
  · simp [isNan_withSign_roundMag] at h

/-- The only NaN a root can be is the one the NaN rule chooses. -/
theorem ieeeSqrt_isNan {r : NanRule} {a : F32} (h : isNan (ieeeSqrt r a) = true) :
    ieeeSqrt r a = nanResult r .sqrt a a := by
  unfold ieeeSqrt at h ⊢
  split_ifs at h ⊢ with hnan
  · rfl
  · exact absurd h hnan
  · rfl
  · exact absurd h hnan
  · simp [isNan_sqrtFinite] at h

theorem ieeeAdd_of_nan {r : NanRule} {a b : F32} (h : isNan a = true ∨ isNan b = true) :
    ieeeAdd r a b = nanResult r .add a b := by
  rw [ieeeAdd, if_pos (by simpa using h)]

theorem ieeeMul_of_nan {r : NanRule} {a b : F32} (h : isNan a = true ∨ isNan b = true) :
    ieeeMul r a b = nanResult r .mul a b := by
  rw [ieeeMul, if_pos (by simpa using h)]

theorem ieeeSqrt_of_nan {r : NanRule} {a : F32} (h : isNan a = true) : ieeeSqrt r a = nanResult r .sqrt a a := by
  rw [ieeeSqrt, if_pos h]

/-- `inf - inf` is invalid. -/
theorem ieeeAdd_inf_opposite {r : NanRule} {a b : F32} (ha : isInf a = true) (hb : isInf b = true)
    (hs : signBit a ≠ signBit b) : ieeeAdd r a b = nanResult r .add a b := by
  simp [ieeeAdd, isNan_of_isInf ha, isNan_of_isInf hb, ha, hb, hs]

theorem ieeeAdd_inf_finite {r : NanRule} {a b : F32} (ha : isInf a = true) (hb : isFinite b = true) :
    ieeeAdd r a b = a := by
  simp [ieeeAdd, isNan_of_isInf ha, isNan_of_isFinite hb, ha, isInf_of_isFinite hb]

theorem ieeeAdd_finite_inf {r : NanRule} {a b : F32} (ha : isInf a = true) (hb : isFinite b = true) :
    ieeeAdd r b a = a := by
  simp [ieeeAdd, isNan_of_isInf ha, isNan_of_isFinite hb, ha, isInf_of_isFinite hb]

/-- `inf * 0` is invalid, -/
theorem ieeeMul_inf_zero {r : NanRule} {a b : F32} (ha : isInf a = true) (hb : isZero b = true) :
    ieeeMul r a b = nanResult r .mul a b := by
  simp [ieeeMul, isNan_of_isInf ha, isNan_of_isFinite (isFinite_of_isZero hb), ha, hb]

/-- and so is `0 * inf`. -/
theorem ieeeMul_zero_inf {r : NanRule} {a b : F32} (ha : isInf a = true) (hb : isZero b = true) :
    ieeeMul r b a = nanResult r .mul b a := by
  simp [ieeeMul, isNan_of_isInf ha, isNan_of_isFinite (isFinite_of_isZero hb), ha, hb]

theorem ieeeMul_inf {r : NanRule} {a b : F32} (ha : isInf a = true) (hnan : isNan b = false)
    (hzero : isZero b = false) : ieeeMul r a b = infOf (signBit a != signBit b) := by
  simp [ieeeMul, isNan_of_isInf ha, isZero_of_isInf ha, ha, hnan, hzero]

/-- The root of a negative number, `-inf` among them, is invalid. -/
theorem ieeeSqrt_negative {r : NanRule} {a : F32} (hnan : isNan a = false) (hzero : isZero a = false)
    (hs : signBit a = true) : ieeeSqrt r a = nanResult r .sqrt a a := by
  simp [ieeeSqrt, hnan, hzero, hs]

/-- Settles O59, operand case by operand case. -/
theorem specialOperands : Obligations.SpecialOperands := by
  unfold Obligations.SpecialOperands
  intro r a b
  refine ⟨fun h => ⟨?_, ?_⟩, fun h => ?_, fun ha hb hs => ?_, fun ha hb => ⟨?_, ?_⟩, fun hnan hzero hs => ?_,
    fun ha hb => ⟨ieeeAdd_inf_finite ha hb, ieeeAdd_finite_inf ha hb⟩, fun ha hnan hzero => ?_,
    fun h => ?_, fun h => ?_, fun h => ?_⟩
  · rw [ieeeAdd_of_nan h]; exact isNan_nanResult _ _ _ _
  · rw [ieeeMul_of_nan h]; exact isNan_nanResult _ _ _ _
  · rw [ieeeSqrt_of_nan h]; exact isNan_nanResult _ _ _ _
  · rw [ieeeAdd_inf_opposite ha hb hs]; exact isNan_nanResult _ _ _ _
  · rw [ieeeMul_inf_zero ha hb]; exact isNan_nanResult _ _ _ _
  · rw [ieeeMul_zero_inf ha hb]; exact isNan_nanResult _ _ _ _
  · rw [ieeeSqrt_negative hnan hzero hs]; exact isNan_nanResult _ _ _ _
  · rw [ieeeMul_inf ha hnan hzero]; exact isInf_infOf _
  · rw [ieeeAdd_isNan h]; exact (nanResult_spec _ _ _ _).2
  · rw [ieeeMul_isNan h]; exact (nanResult_spec _ _ _ _).2
  · rw [ieeeSqrt_isNan h]; exact (nanResult_spec _ _ _ _).2

end Sys2Proof.Machine
end

section
/-! Rounding to nearest, ties to even (00_scope.md R12): what a rounded magnitude with a sign is as a
binary32 value, for any exact value `± n / 2^p` units. Sums and products are of this form, and so is a root
up to the digits it drops. -/

namespace Sys2Proof.Machine

/-! ### Magnitudes -/

/-- `m` are the magnitude bits nearest to `v` units, the even ones in a tie; they may lie past infinity's. -/
def NearestMag (m : Nat) (v : Real) : Prop :=
  ∀ x : Nat, |(magOf m : Real) - v| ≤ |(magOf x : Real) - v| ∧
    (|(magOf m : Real) - v| = |(magOf x : Real) - v| → magOf x ≠ magOf m → m % 2 = 0)

/-- Before its overflow check `roundMag` is nearest. -/
theorem roundMag_nearest (n p : Nat) :
    ∃ m, roundMag n p = min m (255 * 2 ^ 23) ∧ NearestMag m ((n : Real) / 2 ^ p) := by
  obtain ⟨m, r, q, hround, hmag, hparity, hclose, htie, hgrid, -⟩ := roundMag_spec n p
  refine ⟨m, hround, fun x => ?_⟩
  obtain ⟨hnear, heq⟩ := nearest_of_grid hclose hgrid x
  rw [hmag]
  push_cast
  exact ⟨hnear, fun h hne => by rw [hparity]; exact htie (heq h hne)⟩

/-- Rounding goes up past odd bits `k` exactly from the midpoint on. -/
theorem NearestMag.le_iff_of_odd {m k : Nat} {v : Real} (h : NearestMag m v) (hk : k % 2 = 1) :
    m ≤ k ↔ v < ((magOf k : Real) + magOf (k + 1)) / 2 := by
  have hstep : (magOf k : Real) < magOf (k + 1) := by exact_mod_cast magOf_lt_succ k
  constructor
  · intro hm
    by_contra hv
    have hle : (magOf m : Real) ≤ magOf k := by exact_mod_cast magOf_strictMono.monotone hm
    obtain ⟨hnear, htie⟩ := h (k + 1)
    rw [abs_of_neg (by linarith)] at hnear htie
    have hup : |(magOf (k + 1) : Real) - v| ≤ -((magOf k : Real) - v) := abs_le.mpr ⟨by linarith, by linarith⟩
    have hmk : m = k := magOf_strictMono.injective (by exact_mod_cast (by linarith : (magOf m : Real) = magOf k))
    subst hmk
    have := htie (by linarith) (magOf_lt_succ m).ne'
    omega
  · intro hv
    by_contra hm
    have hge : (magOf (k + 1) : Real) ≤ magOf m := by exact_mod_cast magOf_strictMono.monotone (by omega)
    obtain ⟨hnear, -⟩ := h k
    rw [abs_of_pos (by linarith : 0 < (magOf m : Real) - v)] at hnear
    have hdown : |(magOf k : Real) - v| < magOf (k + 1) - v := abs_lt.mpr ⟨by linarith, by linarith⟩
    linarith

/-- The overflow threshold `2^128 - 2^103` in units of `2^-149` (log 10). -/
def overflowUnits : Nat := (2 ^ 128 - 2 ^ 103) * 2 ^ 149

@[simp] theorem magOf_zero : magOf 0 = 0 := by decide

theorem magOf_largestFinite : magOf (255 * 2 ^ 23 - 1) = (2 ^ 24 - 1) * 2 ^ 253 :=
  magOf_normal (q := 253) (r := 2 ^ 24 - 1) (by decide) (by decide)

theorem magOf_infinity : magOf (255 * 2 ^ 23) = 2 ^ 24 * 2 ^ 253 :=
  magOf_normal (q := 253) (r := 2 ^ 24) (by decide) (by decide)

/-- The threshold is the midpoint of the largest finite magnitude and infinity's. -/
theorem magOf_largestFinite_add_infinity :
    magOf (255 * 2 ^ 23 - 1) + magOf (255 * 2 ^ 23) = overflowUnits * 2 := by
  rw [magOf_largestFinite, magOf_infinity, overflowUnits]
  norm_num

theorem NearestMag.finite_iff {m : Nat} {v : Real} (h : NearestMag m v) :
    m < 255 * 2 ^ 23 ↔ v < overflowUnits := by
  have hmid : ((magOf (255 * 2 ^ 23 - 1) : Real) + magOf (255 * 2 ^ 23 - 1 + 1)) / 2 = overflowUnits := by
    rw [div_eq_iff (by norm_num)]
    exact_mod_cast magOf_largestFinite_add_infinity
  rw [← hmid, ← h.le_iff_of_odd (by decide)]
  omega

/-- `roundMag` overflows from the threshold on. -/
theorem roundMag_lt_iff (n p : Nat) : roundMag n p < 255 * 2 ^ 23 ↔ n < overflowUnits * 2 ^ p := by
  obtain ⟨m, hround, hnear⟩ := roundMag_nearest n p
  have hfinite := hnear.finite_iff
  rw [div_lt_iff₀ (by positivity)] at hfinite
  rw [hround, min_lt_iff, or_iff_left (lt_irrefl _), hfinite]
  exact_mod_cast Iff.rfl

/-- Below the threshold `roundMag` is nearest. -/
theorem roundMag_nearest_of_lt {n p : Nat} (h : roundMag n p < 255 * 2 ^ 23) :
    NearestMag (roundMag n p) ((n : Real) / 2 ^ p) := by
  obtain ⟨m, hround, hnear⟩ := roundMag_nearest n p
  rwa [show roundMag n p = m by omega]

/-! ### Signed values -/

/-- `n` with a sign: the value of `withSign` over its magnitude. -/
def signed {α : Type} [Neg α] (s : Bool) (n : α) : α := if s then -n else n

theorem units_eq_signed (a : F32) : units a = signed (signBit a) (magUnits a : Int) := rfl

theorem cast_signed (s : Bool) (n : Int) : ((signed s n : Int) : Real) = signed s (n : Real) := by
  cases s <;> simp [signed]

theorem signed_div (s : Bool) (x y : Real) : signed s (x / y) = signed s x / y := by
  cases s <;> simp [signed, neg_div]

theorem abs_signed (s : Bool) (n : Int) : |signed s n| = |n| := by cases s <;> simp [signed]

theorem abs_signed_sub_signed (s : Bool) (x y : Real) : |signed s x - signed s y| = |x - y| := by
  cases s
  · rfl
  · rw [abs_sub_comm x y]
    simp [signed, neg_add_eq_sub]

theorem units_withSign {s : Bool} {m : Nat} (h : m < 2 ^ 31) : units (withSign s m) = signed s (magOf m : Int) := by
  rw [units_eq_signed, signBit_withSign h, magUnits_withSign h]

/-- From a value on its own side, `v` is as far as the magnitudes are apart; -/
theorem abs_units_sub_same {x : F32} {s : Bool} (hs : signBit x = s) (v : Real) :
    |(units x : Real) - signed s v| = |(magUnits x : Real) - v| := by
  rw [units_eq_signed, cast_signed, Int.cast_natCast, hs, abs_signed_sub_signed]

/-- from a value on the other side it is as far as both magnitudes together. -/
theorem abs_units_sub_opposite {x : F32} {s : Bool} (hs : signBit x ≠ s) {v : Real} (hv : 0 ≤ v) :
    |(units x : Real) - signed s v| = magUnits x + v := by
  have hx : (0 : Real) ≤ magUnits x := Nat.cast_nonneg _
  rw [units_eq_signed, cast_signed, Int.cast_natCast, Bool.eq_not_of_ne hs]
  cases s
  · rw [signed, signed, if_pos (by rfl), if_neg (by decide), abs_of_nonpos (by linarith)]
    ring
  · rw [signed, signed, if_neg (by decide), if_pos rfl, sub_neg_eq_add, abs_of_nonneg (by linarith)]

/-- `z` is a binary32 value nearest to `v` units. -/
def IsNearest (z : F32) (v : Real) : Prop :=
  ∀ x : F32, isFinite x = true → |(units z : Real) - v| ≤ |(units x : Real) - v|

/-- `z` is even, or no other binary32 value is as near to `v` units. -/
def TiesToEven (z : F32) (v : Real) : Prop :=
  ∀ x : F32, isFinite x = true → |(units z : Real) - v| = |(units x : Real) - v| → units x ≠ units z →
    fracField z % 2 = 0

theorem abs_units_withSign_sub {m : Nat} (hm : m < 2 ^ 31) (s : Bool) (v : Real) :
    |(units (withSign s m) : Real) - signed s v| = |(magOf m : Real) - v| := by
  rw [abs_units_sub_same (signBit_withSign hm), magUnits_withSign hm]

/-- A magnitude nearest among magnitudes is, with the sign of the exact value, nearest among all values. -/
theorem isNearest_withSign {m : Nat} {v : Real} (hm : m < 2 ^ 31) (hv : 0 ≤ v) (s : Bool)
    (h : ∀ x : Nat, |(magOf m : Real) - v| ≤ |(magOf x : Real) - v|) : IsNearest (withSign s m) (signed s v) := by
  intro x _
  rw [abs_units_withSign_sub hm]
  by_cases hs : signBit x = s
  · rw [abs_units_sub_same hs, magUnits_eq_magOf]
    exact h _
  · have hx : (0 : Real) ≤ magUnits x := Nat.cast_nonneg _
    have hzero := h 0
    rw [magOf_zero, Nat.cast_zero, zero_sub, abs_neg, abs_of_nonneg hv] at hzero
    rw [abs_units_sub_opposite hs hv]
    linarith

/-- A tie across zero is a tie with zero. -/
theorem tiesToEven_withSign {m : Nat} {v : Real} (hm : m < 2 ^ 31) (hv : 0 ≤ v) (s : Bool)
    (h : NearestMag m v) : TiesToEven (withSign s m) (signed s v) := by
  intro x _ htie hne
  rw [abs_units_withSign_sub hm] at htie
  rw [units_withSign hm] at hne
  suffices m % 2 = 0 by
    rw [fracField_withSign hm]
    omega
  by_cases hs : signBit x = s
  · rw [abs_units_sub_same hs, magUnits_eq_magOf] at htie
    refine (h (magBits x)).2 htie fun hmag => hne ?_
    rw [units_eq_signed, hs, magUnits_eq_magOf, hmag]
  · have hx : (0 : Real) ≤ magUnits x := Nat.cast_nonneg _
    obtain ⟨hzero, heven⟩ := h 0
    rw [magOf_zero, Nat.cast_zero, zero_sub, abs_neg, abs_of_nonneg hv] at hzero heven
    rw [abs_units_sub_opposite hs hv] at htie
    have hx0 : magUnits x = 0 := by exact_mod_cast (by linarith : (magUnits x : Real) = 0)
    refine heven (by linarith) fun hmag => hne ?_
    rw [units_eq_signed, hx0, ← hmag]
    simp [signed]

/-! ### What `roundMag` gives with a sign -/

section Rounded
variable {s : Bool} {n p : Nat}

theorem isFinite_rounded_iff : isFinite (withSign s (roundMag n p)) = true ↔ n < overflowUnits * 2 ^ p := by
  rw [isFinite_withSign (roundMag_le n p), roundMag_lt_iff]

/-- The same of the exact value `k` in units of `2^-p`. -/
theorem isFinite_rounded_iff_abs {k : Int} (hk : k = signed s (n : Int)) :
    isFinite (withSign s (roundMag n p)) = true ↔ |k| < (2 ^ 128 - 2 ^ 103) * 2 ^ 149 * 2 ^ p := by
  have hthreshold : ((overflowUnits : Nat) : Int) = (2 ^ 128 - 2 ^ 103) * 2 ^ 149 := by
    rw [overflowUnits]
    norm_num
  rw [isFinite_rounded_iff, hk, abs_signed, Nat.abs_cast, ← hthreshold]
  exact_mod_cast Iff.rfl

theorem signBit_rounded : signBit (withSign s (roundMag n p)) = s :=
  signBit_withSign (by have := roundMag_le n p; omega)

/-- Overflow gives the infinity of the sign. -/
theorem rounded_of_not_finite (h : isFinite (withSign s (roundMag n p)) = false) :
    withSign s (roundMag n p) = infOf s := by
  have hlt : ¬ roundMag n p < 255 * 2 ^ 23 := by
    rw [← isFinite_withSign (s := s) (roundMag_le n p), h]
    decide
  rw [infOf, le_antisymm (roundMag_le n p) (by omega)]

theorem infOf_eq (s : Bool) : infOf s = if s then 0xFF800000 else 0x7F800000 := by cases s <;> decide

/-- A finite result is nearest to the exact value, ties to even: `k` units of `2^-p` with whole numbers alone. -/
theorem rounded_nearestEven {k : Int} (hk : k = signed s (n : Int))
    (hfinite : isFinite (withSign s (roundMag n p)) = true) {x : F32} (hx : isFinite x = true) :
    |units (withSign s (roundMag n p)) * 2 ^ p - k| ≤ |units x * 2 ^ p - k| ∧
      (|units (withSign s (roundMag n p)) * 2 ^ p - k| = |units x * 2 ^ p - k| →
        units x ≠ units (withSign s (roundMag n p)) → fracField (withSign s (roundMag n p)) % 2 = 0) := by
  have hlt : roundMag n p < 255 * 2 ^ 23 := (isFinite_withSign (roundMag_le n p)).mp hfinite
  have hm : roundMag n p < 2 ^ 31 := by omega
  have hv : (0 : Real) ≤ n / 2 ^ p := by positivity
  have hpos : (0 : Real) < 2 ^ p := by positivity
  have hmag := roundMag_nearest_of_lt hlt
  have hnear := isNearest_withSign hm hv s (fun y => (hmag y).1) x hx
  have htie := tiesToEven_withSign hm hv s hmag x hx
  generalize withSign s (roundMag n p) = z at *
  have scale (y : F32) : ((|units y * 2 ^ p - k| : Int) : Real) =
      |(units y : Real) - signed s (n / 2 ^ p : Real)| * 2 ^ p := by
    rw [← abs_of_pos hpos, ← abs_mul, abs_of_pos hpos, sub_mul, signed_div, div_mul_cancel₀ _ hpos.ne', hk]
    push_cast
    rw [cast_signed, Int.cast_natCast]
  constructor
  · rw [← Int.cast_le (R := Real), scale, scale]
    exact mul_le_mul_of_nonneg_right hnear hpos.le
  · intro heq
    rw [← Int.cast_inj (α := Real), scale, scale] at heq
    exact htie (mul_right_cancel₀ hpos.ne' heq)

end Rounded

/-! ### Addition and multiplication -/

theorem signed_add_same (s : Bool) (m n : Nat) :
    signed s (m : Int) + signed s (n : Int) = signed s ((m + n : Nat) : Int) := by
  cases s <;> simp only [signed] <;> split_ifs <;> omega

/-- Of opposite signs the larger magnitude's wins. -/
theorem signed_add_opposite {s t : Bool} (hst : s ≠ t) {m n : Nat} (hnm : n ≤ m) :
    signed s (m : Int) + signed t (n : Int) = signed s ((m - n : Nat) : Int) := by
  rw [Bool.eq_not_of_ne hst.symm]
  cases s <;> simp [signed] <;> omega

/-- The default sum is the exact sum, rounded once. -/
theorem addFinite_eq_rounded (a b : F32) :
    ∃ s n, addFinite a b = withSign s (roundMag n 0) ∧ units a + units b = signed s (n : Int) := by
  unfold addFinite
  simp only [units_eq_signed]
  split_ifs with hsign hba hab
  · exact ⟨_, _, rfl, by rw [hsign, signed_add_same]⟩
  · exact ⟨_, _, rfl, signed_add_opposite hsign hba.le⟩
  · exact ⟨_, _, rfl, by rw [Int.add_comm, signed_add_opposite (Ne.symm hsign) hab.le]⟩
  · have hcancel := signed_add_opposite hsign (show magUnits b ≤ magUnits a by omega)
    rw [show magUnits a - magUnits b = 0 by omega] at hcancel
    exact ⟨false, 0, by rw [roundMag_zero]; rfl, hcancel.trans (by simp [signed])⟩

/-- The exact product of two finite values has the product of their signs. -/
theorem units_mul (a b : F32) :
    units a * units b = signed (signBit a != signBit b) ((magUnits a * magUnits b : Nat) : Int) := by
  rw [units_eq_signed, units_eq_signed]
  cases signBit a <;> cases signBit b <;> simp [signed]

/-- Settles O56: the sum is `roundMag` of the exact sum's magnitude with its sign. -/
theorem addRoundsToNearestEven : Obligations.AddRoundsToNearestEven := by
  unfold Obligations.AddRoundsToNearestEven
  intro r a b ha hb
  obtain ⟨s, n, hadd, hsum⟩ := addFinite_eq_rounded a b
  rw [ieeeAdd_of_finite ha hb, hadd]
  refine ⟨?_, fun hinf => ?_, fun hfinite x hx => ?_⟩
  · rw [isFinite_rounded_iff_abs hsum, pow_zero, mul_one]
  · have hn : 0 < n := by
      have hlarge : ¬ n < overflowUnits * 2 ^ 0 := by
        rw [← isFinite_rounded_iff (s := s), hinf]
        decide
      have : 0 < overflowUnits := by decide
      omega
    rw [rounded_of_not_finite hinf, infOf_eq, hsum]
    cases s <;> simp [signed, hn]
  · simpa only [pow_zero, mul_one] using rounded_nearestEven hsum hfinite hx

/-- Settles O57: the product is `roundMag` of the exact product's magnitude with its sign. -/
theorem mulRoundsToNearestEven : Obligations.MulRoundsToNearestEven := by
  unfold Obligations.MulRoundsToNearestEven
  intro r a b ha hb
  rw [ieeeMul_of_finite ha hb]
  refine ⟨isFinite_rounded_iff_abs (units_mul a b), fun hinf => ?_,
    fun hfinite => ⟨signBit_rounded, fun x hx => rounded_nearestEven (units_mul a b) hfinite hx⟩⟩
  rw [rounded_of_not_finite hinf, infOf_eq]
  cases signBit a <;> cases signBit b <;> rfl

end Sys2Proof.Machine
end

section
/-! The default square root (00_scope.md R12): the whole part of the root and one digit more, which says
whether the root goes on, are enough to round it. -/

namespace Sys2Proof.Machine

theorem magUnits_eq_zero_iff {a : F32} : magUnits a = 0 ↔ isZero a = true := by
  refine ⟨fun h => ?_, magUnits_of_isZero⟩
  rw [magUnits_eq_magOf, ← magOf_zero, magOf_strictMono.injective.eq_iff, magBits] at h
  exact isZero_iff.mpr ⟨by omega, by omega⟩

theorem magUnits_lt_of_isFinite {a : F32} (h : isFinite a = true) : magUnits a < 2 ^ 24 * 2 ^ 253 := by
  rw [← magOf_infinity, magUnits_eq_magOf]
  apply magOf_strictMono
  have hne : expField a ≠ 255 := by simpa [isFinite] using h
  have := expField_lt a
  have := fracField_lt a
  rw [magBits]
  omega

/-- The digits that `sqrtFinite` rounds: the whole part of the root of `x`, then 1 when the root goes on. -/
def rootDigits (x : Nat) : Nat := 2 * isqrt x + (if isqrt x * isqrt x = x then 0 else 1)

theorem sqrtFinite_eq (a : F32) :
    sqrtFinite a = withSign false (roundMag (rootDigits (magUnits a * 2 ^ 149)) 1) := by
  simp only [sqrtFinite, rootDigits]

/-- Half of an odd number past `2^25` lies halfway between no two binary32 magnitudes: they are even there. -/
theorem roundMag_odd_nearest {n : Nat} (hodd : n % 2 = 1) (hn : 2 ^ 25 < n)
    (hlt : roundMag n 1 < 255 * 2 ^ 23) {x : Nat} (hx : magOf x ≠ magOf (roundMag n 1)) :
    |(magOf (roundMag n 1) : Real) - n / 2| < |(magOf x : Real) - n / 2| := by
  obtain ⟨m, r, q, hround, hmag, -, hclose, -, hgrid, hupper⟩ := roundMag_spec n 1
  rw [pow_one] at hclose hgrid hupper
  rw [show roundMag n 1 = m by omega, hmag] at hx ⊢
  push_cast
  obtain ⟨hnear, htie⟩ := nearest_of_grid hclose hgrid x
  refine lt_of_le_of_ne hnear fun heq => ?_
  have hhalf := htie heq hx
  cases q with
  | zero =>
    have hnR : (2 ^ 25 : Real) < n := by exact_mod_cast hn
    norm_num at hupper
    linarith
  | succ q =>
    have hdouble : |(r : Real) * 2 ^ (q + 2) - n| = 2 ^ (q + 1) := by
      have : (r : Real) * 2 ^ (q + 2) - n = 2 * (r * 2 ^ (q + 1) - n / 2) := by ring
      rw [this, abs_mul, hhalf, abs_two]
      ring
    have hint : |(r : Int) * 2 ^ (q + 2) - n| = 2 ^ (q + 1) := by exact_mod_cast hdouble
    rw [show (r : Int) * 2 ^ (q + 2) = 2 * (2 * (r * 2 ^ q)) by ring,
      show (2 : Int) ^ (q + 1) = 2 * 2 ^ q by ring] at hint
    generalize (r : Int) * 2 ^ q = u at hint
    generalize (2 : Int) ^ q = w at hint
    rcases abs_choice (2 * (2 * u) - (n : Int)) with h | h <;> omega

/-- Between two whole numbers in a row, which of two others is nearer is decided at the middle. -/
theorem nearer_of_nearer_middle {a b i : Nat} {w : Real}
    (h : |(a : Real) - (i + 1 / 2)| < |(b : Real) - (i + 1 / 2)|) (hlow : (i : Real) ≤ w) (hup : w ≤ i + 1) :
    |(a : Real) - w| ≤ |(b : Real) - w| := by
  rw [← sq_lt_sq] at h
  rw [← sq_le_sq]
  rcases lt_trichotomy a b with hab | rfl | hab
  · have habR : (a : Real) < b := by exact_mod_cast hab
    have hsum : (2 * i + 1 : Real) < a + b := by nlinarith
    have hsumN : 2 * i + 1 < a + b := by exact_mod_cast hsum
    have hmid : (2 * i + 2 : Real) ≤ a + b := by exact_mod_cast hsumN
    nlinarith
  · exact le_rfl
  · have habR : (b : Real) < a := by exact_mod_cast hab
    have hsum : (a + b : Real) < 2 * i + 1 := by nlinarith
    have hsumN : a + b < 2 * i + 1 := by exact_mod_cast hsum
    have hmid : (a + b : Real) ≤ 2 * i := by exact_mod_cast (by omega : a + b ≤ 2 * i)
    nlinarith

theorem isqrt_le_sqrt (x : Nat) : (isqrt x : Real) ≤ Real.sqrt x :=
  Real.le_sqrt_of_sq_le (by rw [sq]; exact_mod_cast (isqrt_spec x).1)

theorem sqrt_le_isqrt_succ (x : Nat) : Real.sqrt x ≤ isqrt x + 1 :=
  Real.sqrt_le_iff.mpr ⟨by positivity, by rw [sq]; exact_mod_cast (isqrt_spec x).2.le⟩

/-- Rounding the digits of a root rounds the root. -/
theorem roundMag_rootDigits_nearest {x : Nat} (hx : 2 ^ 52 ≤ x) (hlt : roundMag (rootDigits x) 1 < 255 * 2 ^ 23)
    (y : Nat) : |(magOf (roundMag (rootDigits x) 1) : Real) - Real.sqrt x| ≤ |(magOf y : Real) - Real.sqrt x| := by
  by_cases hexact : isqrt x * isqrt x = x
  · have hdigits : ((rootDigits x : Nat) : Real) / 2 ^ 1 = Real.sqrt x := by
      have hroot : Real.sqrt x = isqrt x := by
        rw [Real.sqrt_eq_iff_mul_self_eq (by positivity) (by positivity)]
        exact_mod_cast hexact.symm
      rw [rootDigits, if_pos hexact, hroot]
      push_cast
      ring
    exact hdigits ▸ (roundMag_nearest_of_lt hlt y).1
  · by_cases hsame : magOf y = magOf (roundMag (rootDigits x) 1)
    · rw [hsame]
    · have hdigits : rootDigits x = 2 * isqrt x + 1 := by rw [rootDigits, if_neg hexact]
      have hlarge : 2 ^ 26 < isqrt x + 1 := by
        have := (isqrt_spec x).2
        by_contra hc
        nlinarith
      have hnear := roundMag_odd_nearest (by omega) (by omega) hlt hsame
      have hmiddle : ((rootDigits x : Nat) : Real) / 2 = isqrt x + 1 / 2 := by
        rw [hdigits]
        push_cast
        ring
      rw [hmiddle] at hnear
      exact nearer_of_nearer_middle hnear (isqrt_le_sqrt x) (sqrt_le_isqrt_succ x)

/-- The root of a finite value is far from overflow. -/
theorem roundMag_rootDigits_lt {x : Nat} (hx : x < 2 ^ 24 * 2 ^ 253 * 2 ^ 149) :
    roundMag (rootDigits x) 1 < 255 * 2 ^ 23 := by
  have hroot : isqrt x < 2 ^ 213 := by
    rw [← Nat.mul_self_lt_mul_self_iff]
    calc isqrt x * isqrt x ≤ x := (isqrt_spec x).1
      _ < 2 ^ 24 * 2 ^ 253 * 2 ^ 149 := hx
      _ = 2 ^ 213 * 2 ^ 213 := by norm_num
  have hdigits : rootDigits x ≤ 2 * isqrt x + 1 := by
    rw [rootDigits]
    split <;> omega
  rw [roundMag_lt_iff, overflowUnits]
  omega

/-- The root of a positive finite value, in units: the root of `magUnits a * 2^149`. -/
theorem sqrtFinite_spec {a : F32} (hfinite : isFinite a = true) (hzero : isZero a = false) :
    isFinite (sqrtFinite a) = true ∧
      IsNearest (sqrtFinite a) (Real.sqrt ((magUnits a * 2 ^ 149 : Nat) : Real)) := by
  have hpos : 0 < magUnits a := Nat.pos_of_ne_zero fun h => by simp [magUnits_eq_zero_iff.mp h] at hzero
  have hlarge : 2 ^ 52 ≤ magUnits a * 2 ^ 149 := by omega
  have hlt := roundMag_rootDigits_lt (x := magUnits a * 2 ^ 149)
    (Nat.mul_lt_mul_of_pos_right (magUnits_lt_of_isFinite hfinite) (by positivity))
  rw [sqrtFinite_eq]
  exact ⟨(isFinite_withSign (roundMag_le _ _)).mpr hlt,
    isNearest_withSign (by omega) (Real.sqrt_nonneg _) false (roundMag_rootDigits_nearest hlarge hlt)⟩

theorem ieeeSqrt_of_zero {r : NanRule} {a : F32} (h : isZero a = true) : ieeeSqrt r a = a := by
  simp [ieeeSqrt, isNan_of_isFinite (isFinite_of_isZero h), h]

/-- The root of a positive finite value, rounded once (00_scope.md R12). -/
theorem ieeeSqrt_of_positive {r : NanRule} {a : F32} (hfinite : isFinite a = true) (hzero : isZero a = false)
    (hs : signBit a = false) : ieeeSqrt r a = sqrtFinite a := by
  simp [ieeeSqrt, isNan_of_isFinite hfinite, isInf_of_isFinite hfinite, hzero, hs]

theorem cast_value (a : F32) : (value a : Real) = units a / 2 ^ 149 := by
  rw [value]
  push_cast
  rfl

/-- Nearest in units is nearest in value. -/
theorem IsNearest.value {z : F32} {v : Real} (h : IsNearest z v) {x : F32} (hx : isFinite x = true) :
    |(value z : Real) - v / 2 ^ 149| ≤ |(value x : Real) - v / 2 ^ 149| := by
  rw [cast_value, cast_value, ← sub_div, ← sub_div, abs_div, abs_div]
  exact div_le_div_of_nonneg_right (h x hx) (abs_nonneg _)

/-- A value that is not negative is a zero or has a positive sign. -/
theorem signBit_of_units_nonneg {a : F32} (h : 0 ≤ units a) (hzero : isZero a = false) : signBit a = false := by
  cases hs : signBit a with
  | false => rfl
  | true =>
    have hmag : magUnits a ≠ 0 := fun h0 => by simp [magUnits_eq_zero_iff.mp h0] at hzero
    rw [units_eq_signed, hs, signed, if_pos rfl] at h
    omega

theorem sqrt_value {a : F32} (hs : signBit a = false) :
    Real.sqrt (value a) = Real.sqrt ((magUnits a * 2 ^ 149 : Nat) : Real) / 2 ^ 149 := by
  have hsplit : (value a : Real) = ((magUnits a * 2 ^ 149 : Nat) : Real) / (2 ^ 149) ^ 2 := by
    rw [cast_value, units_eq_signed, hs, signed, if_neg (by decide)]
    rw [Int.cast_natCast, Nat.cast_mul, Nat.cast_pow, Nat.cast_ofNat, sq, mul_div_mul_right _ _ (by positivity)]
  rw [hsplit, Real.sqrt_div (by positivity), Real.sqrt_sq (by positivity)]

/-- Settles O58: a zero is its own root; else the root's digits are rounded. -/
theorem sqrtRoundsToNearest : Obligations.SqrtRoundsToNearest := by
  unfold Obligations.SqrtRoundsToNearest
  intro r a hfinite hnonneg
  cases hzero : isZero a with
  | true =>
    rw [ieeeSqrt_of_zero hzero]
    refine ⟨hfinite, fun x _ => ?_⟩
    have hvalue : (value a : Real) = 0 := by
      rw [cast_value, units_eq_signed, magUnits_of_isZero hzero]
      simp [signed]
    simp [hvalue]
  | false =>
    have hs := signBit_of_units_nonneg hnonneg hzero
    obtain ⟨hroot, hnear⟩ := sqrtFinite_spec hfinite hzero
    rw [ieeeSqrt_of_positive hfinite hzero hs, sqrt_value hs]
    exact ⟨hroot, fun x hx => hnear.value hx⟩

end Sys2Proof.Machine
end

section
/-! The invariants: what each operation needs to keep them, then every command, event and step; and that they hold
after reset (10_state.md R46, R47; 40_hopbuffer.md R128; 60_exceptions.md R249). -/

namespace Sys2Proof.Machine

/-! ### What the invariants look at -/

section
variable {s t : State} {ws : List Window}

/-- With the counters left alone, `Inv` asks for the form of memory, a legal `ERR` and `SEQ`, and two result codes;
it looks at no other field. -/
theorem Inv.keepCounters (h : Inv s) {m : Memory} {e : Word} {q : SeqState} {r r' d d' : Word} {b : Bool}
    {l : List Event} {v : Option Word} (hm : m.wf s.cfg = true) (he : ErrLegal e)
    (hq : SeqLegal { s with err := e, seq := q }) (hr : ResultLegal r) (hr' : ResultLegal r') :
    Inv { s with mem := m, err := e, seq := q, result := r, iresult := r', passThrough := b, data := d, idata := d',
                 events := l, readData := v } where
  config := h.config
  memory := hm
  counters := ⟨h.counters.capOrder, h.counters.playOrder, h.counters.capSize, h.counters.playSize⟩
  fit := ⟨h.fit.readPtr, h.fit.processReadPtr, h.fit.writePtr, h.fit.processWritePtr⟩
  err := he
  seq := hq
  result := hr
  iresult := hr'

/-- With everything but the counters left alone, `Inv` asks for their order, the occupancy and the width. -/
theorem Inv.moveCounters (h : Inv s) {r p w q : Nat}
    (hok : CountersOk { s with readPtr := r, processReadPtr := p, writePtr := w, processWritePtr := q })
    (hr : r < 2 ^ s.cfg.idxBits) (hq : q < 2 ^ s.cfg.idxBits) :
    Inv { s with readPtr := r, processReadPtr := p, writePtr := w, processWritePtr := q } where
  config := h.config
  memory := h.memory
  counters := hok
  fit := ⟨hr, hok.capOrder.trans_lt hr, hok.playOrder.trans_lt hq, hq⟩
  err := h.err
  seq := h.seq
  result := h.result
  iresult := h.iresult

/-- The bits of `ERR` exclude each other: each fault's bit alone is legal (60_exceptions.md R249). -/
theorem errLegal_errBit (f : Fault) : ErrLegal (errBit f) := by
  cases f <;> simp [ErrLegal, errBit]

/-- A running block is between two commands in Idle: a fault state of `SEQ` comes with a bit of `ERR`. -/
theorem Inv.idle_of_running (h : Inv s) (he : s.err = 0) : s.seq = .idle := by
  rcases h.seq with hq | ⟨_, hbit⟩ | ⟨_, hbit⟩ | ⟨_, hbit | hbit⟩
  · exact hq
  all_goals
    rw [he] at hbit
    exact absurd hbit (by decide)

/-! ### What each operation needs to keep them -/

theorem Inv.after_setEvents (h : Inv s) (l : List Event) : Inv (s.setEvents l) :=
  h.keepCounters h.memory h.err h.seq h.result h.iresult

theorem Inv.after_setReadData (h : Inv s) (v : Option Word) : Inv (s.setReadData v) :=
  h.keepCounters h.memory h.err h.seq h.result h.iresult

theorem Inv.after_setPassThrough (h : Inv s) (b : Bool) : Inv (s.setPassThrough b) :=
  h.keepCounters h.memory h.err h.seq h.result h.iresult

theorem Inv.after_setPortData (h : Inv s) (p : Agent) (v : Word) : Inv (setPortData p v s) := by
  cases p <;> exact h.keepCounters h.memory h.err h.seq h.result h.iresult

theorem Inv.after_returnCode (h : Inv s) (p : Agent) (code : ResultCode) : Inv (returnCode p code s) := by
  cases p
  · exact h.keepCounters h.memory h.err h.seq h.result ⟨code, rfl⟩
  · exact h.keepCounters h.memory h.err h.seq ⟨code, rfl⟩ h.iresult

theorem Inv.after_setMem (h : Inv s) {m : Memory} (hm : m.wf s.cfg = true) : Inv (s.setMem m) :=
  h.keepCounters hm h.err h.seq h.result h.iresult

theorem Inv.after_storeWin (h : Inv s) (w : Window) (idx : Nat) (v : Word) : Inv (s.storeWin w idx v) :=
  h.after_setMem (State.storeWin_wf h.memory w idx v)

theorem Inv.after_putWin (h : Inv s) {w : Window} {l : List Word} (hl : l.length = windowLen s.cfg w) :
    Inv (s.putWin w l) :=
  h.after_setMem (Memory.put_wf h.memory hl)

theorem Inv.after_writeSlot (h : Inv s) (b : HopBuffer) (k : Nat) (hop : List Word) : Inv (s.writeSlot b k hop) :=
  h.after_setMem (State.writeSlot_wf h.memory b k hop)

/-- A computation with windows keeps them if the `SEQ` it ends in is legal. -/
theorem Inv.after_walk (h : Inv s) (hw : Walk ws s t) (hq : SeqLegal (s.setSeq t.seq)) : Inv t := by
  have hm := hw.wf h.config h.memory
  rw [hw.regs]
  exact h.keepCounters hm h.err hq h.result h.iresult

/-- A fault of a running block leaves one bit of `ERR`, so it keeps them if `SEQ` is Idle or fits that bit. -/
theorem Inv.after_walk_raiseFault (h : Inv s) (hrun : s.err = 0) (hw : Walk ws s t) (p : Agent) (f : Fault)
    (hq : SeqLegal { t with err := errBit f }) : Inv (raiseFault p f t) := by
  have hm := hw.wf h.config h.memory
  have hbit : s.err ||| errBit f = errBit f := by rw [hrun]; exact BitVec.zero_or
  rw [hw.regs] at hq ⊢
  cases p
  · rw [raiseFault_I, hbit]
    exact h.keepCounters hm (errLegal_errBit f) hq h.result ⟨_, rfl⟩
  · rw [raiseFault_M, hbit]
    exact h.keepCounters hm (errLegal_errBit f) hq ⟨_, rfl⟩ h.iresult

/-- A produce that found no room keeps them. -/
theorem Inv.after_raiseFault (h : Inv s) (hrun : s.err = 0) (p : Agent) (f : Fault) : Inv (raiseFault p f s) :=
  h.after_walk_raiseFault hrun (Walk.refl [] s) p f (.inl (h.idle_of_running hrun))

/-! ### The bodies that move a counter -/

/-- A write index below its maximum still fits after it moved (40_hopbuffer.md R130). -/
theorem succ_lt_of_ne_maxIndex {c : Cfg} {k : Nat} (hk : k < 2 ^ c.idxBits) (hne : k ≠ maxIndex c) :
    k + 1 < 2 ^ c.idxBits := by
  rw [maxIndex] at hne
  omega

theorem Inv.after_capPopBody (h : Inv s) (hp : s.processReadPtr < s.readPtr) : Inv (capPopBody s) := by
  have hput : Inv (s.putWin .nin (s.readSlot .capbuf s.processReadPtr)) :=
    h.after_putWin (State.readSlot_length s _ _)
  have hsize := h.counters.capSize
  exact hput.moveCounters ⟨hp, h.counters.playOrder,
    (by omega : s.readPtr - (s.processReadPtr + 1) ≤ s.cfg.numHops), h.counters.playSize⟩
    h.fit.readPtr h.fit.processWritePtr

theorem Inv.after_playPopBody (h : Inv s) (hp : s.writePtr < s.processWritePtr) : Inv (playPopBody s) := by
  have hput : Inv (s.putWin .playwin (s.readSlot .playbuf s.writePtr)) :=
    h.after_putWin (State.readSlot_length s _ _)
  have hsize := h.counters.playSize
  exact hput.moveCounters ⟨h.counters.capOrder, hp, h.counters.capSize,
    (by omega : s.processWritePtr - (s.writePtr + 1) ≤ s.cfg.numHops)⟩ h.fit.readPtr h.fit.processWritePtr

theorem Inv.after_capPushBody (h : Inv s) (hne : s.readPtr ≠ maxIndex s.cfg)
    (hroom : s.readPtr - s.processReadPtr < s.cfg.numHops) : Inv (capPushBody s) := by
  have hput : Inv (s.writeSlot .capbuf s.readPtr (s.win .capwin)) := h.after_writeSlot _ _ _
  exact hput.moveCounters ⟨h.counters.capOrder.trans (Nat.le_succ _), h.counters.playOrder,
    (by omega : s.readPtr + 1 - s.processReadPtr ≤ s.cfg.numHops), h.counters.playSize⟩
    (succ_lt_of_ne_maxIndex h.fit.readPtr hne) h.fit.processWritePtr

theorem Inv.after_playPushBody (h : Inv s) (hne : s.processWritePtr ≠ maxIndex s.cfg)
    (hroom : s.processWritePtr - s.writePtr < s.cfg.numHops) : Inv (playPushBody s) := by
  have hput : Inv (s.writeSlot .playbuf s.processWritePtr (s.win .nout)) := h.after_writeSlot _ _ _
  exact hput.moveCounters ⟨h.counters.capOrder, h.counters.playOrder.trans (Nat.le_succ _), h.counters.capSize,
    (by omega : s.processWritePtr + 1 - s.writePtr ≤ s.cfg.numHops)⟩
    h.fit.readPtr (succ_lt_of_ne_maxIndex h.fit.processWritePtr hne)

end

/-! ### Reset -/

theorem inv_resetOf {c : Cfg} (hv : cfgValid c = true) : Inv (State.resetOf c) where
  config := hv
  memory := Memory.zero_wf c
  counters := ⟨le_rfl, le_rfl, Nat.zero_le _, Nat.zero_le _⟩
  fit := ⟨Nat.two_pow_pos _, Nat.two_pow_pos _, Nat.two_pow_pos _, Nat.two_pow_pos _⟩
  err := .inl rfl
  seq := .inl rfl
  result := ⟨.ok, rfl⟩
  iresult := ⟨.ok, rfl⟩

/-- Settles O54: the counters are 0, memory has its form and T is legal. -/
theorem invariantHoldsAtReset : Obligations.InvariantHoldsAtReset :=
  ⟨fun _ hv => inv_resetOf hv, inv_resetOf (by decide)⟩

/-! ### Every command, every event, every step -/

section
variable {s t : State}

theorem Inv.after_resetBlock (h : Inv s) : Inv (resetBlock s) :=
  ((inv_resetOf h.config).after_setEvents _).after_setReadData _

/-- `SEQ` and `ERR` after a `SEQ.STEP` that stopped in a fault (45_sequencer.md R207). -/
theorem seqLegal_of_seqFault {f : Fault}
    (hf : (f = .inferenceA ∧ t.seq = .inferringA) ∨ (f = .inferenceB ∧ t.seq = .inferringB) ∨
      ((f = .playbackOverrun ∨ f = .indexOverflow) ∧ t.seq = .emitting)) :
    SeqLegal { t with err := errBit f } := by
  rcases hf with ⟨rfl, hq⟩ | ⟨rfl, hq⟩ | ⟨rfl | rfl, hq⟩
  · exact .inr (.inl ⟨hq, rfl⟩)
  · exact .inr (.inr (.inl ⟨hq, rfl⟩))
  · exact .inr (.inr (.inr ⟨hq, .inl rfl⟩))
  · exact .inr (.inr (.inr ⟨hq, .inr rfl⟩))

/-- A `SEQ.STEP` that publishes keeps them: with `SEQ` back in Idle its walk is a computation, and its end a
`PLAY.PUSH`. -/
theorem Inv.after_seqDone (h : Inv s) (hp : s.processReadPtr < s.readPtr) (hw : Walk walkWindows (capPopBody s) t)
    (hne : s.processWritePtr ≠ maxIndex s.cfg) (hroom : s.processWritePtr - s.writePtr < s.cfg.numHops) :
    Inv ((playPushBody t).setSeq .idle) := by
  have hidle : Inv (t.setSeq .idle) :=
    (h.after_capPopBody hp).after_walk (hw.trans (Walk.setSeq _ t .idle)) (.inl rfl)
  rw [← playPushBody_setSeq]
  rw [hw.regs] at hidle ⊢
  exact hidle.after_playPushBody hne hroom

/-- Every command keeps the invariants. -/
theorem Inv.after_exec {i : Instr} (h : Inv s) (hx : exec i s = .next t) : Inv t := by
  cases exec_effect hx with
  | refused code => exact h.after_returnCode _ code
  | nop => exact h.after_returnCode _ _
  | setup => exact h.after_resetBlock.after_returnCode _ _
  | read w idx => exact (h.after_setPortData _ _).after_returnCode _ _
  | write w idx => exact (h.after_storeWin _ _ _).after_returnCode _ _
  | capPop _ _ hp => exact (h.after_capPopBody hp).after_returnCode _ _
  | playPop _ _ hp => exact (h.after_playPopBody hp).after_returnCode _ _
  | capPush _ _ hne hroom => exact (h.after_capPushBody hne hroom).after_returnCode _ _
  | playPush _ _ hne hroom => exact (h.after_playPushBody hne hroom).after_returnCode _ _
  | capFault f _ _ he => exact h.after_raiseFault he _ f
  | playFault f _ _ he => exact h.after_raiseFault he _ f
  | compute u _ _ _ hw hs => exact (h.after_walk hw (hs ▸ h.seq)).after_returnCode _ _
  | seqFault f u _ he hp hw _ hf =>
    exact (h.after_capPopBody hp).after_walk_raiseFault he hw _ f (seqLegal_of_seqFault hf)
  | seqDone u _ _ hp hw _ hne hroom => exact (h.after_seqDone hp hw hne hroom).after_returnCode _ _

/-- Every command word keeps the invariants, refused or not. -/
theorem Inv.after_issue {p : Agent} {w : Word} (h : Inv s) (hx : issue p w s = .next t) : Inv t := by
  rcases issue_cases hx with ⟨_, _, rfl⟩ | ⟨_, _, _, rfl⟩ | ⟨i, _, _, hi⟩
  · exact h.after_returnCode _ _
  · exact h.after_returnCode _ _
  · exact h.after_exec hi

/-- Every event keeps the invariants. -/
theorem Inv.after_perform {e : Event} (h : Inv s) (hx : perform e s = .next t) : Inv t := by
  rcases perform_cases hx with ⟨v, rfl⟩ | ⟨p, v, rfl⟩ | ⟨p, w, hi⟩ | rfl | rfl
  · exact h.after_setReadData v
  · exact h.after_setPortData p v
  · exact h.after_issue hi
  · exact h.after_setPassThrough _
  · exact h.after_resetBlock

end

/-- Settles O53: a step does nothing or performs one event, and every event keeps the invariants. -/
theorem stepKeepsInvariant : Obligations.StepKeepsInvariant := by
  unfold Obligations.StepKeepsInvariant
  intro s t h hstep
  obtain ⟨_, ⟨_, rfl⟩ | ⟨e, rest, _, hperform⟩⟩ := step_cases hstep
  · exact h
  · exact (h.after_setEvents rest).after_perform hperform

end Sys2Proof.Machine
end

section
/-! What a command may change of `ERR`, the mode bit, `SEQ` and the counters, and what a step keeps
(10_state.md R21, R22, R39, R40, R44, R49). -/

namespace Sys2Proof.Machine

/-! ### Fields an operation leaves alone -/

section
variable {ws : List Window} {s t : State}

theorem Walk.err (h : Walk ws s t) : t.err = s.err := by rw [h.regs]
theorem Walk.passThrough (h : Walk ws s t) : t.passThrough = s.passThrough := by rw [h.regs]
theorem Walk.events (h : Walk ws s t) : t.events = s.events := by rw [h.regs]
theorem Walk.readPtr (h : Walk ws s t) : t.readPtr = s.readPtr := by rw [h.regs]
theorem Walk.processReadPtr (h : Walk ws s t) : t.processReadPtr = s.processReadPtr := by rw [h.regs]
theorem Walk.writePtr (h : Walk ws s t) : t.writePtr = s.writePtr := by rw [h.regs]
theorem Walk.processWritePtr (h : Walk ws s t) : t.processWritePtr = s.processWritePtr := by rw [h.regs]

end

section
variable (p : Agent) (v : Word) (s : State)

@[simp] theorem setPortData_cfg : (setPortData p v s).cfg = s.cfg := by cases p <;> rfl
@[simp] theorem setPortData_readPtr : (setPortData p v s).readPtr = s.readPtr := by cases p <;> rfl
@[simp] theorem setPortData_processReadPtr : (setPortData p v s).processReadPtr = s.processReadPtr := by
  cases p <;> rfl
@[simp] theorem setPortData_writePtr : (setPortData p v s).writePtr = s.writePtr := by cases p <;> rfl
@[simp] theorem setPortData_processWritePtr : (setPortData p v s).processWritePtr = s.processWritePtr := by
  cases p <;> rfl
@[simp] theorem setPortData_seq : (setPortData p v s).seq = s.seq := by cases p <;> rfl
@[simp] theorem setPortData_err : (setPortData p v s).err = s.err := by cases p <;> rfl
@[simp] theorem setPortData_passThrough : (setPortData p v s).passThrough = s.passThrough := by cases p <;> rfl
@[simp] theorem setPortData_events : (setPortData p v s).events = s.events := by cases p <;> rfl

end

section
variable (s : State) (w : Window) (idx : Nat) (v : Word)

@[simp] theorem State.storeWin_cfg : (s.storeWin w idx v).cfg = s.cfg := rfl
@[simp] theorem State.storeWin_readPtr : (s.storeWin w idx v).readPtr = s.readPtr := rfl
@[simp] theorem State.storeWin_processReadPtr : (s.storeWin w idx v).processReadPtr = s.processReadPtr := rfl
@[simp] theorem State.storeWin_writePtr : (s.storeWin w idx v).writePtr = s.writePtr := rfl
@[simp] theorem State.storeWin_processWritePtr : (s.storeWin w idx v).processWritePtr = s.processWritePtr := rfl
@[simp] theorem State.storeWin_seq : (s.storeWin w idx v).seq = s.seq := rfl
@[simp] theorem State.storeWin_err : (s.storeWin w idx v).err = s.err := rfl
@[simp] theorem State.storeWin_passThrough : (s.storeWin w idx v).passThrough = s.passThrough := rfl
@[simp] theorem State.storeWin_events : (s.storeWin w idx v).events = s.events := rfl

end

/-! ### `ERR`, the mode bit and `SEQ` under a command -/

/-- The set bits of `ERR` and the mode bit are kept. -/
def KeepsErrAndMode (s t : State) : Prop := s.err &&& t.err = s.err ∧ t.passThrough = s.passThrough

section
variable {s t : State}

theorem KeepsErrAndMode.of_eq (he : t.err = s.err) (hm : t.passThrough = s.passThrough) : KeepsErrAndMode s t :=
  ⟨by rw [he, BitVec.and_self], hm⟩

/-- Raising a fault sets a bit and clears none (10_state.md R39). -/
theorem KeepsErrAndMode.of_raiseFault (p : Agent) (f : Fault) (he : t.err = s.err)
    (hm : t.passThrough = s.passThrough) : KeepsErrAndMode s (raiseFault p f t) := by
  refine ⟨?_, by rw [raiseFault_passThrough, hm]⟩
  rw [raiseFault_err, he]
  ext i hi
  simp +contextual

/-- Every command but `SYS.SETUP` keeps the set bits of `ERR` and the mode bit. -/
theorem exec_keepsErrAndMode {i : Instr} (hi : i ≠ .sysSetup) (h : exec i s = .next t) : KeepsErrAndMode s t := by
  cases exec_effect h with
  | refused code => exact .of_eq (returnCode_err _ _ _) (returnCode_passThrough _ _ _)
  | nop => exact .of_eq rfl rfl
  | setup hsetup => exact absurd hsetup hi
  | read w idx => exact .of_eq (by simp) (by simp)
  | write w idx => exact .of_eq (by simp) (by simp)
  | capPop => exact .of_eq rfl rfl
  | playPop => exact .of_eq rfl rfl
  | capPush => exact .of_eq rfl rfl
  | playPush => exact .of_eq rfl rfl
  | capFault f => exact .of_raiseFault _ f rfl rfl
  | playFault f => exact .of_raiseFault _ f rfl rfl
  | compute u _ _ _ hw => exact .of_eq hw.err hw.passThrough
  | seqFault f u _ _ _ hw => exact .of_raiseFault _ f hw.err hw.passThrough
  | seqDone u _ _ _ hw => exact .of_eq hw.err hw.passThrough

/-- Every command but `SYS.SETUP` and `SEQ.STEP` keeps `SEQ`. -/
theorem exec_seq {i : Instr} (hi : i ≠ .sysSetup) (hstep : i ≠ .seqStep) (h : exec i s = .next t) :
    t.seq = s.seq := by
  cases exec_effect h with
  | refused code => exact returnCode_seq _ _ _
  | nop => rfl
  | setup hsetup => exact absurd hsetup hi
  | read w idx => simp
  | write w idx => simp
  | capPop => rfl
  | playPop => rfl
  | capPush => rfl
  | playPush => rfl
  | capFault f => rfl
  | playFault f => rfl
  | compute u _ _ _ _ hs => exact hs
  | seqFault f u hseq => exact absurd hseq hstep
  | seqDone u hseq => exact absurd hseq hstep

end

/-- Settles O17, by the ways a command can end: a fault sets a bit of `ERR`, and nothing but `SYS.SETUP` clears one. -/
theorem onlySetupClearsErr : Obligations.OnlySetupClearsErr := by
  unfold Obligations.OnlySetupClearsErr
  intro i s t h hi
  obtain ⟨herr, hmode⟩ := exec_keepsErrAndMode hi h
  exact ⟨herr, hmode, fun hstep => exec_seq hi hstep h⟩

/-! ### The counters under a command -/

/-- The four counters `readPtr`, `processReadPtr`, `writePtr`, `processWritePtr` of `t` are those of `s` plus the
given amounts. -/
structure CountersMove (s t : State) (r p w q : Nat) : Prop where
  readPtr : t.readPtr = s.readPtr + r
  processReadPtr : t.processReadPtr = s.processReadPtr + p
  writePtr : t.writePtr = s.writePtr + w
  processWritePtr : t.processWritePtr = s.processWritePtr + q

/-- A computation that came after the counters moved leaves them there. -/
theorem CountersMove.walk {ws : List Window} {s u t : State} {r p w q : Nat} (h : CountersMove s u r p w q)
    (hw : Walk ws u t) : CountersMove s t r p w q :=
  ⟨hw.readPtr.trans h.readPtr, hw.processReadPtr.trans h.processReadPtr, hw.writePtr.trans h.writePtr,
    hw.processWritePtr.trans h.processWritePtr⟩

theorem capPopBody_counters (s : State) : CountersMove s (capPopBody s) 0 1 0 0 := ⟨rfl, rfl, rfl, rfl⟩

/-- Which counters a command moves, and that it moves each by 1 (10_state.md R21). -/
theorem exec_countersMove {i : Instr} {s t : State} (hi : i ≠ .sysSetup) (h : exec i s = .next t) :
    CountersMove s t 0 0 0 0 ∨ (i = .capPush ∧ CountersMove s t 1 0 0 0) ∨
    ((i = .capPop ∨ i = .seqStep) ∧ CountersMove s t 0 1 0 0) ∨ (i = .playPop ∧ CountersMove s t 0 0 1 0) ∨
    (i = .playPush ∧ CountersMove s t 0 0 0 1) ∨ (i = .seqStep ∧ CountersMove s t 0 1 0 1) := by
  cases exec_effect h with
  | refused code => exact .inl ⟨by simp, by simp, by simp, by simp⟩
  | nop => exact .inl ⟨rfl, rfl, rfl, rfl⟩
  | setup hsetup => exact absurd hsetup hi
  | read w idx => exact .inl ⟨by simp, by simp, by simp, by simp⟩
  | write w idx => exact .inl ⟨by simp, by simp, by simp, by simp⟩
  | capPop hpop => exact .inr (.inr (.inl ⟨.inl hpop, rfl, rfl, rfl, rfl⟩))
  | playPop hpop => exact .inr (.inr (.inr (.inl ⟨hpop, rfl, rfl, rfl, rfl⟩)))
  | capPush hpush => exact .inr (.inl ⟨hpush, rfl, rfl, rfl, rfl⟩)
  | playPush hpush => exact .inr (.inr (.inr (.inr (.inl ⟨hpush, rfl, rfl, rfl, rfl⟩))))
  | capFault f => exact .inl ⟨rfl, rfl, rfl, rfl⟩
  | playFault f => exact .inl ⟨rfl, rfl, rfl, rfl⟩
  | compute u _ _ _ hw => exact .inl ⟨hw.readPtr, hw.processReadPtr, hw.writePtr, hw.processWritePtr⟩
  | seqFault f u hseq _ _ hw =>
    obtain ⟨hr, hp, hwr, hq⟩ := (capPopBody_counters s).walk hw
    exact .inr (.inr (.inl ⟨.inr hseq, hr, hp, hwr, hq⟩))
  | seqDone u hseq _ _ hw =>
    obtain ⟨hr, hp, hwr, hq⟩ := (capPopBody_counters s).walk hw
    exact .inr (.inr (.inr (.inr (.inr ⟨hseq, hr, hp, hwr, congrArg (· + 1) hq⟩))))

/-- Settles O18, by the moves of the counters a command can make. -/
theorem countersHaveOneWriter : Obligations.CountersHaveOneWriter := by
  unfold Obligations.CountersHaveOneWriter
  intro i s t h hi
  rcases exec_countersMove hi h with ⟨hr, hp, hw, hq⟩ | ⟨rfl, hr, hp, hw, hq⟩ | ⟨hpop, hr, hp, hw, hq⟩ |
    ⟨rfl, hr, hp, hw, hq⟩ | ⟨rfl, hr, hp, hw, hq⟩ | ⟨rfl, hr, hp, hw, hq⟩
  · exact ⟨.inl hr, .inl hp, .inl hw, .inl hq⟩
  · exact ⟨.inr ⟨rfl, hr⟩, .inl hp, .inl hw, .inl hq⟩
  · exact ⟨.inl hr, .inr ⟨hpop, hp⟩, .inl hw, .inl hq⟩
  · exact ⟨.inl hr, .inl hp, .inr ⟨rfl, hw⟩, .inl hq⟩
  · exact ⟨.inl hr, .inl hp, .inl hw, .inr ⟨.inl rfl, hq⟩⟩
  · exact ⟨.inl hr, .inr ⟨.inr rfl, hp⟩, .inl hw, .inr ⟨.inr rfl, hq⟩⟩

/-! ### The configuration and the waiting events under a step -/

/-- The configuration and the waiting events are kept. -/
def KeepsSetting (s t : State) : Prop := t.cfg = s.cfg ∧ t.events = s.events

section
variable {s t : State}

theorem exec_keepsSetting {i : Instr} (h : exec i s = .next t) : KeepsSetting s t := by
  cases exec_effect h with
  | refused code => exact ⟨returnCode_cfg _ _ _, returnCode_events _ _ _⟩
  | nop => exact ⟨rfl, rfl⟩
  | setup => exact ⟨rfl, rfl⟩
  | read w idx => exact ⟨by simp, by simp⟩
  | write w idx => exact ⟨by simp, by simp⟩
  | capPop => exact ⟨rfl, rfl⟩
  | playPop => exact ⟨rfl, rfl⟩
  | capPush => exact ⟨rfl, rfl⟩
  | playPush => exact ⟨rfl, rfl⟩
  | capFault f => exact ⟨rfl, rfl⟩
  | playFault f => exact ⟨rfl, rfl⟩
  | compute u _ _ _ hw => exact ⟨hw.cfg, hw.events⟩
  | seqFault f u _ _ _ hw => exact ⟨hw.cfg, hw.events⟩
  | seqDone u _ _ _ hw => exact ⟨hw.cfg, hw.events⟩

theorem issue_keepsSetting {p : Agent} {w : Word} (h : issue p w s = .next t) : KeepsSetting s t := by
  rcases issue_cases h with ⟨_, _, rfl⟩ | ⟨_, _, _, rfl⟩ | ⟨i, _, _, hi⟩
  · exact ⟨returnCode_cfg _ _ _, returnCode_events _ _ _⟩
  · exact ⟨returnCode_cfg _ _ _, returnCode_events _ _ _⟩
  · exact exec_keepsSetting hi

theorem perform_keepsSetting {e : Event} (h : perform e s = .next t) : KeepsSetting s t := by
  rcases perform_cases h with ⟨v, rfl⟩ | ⟨p, v, rfl⟩ | ⟨p, w, hi⟩ | rfl | rfl
  · exact ⟨rfl, rfl⟩
  · exact ⟨setPortData_cfg p v s, setPortData_events p v s⟩
  · exact issue_keepsSetting hi
  · exact ⟨rfl, rfl⟩
  · exact ⟨rfl, rfl⟩

end

/-- Settles O55: an event is taken off the list before it is performed, and performing it takes none. -/
theorem stepKeepsConfiguration : Obligations.StepKeepsConfiguration := by
  unfold Obligations.StepKeepsConfiguration
  intro s t h
  obtain ⟨_, ⟨hnil, rfl⟩ | ⟨e, rest, hcons, hperform⟩⟩ := step_cases h
  · exact ⟨rfl, by rw [hnil]; rfl⟩
  · obtain ⟨hcfg, hevents⟩ := perform_keepsSetting hperform
    exact ⟨hcfg, by rw [hevents, hcons]; rfl⟩

/-- Settles O12: a waiting event is performed as it stands, and both answers are the model's own updates. -/
theorem toggleResetAndWaiting : Obligations.ToggleResetAndWaiting := by
  unfold Obligations.ToggleResetAndWaiting
  intro s rest hv
  refine ⟨fun he => ?_, fun he => ?_, step_nil hv⟩
  · rw [step_cons hv he]; rfl
  · rw [step_cons hv he]; rfl

end Sys2Proof.Machine
end

section
/-! What the registers read (10_state.md R37 to R44), and the state after reset (R47). -/

namespace Sys2Proof.Machine

/-! ### Registers that read a number -/

/-- A window's length fits a 32-bit register, and so does a parameter that is such a length. -/
theorem Legal.windowLen_lt {c : Cfg} (h : Legal c) (w : Window) : windowLen c w < 2 ^ 32 :=
  (h.windows w).trans_lt (by decide)

theorem Legal.ratio_lt {c : Cfg} (h : Legal c) : c.ratio < 2 ^ 32 :=
  (Nat.le_mul_of_pos_right c.ratio h.hopSize).trans_lt (h.windowLen_lt .nin)

/-- Whatever fits a counter fits a 32-bit register. -/
theorem Legal.lt_of_fits {c : Cfg} (h : Legal c) {k : Nat} (hk : k < 2 ^ c.idxBits) : k < 2 ^ 32 :=
  hk.trans_le (Nat.pow_le_pow_right (by decide) h.idxBits)

theorem toNat_ofNat_of_lt {k : Nat} (hk : k < 2 ^ 32) : (BitVec.ofNat 32 k).toNat = k := by
  rw [BitVec.toNat_ofNat, Nat.mod_eq_of_lt hk]

theorem toNat_ctrlWord (s : State) : (ctrlWord s).toNat = if s.passThrough then 1 else 0 := by
  rw [ctrlWord]
  cases s.passThrough <;> rfl

/-- Settles O10: in a legal configuration every counter and every integer parameter fits its register. -/
theorem registersReadTheirContents : Obligations.RegistersReadTheirContents := by
  unfold Obligations.RegistersReadTheirContents
  intro s
  refine ⟨rfl, rfl, toNat_ctrlWord s, rfl, rfl, rfl, rfl, rfl, rfl, fun hv hfit => ?_, fun hv => ?_⟩
  all_goals have legal := legal_of_cfgValid hv
  · have hcounter : ∀ k < 2 ^ s.cfg.idxBits, (BitVec.ofNat 32 k).toNat = k := fun k hk =>
      toNat_ofNat_of_lt (legal.lt_of_fits hk)
    exact ⟨hcounter _ hfit.readPtr, hcounter _ hfit.processReadPtr, hcounter _ hfit.writePtr,
      hcounter _ hfit.processWritePtr⟩
  · have hlen : ∀ w, (BitVec.ofNat 32 (windowLen s.cfg w)).toNat = windowLen s.cfg w := fun w =>
      toNat_ofNat_of_lt (legal.windowLen_lt w)
    exact ⟨hlen .mhi, hlen .aframe, hlen .stateA, toNat_ofNat_of_lt (legal.lt_of_fits legal.counters),
      toNat_ofNat_of_lt legal.ratio_lt, hlen .dcoef, hlen .icoef,
      toNat_ofNat_of_lt (legal.idxBits.trans_lt (by decide))⟩

/-! ### `STATUS` -/

/-- The layout of `STATUS` (10_state.md R38): five flags, the lowest first, and the code of `SEQ`. -/
def packStatus (code : BitVec 4) (avail playAvail full playFull halt : Bool) : Word :=
  0#20 ++ code ++ 0#3 ++ BitVec.ofBool halt ++ BitVec.ofBool playFull ++ BitVec.ofBool full ++
    BitVec.ofBool playAvail ++ BitVec.ofBool avail

theorem statusWord_eq (s : State) :
    statusWord s = packStatus (seqCode s.seq) (capAvail s) (playAvail s) (capFull s) (playFull s) (halted s) := rfl

/-- Each bit of `STATUS` by its place in the layout. -/
theorem getLsbD_packStatus (code : BitVec 4) (b0 b1 b2 b3 b4 : Bool) (i : Nat) :
    (packStatus code b0 b1 b2 b3 b4).getLsbD i =
      if i < 5 then [b0, b1, b2, b3, b4].getD i false
      else if i < 8 then false else code.getLsbD (i - 8) := by
  simp only [packStatus, BitVec.getLsbD_append, BitVec.getLsbD_ofBool, BitVec.getLsbD_zero]
  rcases i with _ | _ | _ | _ | _ | _ | _ | _ | k
  case succ.succ.succ.succ.succ.succ.succ.succ =>
    have h5 : ¬k + 8 < 5 := by omega
    have h8 : ¬k + 8 < 8 := by omega
    have h3 : ¬k + 3 < 3 := by omega
    by_cases hk : k < 4
    · simp [h5, h8, h3, hk]
    · simpa [h5, h8, h3, hk] using BitVec.getLsbD_of_ge code k (by omega)
  all_goals simp

theorem packStatus_bits (code : BitVec 4) (b0 b1 b2 b3 b4 : Bool) :
    (packStatus code b0 b1 b2 b3 b4).getLsbD 0 = b0 ∧ (packStatus code b0 b1 b2 b3 b4).getLsbD 1 = b1 ∧
    (packStatus code b0 b1 b2 b3 b4).getLsbD 2 = b2 ∧ (packStatus code b0 b1 b2 b3 b4).getLsbD 3 = b3 ∧
    (packStatus code b0 b1 b2 b3 b4).getLsbD 4 = b4 ∧ (packStatus code b0 b1 b2 b3 b4).extractLsb 7 5 = 0 ∧
    (packStatus code b0 b1 b2 b3 b4).extractLsb 11 8 = code ∧
    (packStatus code b0 b1 b2 b3 b4).extractLsb 31 12 = 0 := by
  have hbit := getLsbD_packStatus code b0 b1 b2 b3 b4
  refine ⟨hbit 0, hbit 1, hbit 2, hbit 3, hbit 4, ?_, ?_, ?_⟩
  all_goals
    apply BitVec.eq_of_getLsbD_eq
    intro i hi
    rw [BitVec.getLsbD_extractLsb, hbit, if_neg (by omega)]
  · rw [if_pos (by omega), Bool.and_false]
    exact BitVec.getLsbD_zero.symm
  · rw [if_neg (by omega), Nat.add_sub_cancel_left, decide_eq_true (by omega), Bool.true_and]
  · rw [if_neg (by omega), BitVec.getLsbD_of_ge code _ (by omega), Bool.and_false]
    exact BitVec.getLsbD_zero.symm

/-- Settles O11: the flags and the code at their places in the layout. -/
theorem statusBits : Obligations.StatusBits := by
  unfold Obligations.StatusBits
  intro s
  obtain ⟨h0, h1, h2, h3, h4, hlow, hcode, hhigh⟩ :=
    packStatus_bits (seqCode s.seq) (capAvail s) (playAvail s) (capFull s) (playFull s) (halted s)
  rw [← statusWord_eq] at h0 h1 h2 h3 h4 hlow hcode hhigh
  refine ⟨h0, h1, h2, h3, ?_, hlow, ?_, hhigh⟩
  · rw [decide_not]; exact h4
  · refine hcode.trans ?_
    cases s.seq <;> rfl

/-! ### After reset -/

/-- Every window of memory is zero after reset. -/
theorem win_resetOf (c : Cfg) {w : Window} (hw : inMemory w = true) :
    (State.resetOf c).win w = zeros (windowLen c w) := by
  cases w <;> first | rfl | cases hw

theorem slotElem_resetOf (c : Cfg) (b : HopBuffer) (j i : Nat) : (State.resetOf c).slotElem b j i = 0 := by
  have hslots : (State.resetOf c).mem.slots b = List.replicate c.numHops (zeros (nhop c)) := by cases b <;> rfl
  have hslot : ((State.resetOf c).mem.slots b).getD j [] = if j < c.numHops then zeros (nhop c) else [] := by
    rw [hslots]
    by_cases hj : j < c.numHops <;> simp [List.getD, hj]
  rw [State.slotElem, hslot]
  split
  · exact elem_replicate_zero _ i
  · exact elem_nil i

/-- Every element of every buffer but the coefficient tables is zero after reset (10_state.md R47). -/
theorem peek_resetOf {c : Cfg} {l : Loc} {v : Word} (h : (State.resetOf c).peek l = some v)
    (hl : ∀ k, l ≠ .win .dcoef k ∧ l ≠ .win .icoef k) : v = 0 := by
  cases l with
  | win w i =>
    have hw : inMemory w = true := by
      cases w <;> first | rfl | exact absurd rfl (hl i).1 | exact absurd rfl (hl i).2
    rw [State.peek_win, win_resetOf c hw, zeros, elem_replicate_zero] at h
    simpa using (Option.ite_none_right_eq_some.mp h).2.symm
  | slot b j i =>
    rw [State.peek_slot, slotElem_resetOf] at h
    simpa using (Option.ite_none_right_eq_some.mp h).2.symm

/-- Reset clears every flag of `STATUS`; no buffer is full because it has at least one slot. -/
theorem statusWord_resetOf {c : Cfg} (hv : cfgValid c = true) : statusWord (State.resetOf c) = 0 := by
  have hn : ¬c.numHops ≤ 0 := by have := (legal_of_cfgValid hv).numHops; omega
  have hcap : capFull (State.resetOf c) = false := decide_eq_false hn
  have hplay : playFull (State.resetOf c) = false := decide_eq_false hn
  rw [statusWord_eq, hcap, hplay]
  exact (by decide : packStatus (seqCode .idle) false false false false false = 0)

/-- Settles O23: with all counters 0 no hop waits, so the three consumers answer `R_EMPTY`. -/
theorem resetLeavesZeroState : Obligations.ResetLeavesZeroState := by
  unfold Obligations.ResetLeavesZeroState
  intro c hv
  exact ⟨rfl, rfl, rfl, rfl, rfl, rfl, rfl, rfl, rfl, rfl, rfl, statusWord_resetOf hv, fun _ _ => peek_resetOf,
    rfl, rfl, rfl⟩

end Sys2Proof.Machine
end

section
/-! The hop buffers as queues of whole hops (20_memory.md R79, R84; 40_hopbuffer.md R129): what each body does to
what waits, and that a producer and a consumer of one buffer commute. -/

namespace Sys2Proof.Machine

/-! ### What leaves the queues alone -/

section
variable {s t : State} {ws : List Window}

/-- What waits depends on the counters, the slots and the configuration alone. -/
theorem waitingHops_congr (hc : t.cfg = s.cfg) (hk : CountersMove s t 0 0 0 0)
    (hm : ∀ b, t.mem.slots b = s.mem.slots b) (b : HopBuffer) : waitingHops t b = waitingHops s b := by
  cases b
  · exact waitingHops_capbuf_congr hc hk.readPtr hk.processReadPtr (hm _)
  · exact waitingHops_playbuf_congr hc hk.writePtr hk.processWritePtr (hm _)

theorem waitingHops_of_walk (h : Walk ws s t) (b : HopBuffer) : waitingHops t b = waitingHops s b :=
  waitingHops_congr h.cfg ⟨h.readPtr, h.processReadPtr, h.writePtr, h.processWritePtr⟩ h.slots b

theorem waitingHops_storeWin (s : State) (w : Window) (idx : Nat) (v : Word) (b : HopBuffer) :
    waitingHops (s.storeWin w idx v) b = waitingHops s b :=
  waitingHops_of_walk (Walk.putWin s (List.mem_singleton_self w) fun _ => length_store _ _ _ _) b

theorem waitingHops_setPortData (p : Agent) (v : Word) (s : State) (b : HopBuffer) :
    waitingHops (setPortData p v s) b = waitingHops s b := by
  cases p <;> exact waitingHops_congr rfl ⟨rfl, rfl, rfl, rfl⟩ (fun _ => rfl) b

@[simp] theorem waitingHops_setSeq (s : State) (v : SeqState) (b : HopBuffer) :
    waitingHops (s.setSeq v) b = waitingHops s b := waitingHops_of_walk (Walk.setSeq [] s v) b

@[simp] theorem waitingHops_returnCode (p : Agent) (code : ResultCode) (s : State) (b : HopBuffer) :
    waitingHops (returnCode p code s) b = waitingHops s b :=
  waitingHops_congr (by simp) ⟨by simp, by simp, by simp, by simp⟩ (fun _ => by simp) b

@[simp] theorem waitingHops_raiseFault (p : Agent) (f : Fault) (s : State) (b : HopBuffer) :
    waitingHops (raiseFault p f s) b = waitingHops s b :=
  waitingHops_congr (by simp) ⟨by simp, by simp, by simp, by simp⟩ (fun _ => by simp) b

end

/-! ### What each body does to the queues -/

section
variable {s : State}

@[simp] theorem win_nin_capPopBody (s : State) :
    (capPopBody s).win .nin = s.readSlot .capbuf s.processReadPtr := rfl

@[simp] theorem win_playwin_playPopBody (s : State) :
    (playPopBody s).win .playwin = s.readSlot .playbuf s.writePtr := rfl

@[simp] theorem win_playPushBody (s : State) (w : Window) : (playPushBody s).win w = s.win w := by
  rw [playPushBody, State.win_setProcessWritePtr, State.win_writeSlot]

/-- `CAP.POP` takes the oldest captured hop and delivers it in `NIN`. -/
theorem waitingHops_capPopBody (h : s.processReadPtr < s.readPtr) :
    waitingHops s .capbuf = (capPopBody s).win .nin :: waitingHops (capPopBody s) .capbuf := by
  rw [waitingHops_capbuf_cons h, win_nin_capPopBody]
  exact congrArg _ (waitingHops_capbuf_congr rfl rfl rfl rfl)

/-- `PLAY.POP` takes the oldest processed hop and delivers it in `PLAYWIN`. -/
theorem waitingHops_playPopBody (h : s.writePtr < s.processWritePtr) :
    waitingHops s .playbuf = (playPopBody s).win .playwin :: waitingHops (playPopBody s) .playbuf := by
  rw [waitingHops_playbuf_cons h, win_playwin_playPopBody]
  exact congrArg _ (waitingHops_playbuf_congr rfl rfl rfl rfl)

@[simp] theorem waitingHops_capPopBody_playbuf (s : State) :
    waitingHops (capPopBody s) .playbuf = waitingHops s .playbuf := waitingHops_playbuf_congr rfl rfl rfl rfl

@[simp] theorem waitingHops_capPushBody_playbuf (s : State) :
    waitingHops (capPushBody s) .playbuf = waitingHops s .playbuf := waitingHops_playbuf_congr rfl rfl rfl rfl

@[simp] theorem waitingHops_playPopBody_capbuf (s : State) :
    waitingHops (playPopBody s) .capbuf = waitingHops s .capbuf := waitingHops_capbuf_congr rfl rfl rfl rfl

@[simp] theorem waitingHops_playPushBody_capbuf (s : State) :
    waitingHops (playPushBody s) .capbuf = waitingHops s .capbuf := waitingHops_capbuf_congr rfl rfl rfl rfl

end

/-! ### The code a command ends with -/

@[simp] theorem resultOf_returnCode (p : Agent) (code : ResultCode) (s : State) :
    resultOf p (returnCode p code s) = codeWord code := by cases p <;> rfl

@[simp] theorem resultOf_raiseFault (p : Agent) (f : Fault) (s : State) :
    resultOf p (raiseFault p f s) = codeWord (faultCode f) := by cases p <;> rfl

theorem codeWord_eq_zero_iff {code : ResultCode} : codeWord code = 0 ↔ code = .ok :=
  ⟨fun h => codeWord_injective h, fun h => by rw [h]; rfl⟩

/-- No fault is reported by `R_OK` or by the code of a refusal, so a `SEQ.STEP` that ends in one took its hop. -/
theorem codeWord_faultCode_not_refusal (f : Fault) :
    codeWord (faultCode f) ∉ [(0x01 : Word), 0x10, 0x11, 0x12, 0x13] ∧ codeWord (faultCode f) ≠ 0 := by
  cases f <;> decide

theorem codeWord_refusal {code : ResultCode} (h : code ∈ [ResultCode.empty, .range, .perm, .halted]) :
    codeWord code ∈ [(0x01 : Word), 0x10, 0x11, 0x12, 0x13] ∧ codeWord code ≠ 0 := by
  revert h
  cases code <;> decide

/-! ### Every command -/

section
variable {i : Instr} {s t : State}

/-- A command that moves no queue is a FIFO move if it is no queue command or reports that it did not succeed. -/
theorem queuesMoveAsFifo_of_stay (hstay : ∀ b, waitingHops t b = waitingHops s b)
    (hcode : i ∈ [Instr.capPush, .capPop, .playPush, .playPop] → resultOf i.port t ≠ 0)
    (hstep : i = .seqStep → t.result ∈ [(0x01 : Word), 0x10, 0x11, 0x12, 0x13]) : QueuesMoveAsFifo i s t := by
  have hcapPush : ¬(i = .capPush ∧ t.iresult = 0x00) := by
    rintro ⟨rfl, hok⟩
    exact hcode (by simp) hok
  have htakes : ¬((i = .capPop ∧ t.result = 0x00) ∨
      (i = .seqStep ∧ t.result ∉ [(0x01 : Word), 0x10, 0x11, 0x12, 0x13])) := by
    rintro (⟨rfl, hok⟩ | ⟨hi, hcodes⟩)
    · exact hcode (by simp) hok
    · exact hcodes (hstep hi)
  have hpublishes : ¬((i = .playPush ∨ i = .seqStep) ∧ t.result = 0x00) := by
    rintro ⟨rfl | hi, hok⟩
    · exact hcode (by simp) hok
    · have hmem := hstep hi
      rw [hok] at hmem
      exact absurd hmem (by decide)
  have hplayPop : ¬(i = .playPop ∧ t.iresult = 0x00) := by
    rintro ⟨rfl, hok⟩
    exact hcode (by simp) hok
  rw [QueuesMoveAsFifo, if_neg hcapPush, if_neg htakes, if_neg hpublishes, if_neg hplayPop]
  exact ⟨hstay .capbuf, hstay .playbuf⟩

/-- Where no queue command runs, it is enough that nothing that waits moves. -/
theorem queuesMoveAsFifo_of_other (hstay : ∀ b, waitingHops t b = waitingHops s b)
    (hi : i ∉ [Instr.capPush, .capPop, .playPush, .playPop, .seqStep]) : QueuesMoveAsFifo i s t := by
  refine queuesMoveAsFifo_of_stay hstay (fun hmem => absurd ?_ hi) (fun h => absurd ?_ hi)
  · simp only [List.mem_cons, List.not_mem_nil, or_false] at hmem ⊢
    tauto
  · simp [h]

/-- A `SEQ.STEP` that ended in a fault took one captured hop and published none. -/
theorem queuesMoveAsFifo_seqFault (f : Fault) (hp : s.processReadPtr < s.readPtr)
    (hw : Walk walkWindows (capPopBody s) t) : QueuesMoveAsFifo .seqStep s (raiseFault .M f t) := by
  obtain ⟨hcode, hne⟩ := codeWord_faultCode_not_refusal f
  have htaken := waitingHops_capPopBody hp
  rw [← hw.windows .nin (by decide), ← waitingHops_of_walk hw] at htaken
  rw [QueuesMoveAsFifo, if_neg (by simp), if_pos (.inr ⟨rfl, hcode⟩), if_neg fun h => hne h.2, if_neg (by simp)]
  refine ⟨?_, ?_⟩
  · rw [waitingHops_raiseFault, raiseFault_win]
    exact htaken
  · rw [waitingHops_raiseFault, waitingHops_of_walk hw, waitingHops_capPopBody_playbuf]

/-- A `SEQ.STEP` that published took one captured hop and appended the one it computed. -/
theorem queuesMoveAsFifo_seqDone (h : Inv s) (hp : s.processReadPtr < s.readPtr)
    (hw : Walk walkWindows (capPopBody s) t) (hr : s.processWritePtr - s.writePtr < s.cfg.numHops) :
    QueuesMoveAsFifo .seqStep s (returnCode .M .ok ((playPushBody t).setSeq .idle)) := by
  have htaken := waitingHops_capPopBody hp
  rw [← hw.windows .nin (by decide), ← waitingHops_of_walk hw] at htaken
  have hpop := h.after_capPopBody hp
  have hlength : (t.win .nout).length = nhop t.cfg := by
    refine State.win_length ?_ rfl
    rw [hw.cfg]
    exact hw.wf hpop.config hpop.memory
  have horder : t.writePtr ≤ t.processWritePtr := by
    rw [hw.writePtr, hw.processWritePtr]
    exact hpop.counters.playOrder
  have hroom : t.processWritePtr - t.writePtr < t.cfg.numHops := by
    rw [hw.writePtr, hw.processWritePtr, hw.cfg]
    exact hr
  have hpublished := waitingHops_playPushBody horder hroom hlength
  rw [waitingHops_of_walk hw, waitingHops_capPopBody_playbuf] at hpublished
  simp [QueuesMoveAsFifo, codeWord, htaken, hpublished]

/-- Every command but `SYS.SETUP` moves the queues of waiting hops as queues. -/
theorem exec_queuesMoveAsFifo (hinv : Inv s) (h : exec i s = .next t) (hi : i ≠ .sysSetup) :
    QueuesMoveAsFifo i s t := by
  cases exec_effect h with
  | refused code hc =>
    obtain ⟨hmem, hne⟩ := codeWord_refusal hc
    refine queuesMoveAsFifo_of_stay (waitingHops_returnCode _ _ _) (fun _ => ?_) ?_
    · rwa [resultOf_returnCode]
    · rintro rfl
      exact hmem
  | nop hnop => exact queuesMoveAsFifo_of_other (waitingHops_returnCode _ _ _) (by simp [hnop])
  | setup hsetup => exact absurd hsetup hi
  | read w idx hread =>
    refine queuesMoveAsFifo_of_other (fun b => ?_) (by rcases hread with rfl | rfl <;> simp)
    rw [waitingHops_returnCode, waitingHops_setPortData]
  | write w idx hwrite =>
    refine queuesMoveAsFifo_of_other (fun b => ?_) (by rcases hwrite with rfl | rfl <;> simp)
    rw [waitingHops_returnCode, waitingHops_storeWin]
  | capPop hpop _ hp =>
    subst hpop
    simp [QueuesMoveAsFifo, codeWord, waitingHops_capPopBody hp]
  | playPop hpop _ hp =>
    subst hpop
    simp [QueuesMoveAsFifo, codeWord, waitingHops_playPopBody hp]
  | capPush hpush _ _ hr =>
    subst hpush
    have hpublished := waitingHops_capPushBody hinv.counters.capOrder hr (State.win_length hinv.memory rfl)
    simp [QueuesMoveAsFifo, codeWord, hpublished]
  | playPush hpush _ _ hr =>
    subst hpush
    have hpublished := waitingHops_playPushBody hinv.counters.playOrder hr (State.win_length hinv.memory rfl)
    simp [QueuesMoveAsFifo, codeWord, hpublished]
  | capFault f _ hpush =>
    subst hpush
    exact queuesMoveAsFifo_of_stay (waitingHops_raiseFault _ _ _)
      (fun _ => (codeWord_faultCode_not_refusal f).2) (by simp)
  | playFault f _ hpush =>
    subst hpush
    exact queuesMoveAsFifo_of_stay (waitingHops_raiseFault _ _ _)
      (fun _ => (codeWord_faultCode_not_refusal f).2) (by simp)
  | compute u hport hne _ hw _ hq =>
    refine queuesMoveAsFifo_of_other (fun b => ?_) ?_
    · rw [waitingHops_returnCode, waitingHops_of_walk hw]
    · have hM : i ≠ .capPush ∧ i ≠ .playPop := by
        constructor <;> rintro rfl <;> exact absurd hport (by decide)
      simp [hne, hq, hM]
  | seqFault f u hseq _ hp hw =>
    subst hseq
    exact queuesMoveAsFifo_seqFault f hp hw
  | seqDone u hseq _ hp hw _ _ hr =>
    subst hseq
    exact queuesMoveAsFifo_seqDone hinv hp hw hr

end

/-- Settles O28, by the ways a command can end: every end moves each queue at one end of it, or not at all. -/
theorem hopBuffersAreFifoQueues : Obligations.HopBuffersAreFifoQueues := by
  unfold Obligations.HopBuffersAreFifoQueues
  intro i s t hinv h hi
  exact exec_queuesMoveAsFifo hinv h hi

/-! ### Producer and consumer -/

section
variable {i j : Instr} {s t u : State}

theorem execAll_pair (hi : exec i s = .next t) (hj : exec j t = .next u) : execAll [i, j] s = .next u := by
  simp only [execAll, hi, hj]

/-- A running block with room and an index below its maximum publishes the captured hop. -/
theorem exec_capPush_published (he : s.err = 0) (hm : s.readPtr ≠ maxIndex s.cfg)
    (hr : s.readPtr - s.processReadPtr < s.cfg.numHops) :
    exec .capPush s = .next (returnCode .I .ok (capPushBody s)) := by
  obtain ⟨-, -, -, -, -, -, -, -, -, -, -, hrun, -⟩ := exec_running he
  rcases capPush_cases s with ⟨hmax, _⟩ | ⟨_, hfull, _⟩ | ⟨_, _, h⟩
  · exact absurd hmax hm
  · omega
  · rw [hrun, h]

theorem exec_playPush_published (he : s.err = 0) (hm : s.processWritePtr ≠ maxIndex s.cfg)
    (hr : s.processWritePtr - s.writePtr < s.cfg.numHops) :
    exec .playPush s = .next (returnCode .M .ok (playPushBody s)) := by
  obtain ⟨-, hrun, -⟩ := exec_running he
  rcases playPush_cases s with ⟨hmax, _⟩ | ⟨_, hfull, _⟩ | ⟨_, _, h⟩
  · exact absurd hmax hm
  · omega
  · rw [hrun, h]

/-- A running block with a hop waiting delivers it. -/
theorem exec_capPop_taken (he : s.err = 0) (hp : s.processReadPtr < s.readPtr) :
    exec .capPop s = .next (returnCode .M .ok (capPopBody s)) := by
  obtain ⟨hrun, -⟩ := exec_running he
  rw [hrun, capPop, if_pos hp]

theorem exec_playPop_taken (he : s.err = 0) (hp : s.writePtr < s.processWritePtr) :
    exec .playPop s = .next (returnCode .I .ok (playPopBody s)) := by
  obtain ⟨-, -, -, -, -, -, -, -, -, -, -, -, hrun, -⟩ := exec_running he
  rw [hrun, playPop, if_pos hp]

/-- A window and a hop slot are different elements, so their writes commute. -/
theorem putWin_writeSlot (s : State) (b : HopBuffer) (k : Nat) (hop : List Word) (w : Window) (l : List Word) :
    (s.writeSlot b k hop).putWin w l = (s.putWin w l).writeSlot b k hop := by
  cases w <;> cases b <;> rfl

/-- The slot at a write index is not the slot at a waiting read index, so filling the one and delivering the other
commute (20_memory.md R79). -/
theorem putWin_readSlot_writeSlot (s : State) (b : HopBuffer) (w : Window) (hop : List Word) {r k : Nat} (hp : r < k)
    (hr : k - r < s.cfg.numHops) :
    (s.writeSlot b k hop).putWin w ((s.writeSlot b k hop).readSlot b r) =
      (s.putWin w (s.readSlot b r)).writeSlot b k hop := by
  rw [readSlot_writeSlot_ne s b b r k hop (by omega) fun _ => slotOf_ne hp hr, putWin_writeSlot]

theorem capPopBody_capPushBody (hp : s.processReadPtr < s.readPtr)
    (hr : s.readPtr - s.processReadPtr < s.cfg.numHops) : capPopBody (capPushBody s) = capPushBody (capPopBody s) :=
  congrArg (fun v : State => (v.setReadPtr (s.readPtr + 1)).setProcessReadPtr (s.processReadPtr + 1))
    (putWin_readSlot_writeSlot s .capbuf .nin (s.win .capwin) hp hr)

theorem playPopBody_playPushBody (hp : s.writePtr < s.processWritePtr)
    (hr : s.processWritePtr - s.writePtr < s.cfg.numHops) :
    playPopBody (playPushBody s) = playPushBody (playPopBody s) :=
  congrArg (fun v : State => (v.setProcessWritePtr (s.processWritePtr + 1)).setWritePtr (s.writePtr + 1))
    (putWin_readSlot_writeSlot s .playbuf .playwin (s.win .nout) hp hr)

/-- `CAP.PUSH` and `CAP.POP` in either order. -/
theorem capPush_capPop_commute (he : s.err = 0) (hp : s.processReadPtr < s.readPtr)
    (hm : s.readPtr ≠ maxIndex s.cfg) (hr : s.readPtr - s.processReadPtr < s.cfg.numHops) :
    ∃ t, execAll [.capPush, .capPop] s = .next t ∧ execAll [.capPop, .capPush] s = .next t := by
  have hpushPop := execAll_pair (exec_capPush_published he hm hr)
    (exec_capPop_taken (s := returnCode .I .ok (capPushBody s)) he (Nat.lt_succ_of_lt hp))
  have hpopPush := execAll_pair (exec_capPop_taken he hp)
    (exec_capPush_published (s := returnCode .M .ok (capPopBody s)) he hm
      (by show s.readPtr - (s.processReadPtr + 1) < s.cfg.numHops; omega))
  refine ⟨_, hpushPop, hpopPush.trans (congrArg Host.Outcome.next ?_)⟩
  exact congrArg (fun v => returnCode .I .ok (returnCode .M .ok v)) (capPopBody_capPushBody hp hr).symm

/-- `PLAY.PUSH` and `PLAY.POP` in either order. -/
theorem playPush_playPop_commute (he : s.err = 0) (hp : s.writePtr < s.processWritePtr)
    (hm : s.processWritePtr ≠ maxIndex s.cfg) (hr : s.processWritePtr - s.writePtr < s.cfg.numHops) :
    ∃ t, execAll [.playPush, .playPop] s = .next t ∧ execAll [.playPop, .playPush] s = .next t := by
  have hpushPop := execAll_pair (exec_playPush_published he hm hr)
    (exec_playPop_taken (s := returnCode .M .ok (playPushBody s)) he (Nat.lt_succ_of_lt hp))
  have hpopPush := execAll_pair (exec_playPop_taken he hp)
    (exec_playPush_published (s := returnCode .I .ok (playPopBody s)) he hm
      (by show s.processWritePtr - (s.writePtr + 1) < s.cfg.numHops; omega))
  refine ⟨_, hpushPop, hpopPush.trans (congrArg Host.Outcome.next ?_)⟩
  exact congrArg (fun v => returnCode .I .ok (returnCode .M .ok v)) (playPopBody_playPushBody hp hr).symm

end

/-- Settles O29: the slot that is filled and the slot that is emptied are two slots. -/
theorem producerAndConsumerCommute : Obligations.ProducerAndConsumerCommute := by
  unfold Obligations.ProducerAndConsumerCommute
  intro s _ he
  exact ⟨capPush_capPop_commute he, playPush_playPop_commute he⟩

end Sys2Proof.Machine
end

section
/-! The register space (20_memory.md R63 to R66; 10_state.md R36, R45): which bus accesses reach a register their
agent may use, and what those do. -/

namespace Sys2Proof.Machine

/-! ### The registers and their offsets -/

theorem regOffset_aligned (r : Reg) : regOffset r % 4 = 0 ∧ regOffset r < 0x80 := by
  cases r <;> decide

/-- An access reaches a register when it is 32 bits wide and at the register's own address. -/
theorem accessReg_eq_ok_iff {c : Cfg} (hv : cfgValid c = true) {addr bits : Nat} {r : Reg} :
    accessReg c addr bits = .ok r ↔ bits = 32 ∧ addr = c.base + regOffset r := by
  have hbase := base_aligned hv
  obtain ⟨haligned, hlt⟩ := regOffset_aligned r
  rw [accessReg_ok]
  omega

/-- An offset that is reserved (10_state.md R45), or whose register has no "R" in the column of the agent (R36). -/
def Unreadable (p : Agent) (off : Nat) : Prop :=
  off ∈ [0x20, 0x2C, 0x30, 0x3C, 0x68, 0x6C, 0x70, 0x74, 0x78, 0x7C] ∨ (p = .I ∧ off ∈ [0x24, 0x28]) ∨
    (p = .M ∧ off ∈ [0x34, 0x38])

theorem canRead_iff (p : Agent) (r : Reg) : canRead p r = true ↔ ¬Unreadable p (regOffset r) := by
  unfold Unreadable
  cases p <;> cases r <;> decide

/-- A command register holds nothing and is never read (10_state.md R42). -/
theorem ne_command_of_canRead {p : Agent} {r : Reg} (h : canRead p r = true) : r ≠ .cmd ∧ r ≠ .icmd := by
  constructor <;> rintro rfl <;> cases h

theorem unreadable_of_reserved {off : Nat} (h4 : off % 4 = 0) (hlt : off < 0x80) (h : regAt off = none) (p : Agent) :
    Unreadable p off := by
  have hmem := (regAt_reserved h4 hlt).mp h
  refine .inl ?_
  simp only [List.mem_cons, List.not_mem_nil, or_false] at hmem ⊢
  omega

theorem canWrite_iff (p : Agent) (r : Reg) :
    canWrite p r = true ↔ (p = .M ∧ (r = .cmd ∨ r = .data)) ∨ (p = .I ∧ (r = .icmd ∨ r = .idata)) := by
  cases p <;> cases r <;> decide

/-! ### Reads -/

section
variable {s : State} {p : Agent} {addr bits : Nat}

/-- A read delivers the register it reaches, if its agent may read one there, and is a bus error otherwise. -/
theorem busRead_cases (hv : cfgValid s.cfg = true) :
    (∃ r, (bits = 32 ∧ addr = s.cfg.base + regOffset r) ∧ canRead p r = true ∧
      busRead p addr bits s = .next (s.setReadData (some (readReg s r)))) ∨
    ((¬∃ r, (bits = 32 ∧ addr = s.cfg.base + regOffset r) ∧ canRead p r = true) ∧
      ∃ cause, busRead p addr bits s = .refused (.busError cause)) := by
  simp only [← accessReg_eq_ok_iff hv]
  cases e : accessReg s.cfg addr bits with
  | error cause => exact .inr ⟨by simp, cause, by rw [busRead, e]⟩
  | ok r =>
    cases hr : canRead p r with
    | true => exact .inl ⟨r, rfl, hr, by simp [busRead, e, hr]⟩
    | false => exact .inr ⟨by simp [hr], .notReadable, by simp [busRead, e, hr]⟩

/-- When an access of the agent reaches no register that it may read. -/
theorem no_readable_iff {c : Cfg} (hv : cfgValid c = true) :
    (¬∃ r, (bits = 32 ∧ addr = c.base + regOffset r) ∧ canRead p r = true) ↔
      bits ≠ 32 ∨ addr % 4 ≠ 0 ∨ addr < c.base ∨ c.base + 0x7F < addr ∨ Unreadable p (addr - c.base) := by
  have hbase := base_aligned hv
  constructor
  · intro hnone
    by_contra hok
    simp only [not_or, not_not] at hok
    obtain ⟨hbits, haligned, hlow, hhigh, hreadable⟩ := hok
    cases e : regAt (addr - c.base) with
    | none => exact hreadable (unreadable_of_reserved (by omega) (by omega) e p)
    | some r =>
      have hoff := regAt_eq_some.mp e
      rw [← hoff] at hreadable
      exact hnone ⟨r, ⟨hbits, by omega⟩, (canRead_iff p r).mpr hreadable⟩
  · rintro hbad ⟨r, ⟨rfl, rfl⟩, hr⟩
    obtain ⟨haligned, hlt⟩ := regOffset_aligned r
    rw [Nat.add_sub_cancel_left] at hbad
    rcases hbad with h | h | h | h | h
    · exact h rfl
    · omega
    · omega
    · omega
    · exact (canRead_iff p r).mp hr h

/-- The events still to come are no register's content. -/
theorem readReg_setEvents (s : State) (l : List Event) (r : Reg) : readReg (s.setEvents l) r = readReg s r := by
  cases r <;> rfl

end

/-- Settles O8: a read is performed as it stands, and it reaches a readable register or is a bus error. -/
theorem busReadsFollowTheRegisterMap : Obligations.BusReadsFollowTheRegisterMap := by
  unfold Obligations.BusReadsFollowTheRegisterMap
  intro s p addr bits rest hv he
  have hstep : step s = busRead p addr bits (s.setEvents rest) := step_cons hv he
  have hv' : cfgValid (s.setEvents rest).cfg = true := hv
  rw [hstep]
  rcases busRead_cases (p := p) (addr := addr) (bits := bits) hv' with ⟨r, hreach, hr, hread⟩ |
    ⟨hnone, cause, herror⟩
  · refine ⟨iff_of_false ?_ fun hbad => (no_readable_iff hv).mpr hbad ⟨r, hreach, hr⟩, fun _ => ⟨r, ?_, ?_⟩⟩
    · rw [hread]
      rintro ⟨cause, h⟩
      cases h
    · obtain ⟨_, rfl⟩ := hreach
      rw [State.setEvents_cfg, Nat.add_sub_cancel_left]
      obtain ⟨hcmd, hicmd⟩ := ne_command_of_canRead hr
      cases r
      case cmd => exact absurd rfl hcmd
      case icmd => exact absurd rfl hicmd
      all_goals decide
    · rw [hread, readReg_setEvents]
      rfl
  · exact ⟨iff_of_true ⟨cause, herror⟩ ((no_readable_iff hv).mp hnone), fun hnot => absurd herror (hnot cause)⟩

/-! ### Writes -/

theorem issue_next (p : Agent) (w : Word) (s : State) : ∃ t, issue p w s = .next t := by
  unfold issue
  split
  · exact ⟨_, rfl⟩
  · split
    · exact exec_next _ s
    · exact ⟨_, rfl⟩

/-- A permitted write is never refused: a command answers a next state, and a data register stores. -/
theorem writeReg_next (p : Agent) (r : Reg) (v : Word) (s : State) : ∃ t, writeReg p r v s = .next t := by
  unfold writeReg
  split
  · exact issue_next p v s
  · exact issue_next p v s
  · exact ⟨_, rfl⟩

section
variable {s : State} {p : Agent} {addr bits : Nat} {v : Word}

/-- A write of a register the agent may write is performed there. -/
theorem busWrite_of_canWrite (hv : cfgValid s.cfg = true) {r : Reg} (hbits : bits = 32)
    (haddr : addr = s.cfg.base + regOffset r) (hr : canWrite p r = true) :
    busWrite p addr bits v s = writeReg p r v s := by
  simp [busWrite, (accessReg_eq_ok_iff hv).mpr ⟨hbits, haddr⟩, hr]

/-- Every other write is a bus error, and only those are. -/
theorem busWrite_busError_iff (hv : cfgValid s.cfg = true) :
    (∃ cause, busWrite p addr bits v s = .refused (.busError cause)) ↔
      ¬∃ r, (bits = 32 ∧ addr = s.cfg.base + regOffset r) ∧ canWrite p r = true := by
  constructor
  · rintro ⟨cause, herror⟩ ⟨r, ⟨hbits, haddr⟩, hr⟩
    obtain ⟨t, ht⟩ := writeReg_next p r v s
    rw [busWrite_of_canWrite hv hbits haddr hr, ht] at herror
    cases herror
  · simp only [← accessReg_eq_ok_iff hv]
    intro hnone
    cases e : accessReg s.cfg addr bits with
    | error cause => exact ⟨cause, by rw [busWrite, e]⟩
    | ok r =>
      have hr : ¬canWrite p r = true := fun hr => hnone ⟨r, e, hr⟩
      exact ⟨.notWritable, by simp [busWrite, e, hr]⟩

end

/-- Settles O9: a write is performed as it stands, and two registers of each agent may be written. -/
theorem busWritesFollowTheRegisterMap : Obligations.BusWritesFollowTheRegisterMap := by
  unfold Obligations.BusWritesFollowTheRegisterMap
  intro s p addr bits v rest hv he
  have hstep : step s = busWrite p addr bits v (s.setEvents rest) := step_cons hv he
  have hv' : cfgValid (s.setEvents rest).cfg = true := hv
  rw [hstep]
  refine ⟨?_, ?_, ?_⟩
  · rw [busWrite_busError_iff hv', not_iff_not]
    constructor
    · rintro ⟨r, ⟨hbits, rfl⟩, hr⟩
      rcases (canWrite_iff p r).mp hr with ⟨hp, rfl | rfl⟩ | ⟨hp, rfl | rfl⟩
      · exact ⟨hbits, .inl ⟨hp, .inl rfl⟩⟩
      · exact ⟨hbits, .inl ⟨hp, .inr rfl⟩⟩
      · exact ⟨hbits, .inr ⟨hp, .inl rfl⟩⟩
      · exact ⟨hbits, .inr ⟨hp, .inr rfl⟩⟩
    · rintro ⟨hbits, ⟨rfl, haddr | haddr⟩ | ⟨rfl, haddr | haddr⟩⟩
      · exact ⟨.cmd, ⟨hbits, haddr⟩, rfl⟩
      · exact ⟨.data, ⟨hbits, haddr⟩, rfl⟩
      · exact ⟨.icmd, ⟨hbits, haddr⟩, rfl⟩
      · exact ⟨.idata, ⟨hbits, haddr⟩, rfl⟩
  · rintro hbits rfl haddr
    exact busWrite_of_canWrite (p := .M) (r := .data) hv' hbits haddr rfl
  · rintro hbits rfl haddr
    exact busWrite_of_canWrite (p := .I) (r := .idata) hv' hbits haddr rfl

end Sys2Proof.Machine
end

section
/-! Who may change what (20_memory.md R74; 60_exceptions.md R255, R256; 10_state.md R43): the frame of the commands
of each agent. -/

namespace Sys2Proof.Machine

/-! ### The frame of a command of agent I -/

/-- `t` is `s` but for agent I's counters and registers, `ERR`, agent I's windows and the capture slot at the
write index. -/
def ChangesOnlyInterruptState (s t : State) : Prop :=
  t = { s with readPtr := t.readPtr, writePtr := t.writePtr, err := t.err, idata := t.idata,
               iresult := t.iresult, mem := t.mem } ∧
  SameOutside (fun l => l.inWindows [.capwin, .playwin] ∨ l.inSlot s.cfg .capbuf s.readPtr) s t

section
variable {s t : State}

/-- Returning a code on the I port adds `IRESULT`, which is agent I's. -/
theorem ChangesOnlyInterruptState.returnCode (h : ChangesOnlyInterruptState s t) (code : ResultCode) :
    ChangesOnlyInterruptState s (returnCode .I code t) := by
  obtain ⟨hregs, helems⟩ := h
  refine ⟨?_, helems.trans (SameOutside.of_eq rfl rfl)⟩
  rw [returnCode_I, hregs]

theorem ChangesOnlyInterruptState.refl (s : State) : ChangesOnlyInterruptState s s := ⟨rfl, fun _ _ => rfl⟩

theorem windowOwner_eq_I {w : Window} (h : windowOwner w = .I) : w ∈ [Window.capwin, .playwin] := by
  revert h
  cases w <;> decide

/-- A command of agent I changes only what agent I owns, and a bit of `ERR`. -/
theorem exec_interrupt {i : Instr} (hport : i.port = .I) (h : exec i s = .next t) :
    ChangesOnlyInterruptState s t := by
  cases exec_effect h with
  | refused code => rw [hport]; exact (ChangesOnlyInterruptState.refl s).returnCode code
  | nop hi => subst hi; exact absurd hport (by decide)
  | setup hi => subst hi; exact absurd hport (by decide)
  | read w idx =>
    rw [hport]
    have hread : ChangesOnlyInterruptState s (setPortData .I (elem (s.win w) idx) s) :=
      ⟨rfl, SameOutside.of_eq rfl rfl⟩
    exact hread.returnCode _
  | write w idx _ _ _ ho _ =>
    rw [hport] at ho ⊢
    have hwrite : ChangesOnlyInterruptState s (s.storeWin w idx (portData .I s)) :=
      ⟨rfl, (sameOutside_putWin s w _ (windowOwner_eq_I ho)).mono fun _ => .inl⟩
    exact hwrite.returnCode _
  | capPop hi => subst hi; exact absurd hport (by decide)
  | playPop =>
    have hpop : ChangesOnlyInterruptState s (playPopBody s) :=
      ⟨rfl, (sameOutside_putWin s .playwin _ (by simp)).mono fun _ => .inl⟩
    exact hpop.returnCode _
  | capPush =>
    have hpush : ChangesOnlyInterruptState s (capPushBody s) := ⟨rfl, (capPushBody_frame s).mono fun _ => .inr⟩
    exact hpush.returnCode _
  | playPush hi => subst hi; exact absurd hport (by decide)
  | capFault f => exact ⟨rfl, SameOutside.of_eq rfl rfl⟩
  | playFault f _ hi => subst hi; exact absurd hport (by decide)
  | compute u hM => rw [hport] at hM; cases hM
  | seqFault f u hi => subst hi; exact absurd hport (by decide)
  | seqDone u hi => subst hi; exact absurd hport (by decide)

end

/-! ### The frame of a command of agent M -/

/-- An element of agent I's windows or of the capture slots. -/
def Loc.ofInterrupt (l : Loc) : Prop := l.inWindows [.capwin, .playwin] ∨ ∃ j k, l = .slot .capbuf j k

/-- Agent I's counters, registers and windows and the capture slots are in `t` as in `s`. -/
structure KeepsInterruptState (s t : State) : Prop where
  readPtr : t.readPtr = s.readPtr
  writePtr : t.writePtr = s.writePtr
  idata : t.idata = s.idata
  iresult : t.iresult = s.iresult
  elements : ∀ l : Loc, l.ofInterrupt → t.peek l = s.peek l

section
variable {s t u : State} {ws : List Window}

theorem KeepsInterruptState.trans (h1 : KeepsInterruptState s t) (h2 : KeepsInterruptState t u) :
    KeepsInterruptState s u :=
  ⟨h2.readPtr.trans h1.readPtr, h2.writePtr.trans h1.writePtr, h2.idata.trans h1.idata, h2.iresult.trans h1.iresult,
    fun l hl => (h2.elements l hl).trans (h1.elements l hl)⟩

theorem Loc.ofInterrupt.not_inWindows {l : Loc} (h : l.ofInterrupt) (hcap : .capwin ∉ ws) (hplay : .playwin ∉ ws) :
    ¬l.inWindows ws := by
  rcases h with h | ⟨j, k, rfl⟩
  · cases l with
    | win w i =>
      simp only [Loc.inWindows, List.mem_cons, List.not_mem_nil, or_false] at h ⊢
      rcases h with rfl | rfl
      · exact hcap
      · exact hplay
    | slot b j i => exact absurd h id
  · exact id

theorem Loc.ofInterrupt.not_inSlot_playbuf {l : Loc} (h : l.ofInterrupt) (c : Cfg) (k : Nat) :
    ¬l.inSlot c .playbuf k := by
  rcases h with h | ⟨j, k', rfl⟩
  · cases l with
    | win w i => exact id
    | slot b j i => exact absurd h id
  · rintro ⟨hb, _⟩
    cases hb

theorem KeepsInterruptState.of_walk (h : Walk ws s t) (hcap : .capwin ∉ ws) (hplay : .playwin ∉ ws) :
    KeepsInterruptState s t :=
  ⟨h.readPtr, h.writePtr, by rw [h.regs], by rw [h.regs], fun l hl => h.frame l (hl.not_inWindows hcap hplay)⟩

theorem keepsInterruptState_returnCode (code : ResultCode) (s : State) :
    KeepsInterruptState s (returnCode .M code s) := ⟨rfl, rfl, rfl, rfl, fun _ _ => returnCode_peek _ _ _ _⟩

theorem keepsInterruptState_raiseFault (f : Fault) (s : State) : KeepsInterruptState s (raiseFault .M f s) :=
  ⟨rfl, rfl, rfl, rfl, fun _ _ => raiseFault_peek _ _ _ _⟩

theorem keepsInterruptState_capPopBody (s : State) : KeepsInterruptState s (capPopBody s) :=
  ⟨rfl, rfl, rfl, rfl, fun l hl => capPopBody_frame s l (hl.not_inWindows (by decide) (by decide))⟩

theorem keepsInterruptState_playPushBody (s : State) : KeepsInterruptState s (playPushBody s) :=
  ⟨rfl, rfl, rfl, rfl, fun l hl => playPushBody_frame s l (hl.not_inSlot_playbuf _ _)⟩

/-- A window of agent M is none of agent I's. -/
theorem keepsInterruptState_storeWin {w : Window} (ho : windowOwner w = .M) (idx : Nat) (v : Word) (s : State) :
    KeepsInterruptState s (s.storeWin w idx v) := by
  refine .of_walk (ws := [w]) (Walk.putWin s (List.mem_singleton_self w) fun _ => length_store _ _ _ _) ?_ ?_
  all_goals
    rw [List.mem_singleton]
    rintro rfl
    cases ho

/-- A command of agent M other than `SYS.SETUP` leaves what agent I owns. -/
theorem exec_mainLoop {i : Instr} (hport : i.port = .M) (hi : i ≠ .sysSetup) (h : exec i s = .next t) :
    KeepsInterruptState s t := by
  cases exec_effect h with
  | refused code => rw [hport]; exact keepsInterruptState_returnCode code s
  | nop => exact keepsInterruptState_returnCode _ s
  | setup hsetup => exact absurd hsetup hi
  | read w idx =>
    rw [hport]
    have hread : KeepsInterruptState s (setPortData .M (elem (s.win w) idx) s) :=
      ⟨rfl, rfl, rfl, rfl, fun l _ => State.peek_congr rfl rfl l⟩
    exact hread.trans (keepsInterruptState_returnCode _ _)
  | write w idx _ _ _ ho =>
    rw [hport] at ho ⊢
    exact (keepsInterruptState_storeWin ho idx _ s).trans (keepsInterruptState_returnCode _ _)
  | capPop => exact (keepsInterruptState_capPopBody s).trans (keepsInterruptState_returnCode _ _)
  | playPop hpop => subst hpop; exact absurd hport (by decide)
  | capPush hpush => subst hpush; exact absurd hport (by decide)
  | playPush => exact (keepsInterruptState_playPushBody s).trans (keepsInterruptState_returnCode _ _)
  | capFault f _ hpush => subst hpush; exact absurd hport (by decide)
  | playFault f => exact keepsInterruptState_raiseFault f s
  | compute u _ _ _ hw =>
    exact (KeepsInterruptState.of_walk hw (by decide) (by decide)).trans (keepsInterruptState_returnCode _ _)
  | seqFault f u _ _ _ hw =>
    exact ((keepsInterruptState_capPopBody s).trans (.of_walk hw (by decide) (by decide))).trans
      (keepsInterruptState_raiseFault f u)
  | seqDone u _ _ _ hw =>
    have hwalk := (keepsInterruptState_capPopBody s).trans (.of_walk hw (by decide) (by decide))
    have hpublish := (hwalk.trans (keepsInterruptState_playPushBody u)).trans
      (.of_walk (Walk.setSeq [] _ .idle) (by decide) (by decide))
    exact hpublish.trans (keepsInterruptState_returnCode _ _)

end

/-- Settles O19, by the ways a command can end: each body's frame lies in what the agent of the command owns. -/
theorem agentsKeepToTheirState : Obligations.AgentsKeepToTheirState := by
  unfold Obligations.AgentsKeepToTheirState
  intro i s t h
  refine ⟨fun hport => exec_interrupt hport h, fun hport hi => ?_⟩
  have hkeeps := exec_mainLoop hport hi h
  exact ⟨hkeeps.readPtr, hkeeps.writePtr, hkeeps.idata, hkeeps.iresult, hkeeps.elements⟩

end Sys2Proof.Machine
end

section
/-! The encoding (30_encoding.md R92 to R99): the format of each command says which operands its word may hold, and
decoder, encoder and the masks of the opcode table all follow from it. Last, what a command word does on a port. -/

namespace Sys2Proof

/-! ### The formats (30_encoding.md R92) -/

/-- The three formats of a command word. -/
inductive Format where
  /-- No operand. -/
  | N
  /-- A source select. -/
  | S
  /-- A window id and an element index. -/
  | X

/-- The operand fields a format admits. -/
def Format.Accepts : Format → Nat → Nat → Prop
  | .N, a, idx => a = 0 ∧ idx = 0
  | .S, a, idx => a < 2 ∧ idx = 0
  | .X, _, _ => True

/-- The decoder's test of the operand fields, by format. -/
def Format.read (f : Format) (w : Word) (build : Nat → Nat → Instr) : Except DecodeReject Instr :=
  match f with
  | .N => formatN w (build 0 0)
  | .S => formatS w fun a => build a 0
  | .X => formatX w build

/-- A word of a format decodes exactly when its operand fields are admitted, and to them. -/
theorem Format.read_eq_ok_iff (f : Format) (w : Word) (build : Nat → Nat → Instr) (i : Instr) :
    f.read w build = .ok i ↔
      f.Accepts (aField w) (idxField w) ∧ build (aField w) (idxField w) = i := by
  cases f with
  | N =>
    simp only [Format.read, formatN, Format.Accepts]
    split
    · next h => simp [h]
    · next h => simp [h]
  | S =>
    simp only [Format.read, formatS, Format.Accepts]
    split
    · next hidx =>
      split
      · next ha => simp [hidx, ha]
      · next ha => simp [ha]
    · next hidx => simp [hidx]
  | X => simp [Format.read, formatX, Format.Accepts]

/-- The format of a command. -/
def Instr.format : Instr → Format
  | .olaAcc _ => .S
  | .bufRd _ _ => .X
  | .bufWr _ _ => .X
  | .iwinRd _ _ => .X
  | .iwinWr _ _ => .X
  | _ => .N

/-- The command of the same row with the operands of its format taken from `a` and `idx`. -/
def Instr.withOperands (i : Instr) (a idx : Nat) : Instr :=
  match i with
  | .olaAcc _ => .olaAcc a
  | .bufRd _ _ => .bufRd a idx
  | .bufWr _ _ => .bufWr a idx
  | .iwinRd _ _ => .iwinRd a idx
  | .iwinWr _ _ => .iwinWr a idx
  | i => i

section
variable (i : Instr) (a idx : Nat)

@[simp] theorem opcode_withOperands : opcode (i.withOperands a idx) = opcode i := by cases i <;> rfl

@[simp] theorem rowNumber_withOperands : Machine.rowNumber (i.withOperands a idx) = Machine.rowNumber i := by
  cases i <;> rfl

theorem opcode_lt : opcode i < 256 := by cases i <;> simp [opcode]

end

/-- A command is well-formed when its format accepts its operands and the fields are wide enough for them. -/
theorem Instr.wellFormed_iff (i : Instr) : i.wellFormed = true ↔
    ∃ a idx, a < 256 ∧ idx < 65536 ∧ i.format.Accepts a idx ∧ i.withOperands a idx = i := by
  constructor
  · intro h
    cases i with
    | olaAcc sel =>
      have hsel : sel < 2 := of_decide_eq_true h
      exact ⟨sel, 0, by omega, by decide, ⟨hsel, rfl⟩, rfl⟩
    | bufRd win idx | bufWr win idx | iwinRd win idx | iwinWr win idx =>
      obtain ⟨hwin, hidx⟩ : win < 256 ∧ idx < 65536 := by simpa [Instr.wellFormed, fitsFormatX] using h
      exact ⟨win, idx, hwin, hidx, trivial, rfl⟩
    | _ => exact ⟨0, 0, by decide, by decide, ⟨rfl, rfl⟩, rfl⟩
  · rintro ⟨a, idx, ha, hidx, haccepts, hi⟩
    rw [← hi]
    cases i with
    | olaAcc sel => exact decide_eq_true haccepts.1
    | bufRd | bufWr | iwinRd | iwinWr => simp [Instr.withOperands, Instr.wellFormed, fitsFormatX, ha, hidx]
    | _ => rfl

/-- The word of a command packs its `op` and its operands. -/
theorem encode_withOperands {i : Instr} {a idx : Nat} (h : i.format.Accepts a idx) :
    encode (i.withOperands a idx) = packWord (opcode i) a idx := by
  cases i with
  | olaAcc sel =>
    obtain ⟨-, rfl⟩ := h
    rfl
  | bufRd | bufWr | iwinRd | iwinWr => rfl
  | _ =>
    obtain ⟨rfl, rfl⟩ := h
    rfl

/-! ### The decoder -/

/-- A word with the `op` of a command is read by the command's format. -/
theorem decode_of_opField {w : Word} {i : Instr} (h : opField w = opcode i) :
    decode w = i.format.read w i.withOperands := by
  rw [decode, h]
  cases i <;> rfl

/-- The assigned values of `op` (30_encoding.md R96), in the order of the table. -/
def assignedOps : List Nat :=
  [0x00, 0x01, 0x10, 0x11, 0x20, 0x21, 0x30, 0x40, 0x41, 0x50, 0x51, 0x60, 0x70, 0x71, 0x80, 0x81, 0x90, 0x91]

/-- A command of each row, in the order of the table. -/
def rowCommands : List Instr :=
  [.sysNop, .sysSetup, .capPop, .playPush, .rsDec, .rsInt, .frmPush, .fftAnalyze, .fftMsyn, .olaAcc 0, .olaEmit,
   .seqStep, .bufRd 0 0, .bufWr 0 0, .capPush, .playPop, .iwinRd 0 0, .iwinWr 0 0]

theorem mem_assignedOps_iff {n : Nat} : n ∈ assignedOps ↔ ∃ i, opcode i = n := by
  constructor
  · intro h
    have hrows : assignedOps = rowCommands.map opcode := rfl
    rw [hrows, List.mem_map] at h
    obtain ⟨i, -, hi⟩ := h
    exact ⟨i, hi⟩
  · rintro ⟨i, rfl⟩
    cases i <;> simp [opcode, assignedOps]

theorem decode_of_unassigned {w : Word} (h : opField w ∉ assignedOps) : decode w = .error .unassignedOp := by
  simp only [assignedOps, List.mem_cons, List.not_mem_nil, or_false, not_or] at h
  simp only [decode, h, if_false]

/-- What the decoder answers: the command with the `op` of the word and its fields as operands, if they are
admitted. -/
theorem decode_eq_ok_iff {w : Word} {i : Instr} :
    decode w = .ok i ↔ opField w = opcode i ∧ i.format.Accepts (aField w) (idxField w) ∧
      i.withOperands (aField w) (idxField w) = i := by
  constructor
  · intro h
    have hassigned : opField w ∈ assignedOps := by
      by_contra hop
      rw [decode_of_unassigned hop] at h
      cases h
    obtain ⟨j, hj⟩ := mem_assignedOps_iff.mp hassigned
    rw [decode_of_opField hj.symm, Format.read_eq_ok_iff] at h
    obtain ⟨haccepts, rfl⟩ := h
    rw [← hj]
    cases j <;> exact ⟨rfl, haccepts, rfl⟩
  · rintro ⟨hop, hoperands⟩
    rw [decode_of_opField hop]
    exact (Format.read_eq_ok_iff _ _ _ _).mpr hoperands

/-- With the `op` of a command, a word decodes to some command exactly when the operand fields are admitted. -/
theorem exists_decode_ok_iff {w : Word} {i : Instr} (hop : opField w = opcode i) :
    (∃ j, decode w = .ok j) ↔ i.format.Accepts (aField w) (idxField w) := by
  simp [decode_of_opField hop, Format.read_eq_ok_iff]

theorem decode_encode {i : Instr} (h : i.wellFormed = true) : decode (encode i) = .ok i := by
  obtain ⟨a, idx, ha, hidx, haccepts, hi⟩ := i.wellFormed_iff.mp h
  have hop := opcode_lt i
  have hword : encode i = packWord (opcode i) a idx := by rw [← encode_withOperands haccepts, hi]
  rw [decode_eq_ok_iff, hword, opField_packWord a idx hop, aField_packWord idx hop ha, idxField_packWord hop ha hidx]
  exact ⟨rfl, haccepts, hi⟩

theorem encode_of_decode {w : Word} {i : Instr} (h : decode w = .ok i) : encode i = w := by
  obtain ⟨hop, haccepts, hi⟩ := decode_eq_ok_iff.mp h
  calc encode i = packWord (opcode i) (aField w) (idxField w) := by rw [← encode_withOperands haccepts, hi]
    _ = w := by rw [← hop, packWord_fields]

theorem wellFormed_of_decode {w : Word} {i : Instr} (h : decode w = .ok i) : i.wellFormed = true := by
  obtain ⟨-, hoperands⟩ := decode_eq_ok_iff.mp h
  exact i.wellFormed_iff.mpr ⟨_, _, aField_lt w, idxField_lt w, hoperands⟩

/-- Going through the bytes of the bus loses nothing. -/
theorem decodeTableWord_toNat (w : Word) : decodeTableWord 32 w.toNat = (decode w).toOption := by
  rw [decodeTableWord, Nat.mod_eq_of_lt w.isLt, BitVec.ofNat_toNat, BitVec.setWidth_eq, decodeBytes,
    wordOfBytes_bytesOfWord]
  cases h : decode w <;> simp only [h] <;> rfl

/-- Settles O1: the fields of the packed word are the command's own, so its format admits them. -/
theorem decodeInvertsEncode : Obligations.DecodeInvertsEncode := by
  unfold Obligations.DecodeInvertsEncode
  intro i h
  exact ⟨decode_encode h, by rw [decodeTableWord_toNat, decode_encode h]; rfl⟩

/-- Settles O2: a word is the packing of its fields, and the decoder takes each of them over or finds it zero. -/
theorem encodeInvertsDecode : Obligations.EncodeInvertsDecode := by
  unfold Obligations.EncodeInvertsDecode
  intro w i h
  exact ⟨encode_of_decode h, wellFormed_of_decode h⟩

/-! ### The opcode table (30_encoding.md R97) -/

/-- Words are equal when their fields are. -/
theorem word_eq_iff {v w : Word} :
    v = w ↔ opField v = opField w ∧ aField v = aField w ∧ idxField v = idxField w := by
  constructor
  · rintro rfl
    exact ⟨rfl, rfl, rfl⟩
  · rintro ⟨hop, ha, hidx⟩
    rw [← packWord_fields v, hop, ha, hidx, packWord_fields]

section
variable (v w : Word)

theorem opField_and : opField (v &&& w) = opField v &&& opField w := by
  simp only [opField, BitVec.extractLsb_and, BitVec.toNat_and]

theorem aField_and : aField (v &&& w) = aField v &&& aField w := by
  simp only [aField, BitVec.extractLsb_and, BitVec.toNat_and]

theorem idxField_and : idxField (v &&& w) = idxField v &&& idxField w := by
  simp only [idxField, BitVec.extractLsb_and, BitVec.toNat_and]

end

/-- The mask of a format: the bits its operands leave fixed. -/
def Format.mask : Format → Word
  | .N => 0xFFFFFFFF
  | .S => 0xFFFFFEFF
  | .X => 0x000000FF

/-- The mask keeps `op`. -/
theorem opField_and_mask (w : Word) (f : Format) : opField (w &&& f.mask) = opField w := by
  have hmask : opField f.mask = 2 ^ 8 - 1 := by cases f <;> rfl
  rw [opField_and, hmask, Nat.and_two_pow_sub_one_eq_mod, Nat.mod_eq_of_lt (opField_lt w)]

/-- All but the lowest bit of a byte are clear in 0 and 1 alone. -/
theorem and_254_eq_zero_iff {a : Nat} (ha : a < 256) : a &&& 254 = 0 ↔ a < 2 := by
  revert a
  decide +kernel

/-- What is left of the operand fields under the mask is zero exactly when the format admits them. -/
theorem masked_operands_eq_zero_iff (w : Word) (f : Format) :
    aField (w &&& f.mask) = 0 ∧ idxField (w &&& f.mask) = 0 ↔ f.Accepts (aField w) (idxField w) := by
  have ha : aField w &&& (2 ^ 8 - 1) = aField w := by
    rw [Nat.and_two_pow_sub_one_eq_mod, Nat.mod_eq_of_lt (aField_lt w)]
  have hidx : idxField w &&& (2 ^ 16 - 1) = idxField w := by
    rw [Nat.and_two_pow_sub_one_eq_mod, Nat.mod_eq_of_lt (idxField_lt w)]
  rw [aField_and, idxField_and]
  cases f with
  | N =>
    have hmaskA : aField Format.N.mask = 2 ^ 8 - 1 := rfl
    have hmaskIdx : idxField Format.N.mask = 2 ^ 16 - 1 := rfl
    rw [hmaskA, hmaskIdx, ha, hidx, Format.Accepts]
  | S =>
    have hmaskA : aField Format.S.mask = 254 := rfl
    have hmaskIdx : idxField Format.S.mask = 2 ^ 16 - 1 := rfl
    rw [hmaskA, hmaskIdx, hidx, and_254_eq_zero_iff (aField_lt w), Format.Accepts]
  | X =>
    have hmaskA : aField Format.X.mask = 0 := rfl
    have hmaskIdx : idxField Format.X.mask = 0 := rfl
    simp [hmaskA, hmaskIdx, Format.Accepts]

/-- The row of a command: its word without operands, and the mask of its format. -/
def tableRow (i : Instr) : Word × Word := (packWord (opcode i) 0 0, i.format.mask)

theorem opcodeTable_rowNumber (i : Instr) : opcodeTable[Machine.rowNumber i]? = some (tableRow i) := by
  cases i <;> rfl

/-- Every row is the row of a command. -/
theorem exists_command_of_row {k : Nat} {row : Word × Word} (h : opcodeTable[k]? = some row) :
    ∃ i, Machine.rowNumber i = k ∧ tableRow i = row := by
  have hk : k < opcodeTable.length := (List.getElem?_eq_some_iff.mp h).1
  have hrows : rowCommands.map Machine.rowNumber = List.range opcodeTable.length := rfl
  obtain ⟨i, -, rfl⟩ := List.mem_map.mp (hrows ▸ List.mem_range.mpr hk)
  rw [opcodeTable_rowNumber] at h
  exact ⟨i, rfl, Option.some.inj h⟩

/-- `op` says which row a command is of. -/
theorem opcode_eq_iff_rowNumber_eq {i j : Instr} :
    opcode i = opcode j ↔ Machine.rowNumber i = Machine.rowNumber j := by
  have hrow : ∀ i, Machine.rowNumber i = assignedOps.idxOf (opcode i) := fun i => by cases i <;> rfl
  have hop : ∀ i, assignedOps[Machine.rowNumber i]? = some (opcode i) := fun i => by cases i <;> rfl
  constructor
  · intro h
    rw [hrow, h, ← hrow]
  · intro h
    exact Option.some.inj (by rw [← hop, h, hop])

/-- The first fourteen rows are those of agent M (30_encoding.md R93, R97). -/
theorem port_eq_of_rowNumber (i : Instr) : i.port = if Machine.rowNumber i < 14 then .M else .I := by
  cases i <;> rfl

/-- A word selects a command's row when it has the command's `op` and operands its format admits. -/
theorem rowSelects_tableRow_iff (i : Instr) (w : Word) :
    rowSelects (tableRow i) w = true ↔ opField w = opcode i ∧ i.format.Accepts (aField w) (idxField w) := by
  have hop := opcode_lt i
  rw [rowSelects, beq_iff_eq, tableRow, word_eq_iff, opField_and_mask, opField_packWord 0 0 hop,
    aField_packWord 0 hop (by decide), idxField_packWord hop (by decide) (by decide), masked_operands_eq_zero_iff]

/-- A row is selected exactly by the words that decode to a command of that row. -/
theorem rowSelects_iff_decode {k : Nat} {row : Word × Word} (h : opcodeTable[k]? = some row) (w : Word) :
    rowSelects row w = true ↔ ∃ i, decode w = .ok i ∧ Machine.rowNumber i = k := by
  obtain ⟨i, rfl, rfl⟩ := exists_command_of_row h
  rw [rowSelects_tableRow_iff]
  constructor
  · rintro ⟨hop, haccepts⟩
    refine ⟨i.withOperands (aField w) (idxField w), ?_, rowNumber_withOperands i _ _⟩
    rw [decode_of_opField hop, Format.read_eq_ok_iff]
    exact ⟨haccepts, rfl⟩
  · rintro ⟨j, hj, hrow⟩
    obtain ⟨hopj, -⟩ := decode_eq_ok_iff.mp hj
    have hop : opField w = opcode i := hopj.trans (opcode_eq_iff_rowNumber_eq.mpr hrow)
    exact ⟨hop, (exists_decode_ok_iff hop).mp ⟨j, hj⟩⟩

/-- Settles O3: the mask of a row leaves free what its format admits; the decoder answers at most one command. -/
theorem decodeFollowsOpcodeTable : Obligations.DecodeFollowsOpcodeTable := by
  unfold Obligations.DecodeFollowsOpcodeTable
  refine ⟨fun w k row hrow => ?_, fun w j k r1 r2 hj hk h1 h2 => ?_⟩
  · rw [rowSelects_iff_decode hrow]
    constructor
    · rintro ⟨i, hi, rfl⟩
      exact ⟨i, hi, rfl, port_eq_of_rowNumber i⟩
    · rintro ⟨i, hi, hnumber, -⟩
      exact ⟨i, hi, hnumber⟩
  · obtain ⟨i, hi, rfl⟩ := (rowSelects_iff_decode hj w).mp h1
    obtain ⟨i', hi', rfl⟩ := (rowSelects_iff_decode hk w).mp h2
    rw [hi] at hi'
    cases hi'
    rfl

/-- Settles O4, each word by evaluation. -/
theorem specExampleWordsDecode : Obligations.SpecExampleWordsDecode := by
  unfold Obligations.SpecExampleWordsDecode
  exact ⟨rfl, rfl, rfl, rfl, rfl⟩

/-! ### Illegal words (30_encoding.md R99) -/

theorem decode_error_iff {w : Word} : (∃ e, decode w = .error e) ↔ ¬∃ i, decode w = .ok i := by
  cases decode w <;> simp

/-- The commands of format N by their `op`. -/
theorem format_eq_N_iff (i : Instr) : i.format = .N ↔
    opcode i ∈ [0x00, 0x01, 0x10, 0x11, 0x20, 0x21, 0x30, 0x40, 0x41, 0x51, 0x60, 0x80, 0x81] := by
  cases i <;> simp [Instr.format, opcode]

/-- The only command of format S by its `op`. -/
theorem format_eq_S_iff (i : Instr) : i.format = .S ↔ opcode i = 0x50 := by
  cases i <;> simp [Instr.format, opcode]

theorem Format.not_accepts_iff (f : Format) (a idx : Nat) :
    ¬f.Accepts a idx ↔ (f = .N ∧ (a ≠ 0 ∨ idx ≠ 0)) ∨ (f = .S ∧ (1 < a ∨ idx ≠ 0)) := by
  cases f with
  | N => simp [Format.Accepts, imp_iff_not_or]
  | S =>
    simp only [Format.Accepts, reduceCtorEq, false_and, false_or, true_and]
    omega
  | X => simp [Format.Accepts]

end Sys2Proof

namespace Sys2Proof.Machine

/-- An illegal word on either port (30_encoding.md R98 step 1). -/
theorem issue_of_decode_error {w : Word} {e : DecodeReject} (h : decode w = .error e) (p : Agent) (s : State) :
    issue p w s = .next (returnCode p .illegal s) := by
  rw [issue, h]
  rfl

/-- A command on its own port (30_encoding.md R98). -/
theorem issue_of_port_eq {w : Word} {i : Instr} (h : decode w = .ok i) (s : State) : issue i.port w s = exec i s := by
  rw [issue, h]
  exact if_pos rfl

/-- A command on the other agent's port (30_encoding.md R98 step 2). -/
theorem issue_of_port_ne {w : Word} {i : Instr} {p : Agent} (h : decode w = .ok i) (hp : i.port ≠ p) (s : State) :
    issue p w s = .next (returnCode p .perm s) := by
  rw [issue, h]
  exact if_neg hp

/-- Settles O5: a word decodes when its `op` is assigned and the format of that `op` admits the other fields. -/
theorem illegalWordsAreRefused : Obligations.IllegalWordsAreRefused := by
  unfold Obligations.IllegalWordsAreRefused
  refine ⟨fun w => ?_, fun w s ⟨e, he⟩ => ?_, rfl, _, rfl⟩
  · change _ ↔ opField w ∉ assignedOps ∨ _
    by_cases hassigned : opField w ∈ assignedOps
    · obtain ⟨i, hi⟩ := mem_assignedOps_iff.mp hassigned
      rw [decode_error_iff, exists_decode_ok_iff hi.symm, Format.not_accepts_iff, format_eq_N_iff, format_eq_S_iff, hi]
      exact (or_iff_right (not_not_intro hassigned)).symm
    · exact iff_of_true ⟨_, decode_of_unassigned hassigned⟩ (.inl hassigned)
  · exact ⟨issue_of_decode_error he .M s, issue_of_decode_error he .I s⟩

/-! ### A command word as the next event (30_encoding.md R90, R98) -/

/-- A command word written to a port is issued there, its event taken off the list. -/
theorem step_commandWrite {s : State} (hv : cfgValid s.cfg = true) {p : Agent} {w : Word} {rest : List Event}
    (he : s.events = commandWrite s.cfg p w :: rest) : step s = issue p w (s.setEvents rest) := by
  rw [step_cons hv he]
  exact perform_commandWrite (s := s.setEvents rest) hv p w

/-- The port bit of a word is the port of its command (30_encoding.md R93). -/
theorem portOfWord_of_decode {w : Word} {i : Instr} (h : decode w = .ok i) : portOfWord w = i.port := by
  obtain ⟨hop, -⟩ := decode_eq_ok_iff.mp h
  rw [portOfWord, hop, Instr.port]

/-- Settles O6: `withFetchWord` writes the word to the port of its command, with the events of `s` after it. -/
theorem stepRunsDecodedCommand : Obligations.StepRunsDecodedCommand := by
  unfold Obligations.StepRunsDecodedCommand
  intro s w i rest hv h
  refine ⟨fun he => ?_, ?_⟩
  · rw [step_commandWrite hv he]
    exact issue_of_port_eq h _
  · have hfetch : s.withFetchWord 32 w.toNat = s.setEvents (commandWrite s.cfg i.port w :: s.events) := by
      rw [State.withFetchWord, Nat.mod_eq_of_lt w.isLt, BitVec.ofNat_toNat, BitVec.setWidth_eq, placeCommand,
        portOfWord_of_decode h]
    calc step (s.withFetchWord 32 w.toNat)
        = step (s.setEvents (commandWrite s.cfg i.port w :: s.events)) := by rw [hfetch]
      _ = issue i.port w s := step_commandWrite (s := s.setEvents (_ :: s.events)) hv rfl
      _ = exec i s := issue_of_port_eq h s

/-- Settles O7: the port is tested before anything else of the command, the halt among it. -/
theorem stepRefusesOtherPortsCommand : Obligations.StepRefusesOtherPortsCommand := by
  unfold Obligations.StepRefusesOtherPortsCommand
  intro s w i rest hv h
  refine ⟨fun hport he => ?_, fun hport he => ?_⟩
  · rw [step_commandWrite hv he]
    exact issue_of_port_ne h (by rw [hport]; decide) _
  · rw [step_commandWrite hv he]
    exact issue_of_port_ne h (by rw [hport]; decide) _

end Sys2Proof.Machine
end

section
/-! The four hop commands one by one (40_hopbuffer.md R122 to R125, R130): the command of its word, its refusal in a
halted block, its fault or `R_EMPTY`, and the one hop that it moves otherwise. -/

namespace Sys2Proof.Machine

/-! ### Refusals and faults -/

/-- All but the four commands of 60_exceptions.md R247 are refused by a halted block, on their own port. -/
theorem refusesWhileHalted_of_runsWhileHalted_eq_false {i : Instr} (hi : runsWhileHalted i = false) :
    RefusesWhileHalted i := by
  intro s hs
  rw [exec_halted hi ((halted_iff s).mp hs)]
  cases i.port <;> rfl

section
variable {s : State} {f : Fault}

/-- In a running block a fault leaves its own bit alone in `ERR`. -/
theorem raiseFault_of_running (he : s.err = 0) (p : Agent) (f : Fault) :
    raiseFault p f s = returnCode p (faultCode f) (s.setErr (errBit f)) := by
  rw [raiseFault, he, BitVec.ofNat_eq_ofNat, BitVec.zero_or]

theorem produceFault_of_eq_maxIndex {c : Cfg} {w : Nat} (h : w = maxIndex c) (overrun : Fault) (r : Nat) :
    produceFault c overrun w r = some .indexOverflow := if_pos h

theorem produceFault_of_full {c : Cfg} {w r : Nat} (hne : w ≠ maxIndex c) (hfull : c.numHops ≤ w - r)
    (overrun : Fault) : produceFault c overrun w r = some overrun := by
  rw [produceFault, if_neg hne, if_pos hfull]

/-- A `CAP.PUSH` that may not produce changes `ERR` and `IRESULT` alone (40_hopbuffer.md R122). -/
theorem exec_capPush_fault (he : s.err = 0)
    (h : produceFault s.cfg .captureOverrun s.readPtr s.processReadPtr = some f) :
    exec .capPush s = .next { s with err := errBit f, iresult := codeWord (faultCode f) } := by
  obtain ⟨-, -, -, -, -, -, -, -, -, -, -, hrun, -⟩ := exec_running he
  rw [hrun, capPush, h]
  exact congrArg Host.Outcome.next (raiseFault_of_running he .I f)

/-- A `PLAY.PUSH` that may not produce changes `ERR` and `RESULT` alone (40_hopbuffer.md R124). -/
theorem exec_playPush_fault (he : s.err = 0)
    (h : produceFault s.cfg .playbackOverrun s.processWritePtr s.writePtr = some f) :
    exec .playPush s = .next { s with err := errBit f, result := codeWord (faultCode f) } := by
  obtain ⟨-, hrun, -⟩ := exec_running he
  rw [hrun, playPush, h]
  exact congrArg Host.Outcome.next (raiseFault_of_running he .M f)

/-- With no captured hop waiting `CAP.POP` writes `R_EMPTY` alone (40_hopbuffer.md R123). -/
theorem exec_capPop_empty (he : s.err = 0) (h : s.readPtr ≤ s.processReadPtr) :
    exec .capPop s = .next { s with result := 0x01 } := by
  obtain ⟨hrun, -⟩ := exec_running he
  rw [hrun, capPop, if_neg h.not_gt]
  rfl

/-- With no processed hop waiting `PLAY.POP` writes `R_EMPTY` alone (40_hopbuffer.md R125). -/
theorem exec_playPop_empty (he : s.err = 0) (h : s.processWritePtr ≤ s.writePtr) :
    exec .playPop s = .next { s with iresult := 0x01 } := by
  obtain ⟨-, -, -, -, -, -, -, -, -, -, -, -, hrun, -⟩ := exec_running he
  rw [hrun, playPop, if_neg h.not_gt]
  rfl

end

/-! ### The hop that moves -/

section
variable (s : State) (b : HopBuffer) (k : Nat) {i : Nat}

/-- The slot that a write fills holds the hop, element by element. -/
theorem peek_writeSlot_same (hop : List Word) (hn : 0 < s.cfg.numHops) (hi : i < nhop s.cfg) :
    (s.writeSlot b k hop).peek (.slot b (slotOf s.cfg k) i) = some (elem hop i) := by
  rw [State.peek_writeSlot]
  exact if_pos ⟨⟨rfl, rfl⟩, slotOf_lt hn k, hi⟩

/-- A window of one hop that a slot is copied to holds the slot, element by element. -/
theorem peek_putWin_readSlot {w : Window} (hw : inMemory w = true) (hlen : windowLen s.cfg w = nhop s.cfg)
    (hi : i < nhop s.cfg) :
    (s.putWin w (s.readSlot b k)).peek (.win w i) = some (s.slotElem b (slotOf s.cfg k) i) := by
  rw [State.peek_win, State.putWin_cfg, State.win_putWin, hlen, if_pos hi, if_pos ⟨rfl, hw⟩, State.readSlot,
    elem_tabulate_of_lt _ hi]

theorem peek_capPushBody_slot (hn : 0 < s.cfg.numHops) (hi : i < nhop s.cfg) :
    (capPushBody s).peek (.slot .capbuf (slotOf s.cfg s.readPtr) i) = some (s.item .capwin i) :=
  peek_writeSlot_same s .capbuf s.readPtr (s.win .capwin) hn hi

theorem peek_playPushBody_slot (hn : 0 < s.cfg.numHops) (hi : i < nhop s.cfg) :
    (playPushBody s).peek (.slot .playbuf (slotOf s.cfg s.processWritePtr) i) = some (s.item .nout i) :=
  peek_writeSlot_same s .playbuf s.processWritePtr (s.win .nout) hn hi

theorem peek_capPopBody_nin (hi : i < nhop s.cfg) :
    (capPopBody s).peek (.win .nin i) = some (s.slotElem .capbuf (slotOf s.cfg s.processReadPtr) i) :=
  peek_putWin_readSlot s .capbuf s.processReadPtr rfl rfl hi

theorem peek_playPopBody_playwin (hi : i < nhop s.cfg) :
    (playPopBody s).peek (.win .playwin i) = some (s.slotElem .playbuf (slotOf s.cfg s.writePtr) i) :=
  peek_putWin_readSlot s .playbuf s.writePtr rfl rfl hi

end

/-- Returning a code adds no element to the frame of a body. -/
theorem SameOutside.returnCode {p : Loc → Prop} {s t : State} (h : SameOutside p s t) (port : Agent)
    (code : ResultCode) : SameOutside p s (returnCode port code t) :=
  fun l hl => (returnCode_peek port code t l).trans (h l hl)

/-! ### The four commands -/

/-- Settles O24: the tests in their order, then the slot of the write index; room means that there is a slot. -/
theorem capPushPublishesOneHop : Obligations.CapPushPublishesOneHop := by
  unfold Obligations.CapPushPublishesOneHop
  refine ⟨⟨rfl, rfl, rfl⟩, refusesWhileHalted_of_runsWhileHalted_eq_false rfl, fun s he =>
    ⟨fun hmax => ?overflow, fun hne hfull => ?overrun, fun hne hroom => ?published⟩⟩
  case overflow => exact exec_capPush_fault he (produceFault_of_eq_maxIndex hmax _ _)
  case overrun => exact exec_capPush_fault he (produceFault_of_full hne hfull _)
  case published =>
    have hslots : 0 < s.cfg.numHops := Nat.zero_lt_of_lt hroom
    refine ⟨_, exec_capPush_published he hne hroom, rfl, fun i hi => ?_, (capPushBody_frame s).returnCode .I .ok⟩
    rw [returnCode_peek]
    exact peek_capPushBody_slot s hslots hi

/-- Settles O25: the slot of the read index is copied to `NIN`, and `NIN` is all that changes in memory. -/
theorem capPopConsumesOldestHop : Obligations.CapPopConsumesOldestHop := by
  unfold Obligations.CapPopConsumesOldestHop
  refine ⟨⟨rfl, rfl, rfl⟩, refusesWhileHalted_of_runsWhileHalted_eq_false rfl, fun s he =>
    ⟨exec_capPop_empty he, fun hwaits => ?taken⟩⟩
  case taken =>
    refine ⟨_, exec_capPop_taken he hwaits, rfl, fun i hi => ?_, (capPopBody_frame s).returnCode .M .ok⟩
    rw [returnCode_peek]
    exact peek_capPopBody_nin s hi

/-- Settles O26, as O24 on the playback side. -/
theorem playPushPublishesOneHop : Obligations.PlayPushPublishesOneHop := by
  unfold Obligations.PlayPushPublishesOneHop
  refine ⟨⟨rfl, rfl, rfl⟩, refusesWhileHalted_of_runsWhileHalted_eq_false rfl, fun s he =>
    ⟨fun hmax => ?overflow, fun hne hfull => ?overrun, fun hne hroom => ?published⟩⟩
  case overflow => exact exec_playPush_fault he (produceFault_of_eq_maxIndex hmax _ _)
  case overrun => exact exec_playPush_fault he (produceFault_of_full hne hfull _)
  case published =>
    have hslots : 0 < s.cfg.numHops := Nat.zero_lt_of_lt hroom
    refine ⟨_, exec_playPush_published he hne hroom, rfl, fun i hi => ?_, (playPushBody_frame s).returnCode .M .ok⟩
    rw [returnCode_peek]
    exact peek_playPushBody_slot s hslots hi

/-- Settles O27, as O25 on the playback side. -/
theorem playPopConsumesOldestHop : Obligations.PlayPopConsumesOldestHop := by
  unfold Obligations.PlayPopConsumesOldestHop
  refine ⟨⟨rfl, rfl, rfl⟩, refusesWhileHalted_of_runsWhileHalted_eq_false rfl, fun s he =>
    ⟨exec_playPop_empty he, fun hwaits => ?taken⟩⟩
  case taken =>
    refine ⟨_, exec_playPop_taken he hwaits, rfl, fun i hi => ?_, (playPopBody_frame s).returnCode .I .ok⟩
    rw [returnCode_peek]
    exact peek_playPopBody_playwin s hi

end Sys2Proof.Machine
end

section
/-! The resampler (41_resampler.md R142, R144, R145, R147). The input of a filter is read once as the rules write it,
with negative indices in the delay line; two hops in a row join to one longer input, because the delay line carries the
end of the first into the second. -/

namespace Sys2Proof.Machine

/-! ### Buffers in two parts -/

theorem tabulate_add {α : Type} (m n : Nat) (f : Nat → α) :
    tabulate (m + n) f = tabulate m f ++ tabulate n fun i => f (m + i) := by
  simp [tabulate, List.range_add, Function.comp_def]

/-- A buffer of `n` elements, then of `n` more. -/
theorem tabulate_two_mul {α : Type} {n : Nat} {f g h : Nat → α} (hfirst : ∀ i < n, f i = g i)
    (hsecond : ∀ i < n, f (n + i) = h i) : tabulate (2 * n) f = tabulate n g ++ tabulate n h := by
  rw [Nat.two_mul, tabulate_add, tabulate_congr hfirst, tabulate_congr hsecond]

theorem elem_append_of_lt {l : List Word} {i : Nat} (h : i < l.length) (m : List Word) :
    elem (l ++ m) i = elem l i := by rw [elem_append, if_pos h]

theorem elem_append_length_add (l m : List Word) (i : Nat) : elem (l ++ m) (l.length + i) = elem m i := by
  rw [elem_append, if_neg (by omega), Nat.add_sub_cancel_left]

/-! ### What the conversions and the filter depend on -/

/-- Conversion depends on the choice of conversion alone. -/
theorem pcm2f_cfg {c d : Cfg} (h : c.pcm = d.pcm) (w : Word) : pcm2f c w = pcm2f d w := by rw [pcm2f, pcm2f, h]

theorem f2pcm_cfg {c d : Cfg} (h : c.pcm = d.pcm) (a : F32) : f2pcm c a = f2pcm d a := by rw [f2pcm, f2pcm, h]

/-- A filter depends on the choice of arithmetic alone. -/
theorem firOutput_cfg {c d : Cfg} (h : c.arith = d.arith) (taps : Nat) (coef : List Word) (v : Nat → F32) (j : Nat) :
    firOutput c taps coef v j = firOutput d taps coef v j := by
  rw [firOutput, firOutput, fsum_cfg h]
  exact fsum_congr fun k _ => fmul_cfg h _ _

/-- The output at sample `j` of a hop depends on the input up to that sample. -/
theorem firOutput_congr (c : Cfg) {taps : Nat} (coef : List Word) {v w : Nat → F32} {j : Nat}
    (h : ∀ p ≤ j + (taps - 1), v p = w p) : firOutput c taps coef v j = firOutput c taps coef w j :=
  fsum_congr fun k _ => by rw [h _ (Nat.sub_le _ k)]

/-- The filter is the same at every place of its input. -/
theorem firOutput_add (c : Cfg) (taps : Nat) (coef : List Word) (v : Nat → F32) (n j : Nat) :
    firOutput c taps coef v (n + j) = firOutput c taps coef (fun p => v (n + p)) j :=
  fsum_congr fun k hk => by
    have hplace : n + j + (taps - 1) - k = n + (j + (taps - 1) - k) := by omega
    rw [hplace]

/-! ### The input of a filter as the rules write it -/

section
variable {taps p : Nat}

/-- The first places of a filter's input are the delay line. -/
theorem filterInput_of_lt (hp : p < taps - 1) (line : List Word) (x : Nat → F32) :
    filterInput taps line x p = elem line p := if_pos hp

/-- After the delay line come the new samples. -/
theorem filterInput_of_le (hp : taps - 1 ≤ p) (line : List Word) (x : Nat → F32) :
    filterInput taps line x p = x (p - (taps - 1)) := if_neg hp.not_gt

/-- The input up to the hop's end depends on the samples of the hop. -/
theorem filterInput_congr {n : Nat} (line : List Word) {x y : Nat → F32} (h : ∀ j < n, x j = y j)
    (hp : p < n + (taps - 1)) : filterInput taps line x p = filterInput taps line y p := by
  rcases Nat.lt_or_ge p (taps - 1) with hold | hnew
  · rw [filterInput_of_lt hold, filterInput_of_lt hold]
  · rw [filterInput_of_le hnew, filterInput_of_le hnew, h _ (by omega)]

end

/-- `v` of R142 and `w` of R145: negative indices are the delay line, the others the new samples. -/
def signedInput (taps : Nat) (line : List Word) (x : Nat → F32) (j : Int) : F32 :=
  if j < 0 then elem line (j + (taps - 1 : Nat)).toNat else x j.toNat

/-- Place `p` of the model's input is index `p - (taps - 1)` of the rules' input. -/
theorem signedInput_sub (taps : Nat) (line : List Word) (x : Nat → F32) (p : Nat) :
    signedInput taps line x ((p : Int) - (taps - 1 : Nat)) = filterInput taps line x p := by
  rcases Nat.lt_or_ge p (taps - 1) with hold | hnew
  · rw [filterInput_of_lt hold, signedInput, if_pos (by omega), Int.sub_add_cancel, Int.toNat_natCast]
  · have hindex : ((p : Int) - (taps - 1 : Nat)).toNat = p - (taps - 1) := by omega
    rw [filterInput_of_le hnew, signedInput, if_neg (by omega), hindex]

/-- The new delay line in the rules' indices: the last `taps - 1` samples up to the hop's end. -/
theorem signedInput_sub_add (taps : Nat) (line : List Word) (x : Nat → F32) (n i : Nat) :
    signedInput taps line x ((n : Int) - (taps - 1 : Nat) + i) = filterInput taps line x (n + i) := by
  have hindex : (n : Int) - (taps - 1 : Nat) + i = (n + i : Nat) - (taps - 1 : Nat) := by omega
  rw [hindex, signedInput_sub]

/-- The filter's output in the rules' indices: the ordered sum over the samples `j - k`. -/
theorem firOutput_filterInput (c : Cfg) (taps : Nat) (coef line : List Word) (x : Nat → F32) (j : Nat) :
    firOutput c taps coef (filterInput taps line x) j =
      fsum c taps fun k => fmul c (elem coef k) (signedInput taps line x ((j : Int) - k)) :=
  fsum_congr fun k hk => by
    have hindex : (j : Int) - k = (j + (taps - 1) - k : Nat) - (taps - 1 : Nat) := by omega
    rw [hindex, signedInput_sub]

/-! ### Two hops in a row -/

/-- `v` is the input of two hops of `n` samples in one: `v₁` that of the first, `v₂` that of the second. -/
structure JoinsHops (taps n : Nat) (v v₁ v₂ : Nat → F32) : Prop where
  first : ∀ p < n + (taps - 1), v p = v₁ p
  second : ∀ p, v (n + p) = v₂ p

/-- A delay line that holds the end of the first hop's input joins the second hop to it. -/
theorem joinsHops_filterInput {taps n : Nat} {line : List Word} {x x₁ x₂ : Nat → F32} (hfirst : ∀ j < n, x j = x₁ j)
    (hsecond : ∀ j, x (n + j) = x₂ j) :
    JoinsHops taps n (filterInput taps line x) (filterInput taps line x₁)
      (filterInput taps (tabulate (taps - 1) fun i => filterInput taps line x₁ (n + i)) x₂) where
  first _ hp := filterInput_congr line hfirst hp
  second p := by
    rcases Nat.lt_or_ge p (taps - 1) with hold | hnew
    · rw [filterInput_of_lt hold, elem_tabulate_of_lt _ hold, filterInput_congr line hfirst (by omega)]
    · rw [filterInput_of_le hnew, filterInput_of_le (Nat.le_add_left_of_le hnew), Nat.add_sub_assoc hnew, hsecond]

section
variable {taps n : Nat} {v v₁ v₂ : Nat → F32} (h : JoinsHops taps n v v₁ v₂) (c : Cfg) (coef : List Word)
include h

theorem JoinsHops.firOutput_first {j : Nat} (hj : j < n) :
    firOutput c taps coef v j = firOutput c taps coef v₁ j :=
  firOutput_congr c coef fun p _ => h.first p (by omega)

theorem JoinsHops.firOutput_second (j : Nat) :
    firOutput c taps coef v (n + j) = firOutput c taps coef v₂ j := by
  rw [firOutput_add]
  exact firOutput_congr c coef fun p _ => h.second p

/-- Both delay lines are the end of the second hop. -/
theorem JoinsHops.line_eq (i : Nat) : v (2 * n + i) = v₂ (n + i) := by
  rw [Nat.two_mul, Nat.add_assoc, h.second]

end

/-- The configuration with `HOP_SIZE` doubled. -/
def doubleHop (c : Cfg) : Cfg := { c with hopSize := 2 * c.hopSize }

@[simp] theorem doubleHop_hopSize (c : Cfg) : (doubleHop c).hopSize = 2 * c.hopSize := rfl
@[simp] theorem doubleHop_ratio (c : Cfg) : (doubleHop c).ratio = c.ratio := rfl
@[simp] theorem doubleHop_decTaps (c : Cfg) : (doubleHop c).decTaps = c.decTaps := rfl
@[simp] theorem doubleHop_intTaps (c : Cfg) : (doubleHop c).intTaps = c.intTaps := rfl
@[simp] theorem doubleHop_dcoef (c : Cfg) : (doubleHop c).dcoef = c.dcoef := rfl
@[simp] theorem doubleHop_icoef (c : Cfg) : (doubleHop c).icoef = c.icoef := rfl
@[simp] theorem doubleHop_pcm (c : Cfg) : (doubleHop c).pcm = c.pcm := rfl
@[simp] theorem doubleHop_arith (c : Cfg) : (doubleHop c).arith = c.arith := rfl
@[simp] theorem nhop_doubleHop (c : Cfg) : nhop (doubleHop c) = 2 * nhop c := Nat.mul_left_comm _ _ _

/-- `s₁` and `s₂` hold two hops in window `hop`, `s` holds both with `HOP_SIZE` doubled; `s₂` starts from the delay line
that the command leaves on `s₁`, `s` from that of `s₁`. -/
structure TwoHops (hop line : Window) (newLine : State → List Word) (s₁ s₂ s : State) : Prop where
  cfg : s.cfg = doubleHop s₁.cfg
  cfg₂ : s₂.cfg = s₁.cfg
  hops : s.win hop = s₁.win hop ++ s₂.win hop
  oldLine : s.win line = s₁.win line
  oldLine₂ : s₂.win line = newLine s₁

/-- The windows do not depend on `HOP_SIZE`. -/
theorem State.win_doubleHop (s : State) (w : Window) : State.win { s with cfg := doubleHop s.cfg } w = s.win w := by
  cases w <;> rfl

/-- The three states of R144 and R147: `t` is what the command leaves after the first hop. -/
theorem twoHops_putWin {hop line : Window} {newLine : State → List Word} {s t : State} {a : List Word}
    (hline : t.win line = newLine (s.putWin hop a)) (hcfg : t.cfg = s.cfg) (hhop : inMemory hop = true)
    (hne : line ≠ hop) (b : List Word) :
    TwoHops hop line newLine (s.putWin hop a) (t.putWin hop b)
      (State.putWin { s with cfg := doubleHop s.cfg } hop (a ++ b)) where
  cfg := rfl
  cfg₂ := hcfg
  hops := by simp [hhop]
  oldLine := by simp [hne, State.win_doubleHop]
  oldLine₂ := by simp [hne, hline]

/-! ### `RS.DEC` -/

/-- The native-rate sample that output `m` of `RS.DEC` is taken at lies in the hop. -/
theorem decimated_sample_lt {c : Cfg} (hv : cfgValid c = true) {m : Nat} (hm : m < c.hopSize) :
    c.ratio * m + (c.ratio - 1) < nhop c := by
  have hratio := (legal_of_cfgValid hv).ratio
  calc c.ratio * m + (c.ratio - 1)
      < c.ratio * (m + 1) := by rw [Nat.mul_succ]; omega
    _ ≤ nhop c := Nat.mul_le_mul_left _ hm

section
variable {s : State}

theorem exec_rsDec_running (he : s.err = 0) : exec .rsDec s = .next ((rsDecBody s).setResultReg 0) := by
  obtain ⟨-, -, hrun, -⟩ := exec_running he
  exact hrun

theorem win_mhi_rsDecBody (s : State) : (rsDecBody s).win .mhi = decOutput s := by simp [rsDecBody, inMemory]

theorem win_ddl_rsDecBody (s : State) : (rsDecBody s).win .ddl = decLine s := by simp [rsDecBody, inMemory]

theorem peek_mhi_rsDecBody {m : Nat} (hm : m < s.cfg.hopSize) :
    (rsDecBody s).peek (.win .mhi m) = some
      (firOutput s.cfg s.cfg.decTaps s.cfg.dcoef (decInput s) (s.cfg.ratio * m + (s.cfg.ratio - 1))) := by
  rw [State.peek_win, win_mhi_rsDecBody, decOutput, elem_tabulate_of_lt _ hm]
  exact if_pos hm

theorem peek_ddl_rsDecBody {i : Nat} (hi : i < s.cfg.decTaps - 1) :
    (rsDecBody s).peek (.win .ddl i) = some (decInput s (nhop s.cfg + i)) := by
  rw [State.peek_win, win_ddl_rsDecBody, decLine, elem_tabulate_of_lt _ hi]
  exact if_pos hi

end

/-- Settles O30: the body's output and line, read in the indices of R142. -/
theorem rsDecFiltersAndDecimates : Obligations.RsDecFiltersAndDecimates := by
  unfold Obligations.RsDecFiltersAndDecimates
  refine ⟨⟨rfl, rfl, rfl⟩, refusesWhileHalted_of_runsWhileHalted_eq_false rfl, fun s _ he => ?_⟩
  refine ⟨_, exec_rsDec_running he, rfl, fun m hm => ?output, fun i hi => ?line, (rsDecBody_frame s).setResultReg 0⟩
  case output =>
    rw [State.peek_setResultReg, peek_mhi_rsDecBody hm, decInput, firOutput_filterInput]
    rfl
  case line =>
    rw [State.peek_setResultReg, peek_ddl_rsDecBody hi, decInput, ← signedInput_sub_add]
    rfl

section
variable {s₁ s₂ s : State} (h : TwoHops .nin .ddl decLine s₁ s₂ s)
include h

/-- The delay line joins the decimator's input of the second hop to that of the first. -/
theorem joinsHops_decInput (hlen : (s₁.win .nin).length = nhop s₁.cfg) :
    JoinsHops s₁.cfg.decTaps (nhop s₁.cfg) (decInput s) (decInput s₁) (decInput s₂) := by
  rw [decInput, decInput, decInput, h.cfg, h.cfg₂, h.oldLine, h.oldLine₂, h.hops, decLine, doubleHop_decTaps]
  refine joinsHops_filterInput (fun j hj => ?_) fun j => ?_
  · rw [pcm2f_cfg (doubleHop_pcm _), elem_append_of_lt (hlen ▸ hj)]
  · rw [pcm2f_cfg (doubleHop_pcm _), ← hlen, elem_append_length_add]

theorem decOutput_twoHops (hv : cfgValid s₁.cfg = true) (hlen : (s₁.win .nin).length = nhop s₁.cfg) :
    decOutput s = decOutput s₁ ++ decOutput s₂ := by
  have joins := joinsHops_decInput h hlen
  simp only [decOutput, h.cfg, h.cfg₂, doubleHop_hopSize, doubleHop_ratio, doubleHop_decTaps, doubleHop_dcoef,
    firOutput_cfg (doubleHop_arith s₁.cfg)]
  refine tabulate_two_mul (fun m hm => ?first) fun m _ => ?second
  case first => exact joins.firOutput_first _ _ (decimated_sample_lt hv hm)
  case second =>
    have hsample : s₁.cfg.ratio * (s₁.cfg.hopSize + m) + (s₁.cfg.ratio - 1) =
        nhop s₁.cfg + (s₁.cfg.ratio * m + (s₁.cfg.ratio - 1)) := by rw [Nat.mul_add, Nat.add_assoc, nhop]
    rw [hsample, joins.firOutput_second]

theorem decLine_twoHops (hlen : (s₁.win .nin).length = nhop s₁.cfg) : decLine s = decLine s₂ := by
  rw [decLine, decLine, h.cfg, h.cfg₂, doubleHop_decTaps, nhop_doubleHop]
  exact tabulate_congr fun i _ => (joinsHops_decInput h hlen).line_eq i

end

/-- Settles O32: the longer input joins the two, so its outputs and its last line are theirs. -/
theorem decimationPersistsAcrossHops : Obligations.DecimationPersistsAcrossHops := by
  unfold Obligations.DecimationPersistsAcrossHops
  intro s a b hv he ha _
  have hlen : ((s.putWin .nin a).win .nin).length = nhop s.cfg := by simpa [inMemory] using ha
  have hline : ((rsDecBody (s.putWin .nin a)).setResultReg 0).win .ddl = decLine (s.putWin .nin a) := by
    rw [State.win_setResultReg, win_ddl_rsDecBody]
  have hops := twoHops_putWin (newLine := decLine) hline rfl rfl (by decide) b
  refine ⟨_, _, _, exec_rsDec_running he, exec_rsDec_running he, exec_rsDec_running he, ?outputs, ?line⟩
  case outputs =>
    simp only [State.win_setResultReg, win_mhi_rsDecBody]
    exact decOutput_twoHops hops hv hlen
  case line =>
    simp only [State.win_setResultReg, win_ddl_rsDecBody]
    exact decLine_twoHops hops hlen

/-! ### `RS.INT` -/

section
variable {s : State}

theorem exec_rsInt_running (he : s.err = 0) : exec .rsInt s = .next ((rsIntBody s).setResultReg 0) := by
  obtain ⟨-, -, -, hrun, -⟩ := exec_running he
  exact hrun

theorem win_nout_rsIntBody (s : State) : (rsIntBody s).win .nout = intOutput s := by simp [rsIntBody, inMemory]

theorem win_idl_rsIntBody (s : State) : (rsIntBody s).win .idl = intLine s := by simp [rsIntBody, inMemory]

theorem peek_nout_rsIntBody {n : Nat} (hn : n < nhop s.cfg) :
    (rsIntBody s).peek (.win .nout n) =
      some (f2pcm s.cfg (firOutput s.cfg s.cfg.intTaps s.cfg.icoef (intInput s) n)) := by
  rw [State.peek_win, win_nout_rsIntBody, intOutput, elem_tabulate_of_lt _ hn]
  exact if_pos hn

theorem peek_idl_rsIntBody {i : Nat} (hi : i < s.cfg.intTaps - 1) :
    (rsIntBody s).peek (.win .idl i) = some (intInput s (nhop s.cfg + i)) := by
  rw [State.peek_win, win_idl_rsIntBody, intLine, elem_tabulate_of_lt _ hi]
  exact if_pos hi

/-- The two equations of R145 say what the zero-stuffed hop is. -/
theorem zeroStuffed_eq {z : Nat → F32}
    (hz : ∀ m < s.cfg.hopSize, z (s.cfg.ratio * m) = s.item .mho m ∧
      ∀ p, 1 ≤ p → p < s.cfg.ratio → z (s.cfg.ratio * m + p) = 0)
    {j : Nat} (hj : j < nhop s.cfg) : zeroStuffed s j = z j := by
  have hratio : 0 < s.cfg.ratio := Nat.pos_of_mul_pos_right (Nat.zero_lt_of_lt hj)
  obtain ⟨hsample, hzero⟩ := hz (j / s.cfg.ratio) (Nat.div_lt_of_lt_mul hj)
  have hsplit : s.cfg.ratio * (j / s.cfg.ratio) + j % s.cfg.ratio = j := Nat.div_add_mod j s.cfg.ratio
  rw [zeroStuffed]
  split
  case isTrue hmod =>
    rw [hmod, Nat.add_zero] at hsplit
    rw [hsplit] at hsample
    exact hsample.symm
  case isFalse hmod =>
    have hstuffed := hzero _ (Nat.one_le_iff_ne_zero.mpr hmod) (Nat.mod_lt j hratio)
    rw [hsplit] at hstuffed
    exact hstuffed.symm

end

/-- Settles O31: the zero-stuffed hop is the rule's `z` up to the hop's end, and no output reads past it. -/
theorem rsIntStuffsAndFilters : Obligations.RsIntStuffsAndFilters := by
  unfold Obligations.RsIntStuffsAndFilters
  refine ⟨⟨rfl, rfl, rfl⟩, refusesWhileHalted_of_runsWhileHalted_eq_false rfl, fun s z _ he hz => ?_⟩
  have hinput : ∀ p < nhop s.cfg + (s.cfg.intTaps - 1), intInput s p = filterInput s.cfg.intTaps (s.win .idl) z p :=
    fun p hp => filterInput_congr _ (fun j hj => zeroStuffed_eq hz hj) hp
  refine ⟨_, exec_rsInt_running he, rfl, fun n hn => ?output, fun i hi => ?line, (rsIntBody_frame s).setResultReg 0⟩
  case output =>
    rw [State.peek_setResultReg, peek_nout_rsIntBody hn, firOutput_congr _ _ fun p hp => hinput p (by omega),
      firOutput_filterInput]
    rfl
  case line =>
    rw [State.peek_setResultReg, peek_idl_rsIntBody hi, hinput _ (by omega), ← signedInput_sub_add]
    rfl

section
variable {s₁ s₂ s : State} (h : TwoHops .mho .idl intLine s₁ s₂ s)
include h

/-- The zero-stuffed samples of two hops are those of the first, then those of the second. -/
theorem zeroStuffed_first (hlen : (s₁.win .mho).length = s₁.cfg.hopSize) {j : Nat} (hj : j < nhop s₁.cfg) :
    zeroStuffed s j = zeroStuffed s₁ j := by
  rw [zeroStuffed, zeroStuffed, h.cfg, h.hops, doubleHop_ratio,
    elem_append_of_lt (hlen ▸ Nat.div_lt_of_lt_mul hj)]

theorem zeroStuffed_second (hv : cfgValid s₁.cfg = true) (hlen : (s₁.win .mho).length = s₁.cfg.hopSize) (j : Nat) :
    zeroStuffed s (nhop s₁.cfg + j) = zeroStuffed s₂ j := by
  have hratio := (legal_of_cfgValid hv).ratio
  rw [zeroStuffed, zeroStuffed, h.cfg, h.cfg₂, h.hops, doubleHop_ratio, nhop, Nat.mul_add_mod,
    Nat.mul_add_div hratio, ← hlen, elem_append_length_add]

/-- The delay line joins the interpolator's input of the second hop to that of the first. -/
theorem joinsHops_intInput (hv : cfgValid s₁.cfg = true) (hlen : (s₁.win .mho).length = s₁.cfg.hopSize) :
    JoinsHops s₁.cfg.intTaps (nhop s₁.cfg) (intInput s) (intInput s₁) (intInput s₂) := by
  rw [intInput, intInput, intInput, h.cfg, h.cfg₂, h.oldLine, h.oldLine₂, intLine, doubleHop_intTaps]
  exact joinsHops_filterInput (fun j hj => zeroStuffed_first h hlen hj) (zeroStuffed_second h hv hlen)

theorem intOutput_twoHops (hv : cfgValid s₁.cfg = true) (hlen : (s₁.win .mho).length = s₁.cfg.hopSize) :
    intOutput s = intOutput s₁ ++ intOutput s₂ := by
  have joins := joinsHops_intInput h hv hlen
  simp only [intOutput, h.cfg, h.cfg₂, nhop_doubleHop, doubleHop_intTaps, doubleHop_icoef,
    f2pcm_cfg (doubleHop_pcm s₁.cfg), firOutput_cfg (doubleHop_arith s₁.cfg)]
  refine tabulate_two_mul (fun n hn => ?first) fun n _ => ?second
  case first => rw [joins.firOutput_first _ _ hn]
  case second => rw [joins.firOutput_second]

theorem intLine_twoHops (hv : cfgValid s₁.cfg = true) (hlen : (s₁.win .mho).length = s₁.cfg.hopSize) :
    intLine s = intLine s₂ := by
  rw [intLine, intLine, h.cfg, h.cfg₂, doubleHop_intTaps, nhop_doubleHop]
  exact tabulate_congr fun i _ => (joinsHops_intInput h hv hlen).line_eq i

end

/-- Settles O33, as O32 with the zero-stuffed samples in the place of the converted ones. -/
theorem interpolationPersistsAcrossHops : Obligations.InterpolationPersistsAcrossHops := by
  unfold Obligations.InterpolationPersistsAcrossHops
  intro s a b hv he ha _
  have hlen : ((s.putWin .mho a).win .mho).length = s.cfg.hopSize := by simpa [inMemory] using ha
  have hline : ((rsIntBody (s.putWin .mho a)).setResultReg 0).win .idl = intLine (s.putWin .mho a) := by
    rw [State.win_setResultReg, win_idl_rsIntBody]
  have hops := twoHops_putWin (newLine := intLine) hline rfl rfl (by decide) b
  refine ⟨_, _, _, exec_rsInt_running he, exec_rsInt_running he, exec_rsInt_running he, ?outputs, ?line⟩
  case outputs =>
    simp only [State.win_setResultReg, win_nout_rsIntBody]
    exact intOutput_twoHops hops hv hlen
  case line =>
    simp only [State.win_setResultReg, win_idl_rsIntBody]
    exact intLine_twoHops hops hv hlen

end Sys2Proof.Machine
end

section
/-! The frame assembler (42_frame_assembler.md R160, R162): what one `FRM.PUSH` makes of each element of the frame, and
by induction over the pushes that the frame is the end of the stream. -/

namespace Sys2Proof.Machine

/-! ### One push -/

section
variable {f h i : Nat} (l : List Word) (tail : Nat → Word)

theorem elem_shiftIn_kept (hi : i < f - h) : elem (shiftIn f h l tail) i = elem l (i + h) := by
  rw [shiftIn, elem_tabulate_of_lt _ (by omega), if_pos hi]

theorem elem_shiftIn_freed (hle : h ≤ f) (hi : i < h) : elem (shiftIn f h l tail) (f - h + i) = tail i := by
  rw [shiftIn, elem_tabulate_of_lt _ (by omega), if_neg (by omega), Nat.add_sub_cancel_left]

end

section
variable {s : State} {i : Nat}

theorem exec_frmPush_running (he : s.err = 0) : exec .frmPush s = .next ((frmPushBody s).setResultReg 0) := by
  obtain ⟨-, -, -, -, hrun, -⟩ := exec_running he
  exact hrun

theorem win_aframe_frmPushBody (s : State) : (frmPushBody s).win .aframe =
    shiftIn s.cfg.frameSize s.cfg.hopSize (s.win .aframe) (elem (s.win .mhi)) := by simp [frmPushBody, inMemory]

theorem item_frmPushBody_kept (hi : i < s.cfg.frameSize - s.cfg.hopSize) :
    (frmPushBody s).item .aframe i = s.item .aframe (i + s.cfg.hopSize) := by
  rw [State.item, win_aframe_frmPushBody, elem_shiftIn_kept _ _ hi, State.item]

theorem item_frmPushBody_freed (hle : s.cfg.hopSize ≤ s.cfg.frameSize) (hi : i < s.cfg.hopSize) :
    (frmPushBody s).item .aframe (s.cfg.frameSize - s.cfg.hopSize + i) = s.item .mhi i := by
  rw [State.item, win_aframe_frmPushBody, elem_shiftIn_freed _ _ hle hi, State.item]

/-- An element inside its window is the window's item. -/
theorem State.peek_win_of_lt {w : Window} (hi : i < windowLen s.cfg w) : s.peek (.win w i) = some (s.item w i) :=
  if_pos hi

theorem peek_aframe_frmPushBody (hi : i < s.cfg.frameSize) :
    (frmPushBody s).peek (.win .aframe i) = some ((frmPushBody s).item .aframe i) := State.peek_win_of_lt hi

end

/-- Settles O34: the part of the frame that is kept, then the tail that the shift frees. -/
theorem frmPushSlidesTheFrame : Obligations.FrmPushSlidesTheFrame := by
  unfold Obligations.FrmPushSlidesTheFrame
  refine ⟨⟨rfl, rfl, rfl⟩, refusesWhileHalted_of_runsWhileHalted_eq_false rfl, fun s hv he => ?_⟩
  have hle := (legal_of_cfgValid hv).hop_le_frame
  have hframe := (frmPushBody_frame s).setResultReg 0
  refine ⟨_, exec_frmPush_running he, rfl, fun i hi => ?kept, fun i hi => ?freed, hframe⟩
  case kept => rw [State.peek_setResultReg, peek_aframe_frmPushBody (by omega), item_frmPushBody_kept hi]
  case freed => rw [State.peek_setResultReg, peek_aframe_frmPushBody (by omega), item_frmPushBody_freed hle hi]

/-! ### The end of a stream -/

/-- Element `i` of the last `f` samples of a stream, `+0.0` standing before the first (R162). -/
def lastSample (f : Nat) (stream : List Word) (i : Nat) : Word :=
  if f ≤ stream.length + i then elem stream (stream.length + i - f) else 0

section
variable {f i : Nat} {hop : List Word}

@[simp] theorem lastSample_nil (f i : Nat) : lastSample f [] i = 0 := by simp [lastSample]

theorem lastSample_append_kept (stream : List Word) (hi : i < f - hop.length) :
    lastSample f (stream ++ hop) i = lastSample f stream (i + hop.length) := by
  have hsum : (stream ++ hop).length + i = stream.length + (i + hop.length) := by
    rw [List.length_append]; omega
  rw [lastSample, lastSample, hsum]
  refine if_ctx_congr Iff.rfl (fun hf => ?_) fun _ => rfl
  exact elem_append_of_lt (by omega) hop

theorem lastSample_append_freed (stream : List Word) (hle : hop.length ≤ f) (i : Nat) :
    lastSample f (stream ++ hop) (f - hop.length + i) = elem hop i := by
  have hsum : (stream ++ hop).length + (f - hop.length + i) = f + (stream.length + i) := by
    rw [List.length_append]; omega
  rw [lastSample, hsum, if_pos (Nat.le_add_right ..), Nat.add_sub_cancel_left, elem_append_length_add]

end

/-! ### The pushes of a stream -/

/-- A running block whose frame is the end of the stream. -/
structure FrameHolds (stream : List Word) (s : State) : Prop where
  running : s.err = 0
  frame : ∀ i < s.cfg.frameSize, s.item .aframe i = lastSample s.cfg.frameSize stream i

theorem frameHolds_resetOf (c : Cfg) : FrameHolds [] (State.resetOf c) where
  running := rfl
  frame i _ := by rw [State.item, win_resetOf c rfl, zeros, elem_replicate_zero, lastSample_nil]

/-- The state after a hop is put into `MHI` and pushed. -/
def pushHop (hop : List Word) (s : State) : State := (frmPushBody (s.putWin .mhi hop)).setResultReg 0

theorem framePushes_cons {s : State} (he : s.err = 0) (hop : List Word) (rest : List (List Word)) :
    framePushes (hop :: rest) s = framePushes rest (pushHop hop s) := by
  have hpush : exec .frmPush (s.putWin .mhi hop) = .next (pushHop hop s) := exec_frmPush_running he
  rw [framePushes, hpush]

section
variable {s : State} {hop : List Word} {i : Nat}

theorem pushHop_cfg (hop : List Word) (s : State) : (pushHop hop s).cfg = s.cfg := rfl

theorem item_pushHop_kept (hi : i < s.cfg.frameSize - s.cfg.hopSize) :
    (pushHop hop s).item .aframe i = s.item .aframe (i + s.cfg.hopSize) := by
  rw [pushHop, State.item, State.win_setResultReg]
  refine (item_frmPushBody_kept (s := s.putWin .mhi hop) hi).trans ?_
  simp [State.item]

theorem item_pushHop_freed (hle : s.cfg.hopSize ≤ s.cfg.frameSize) (hi : i < s.cfg.hopSize) :
    (pushHop hop s).item .aframe (s.cfg.frameSize - s.cfg.hopSize + i) = elem hop i := by
  rw [pushHop, State.item, State.win_setResultReg]
  refine (item_frmPushBody_freed (s := s.putWin .mhi hop) hle hi).trans ?_
  simp [State.item, inMemory]

/-- A push appends its hop to the stream. -/
theorem frameHolds_pushHop {stream : List Word} (holds : FrameHolds stream s) (hle : s.cfg.hopSize ≤ s.cfg.frameSize)
    (hlen : hop.length = s.cfg.hopSize) : FrameHolds (stream ++ hop) (pushHop hop s) where
  running := holds.running
  frame i hi := by
    rw [pushHop_cfg] at hi ⊢
    by_cases hkept : i < s.cfg.frameSize - s.cfg.hopSize
    case pos =>
      rw [item_pushHop_kept hkept, holds.frame _ (by omega), lastSample_append_kept _ (by omega), hlen]
    case neg =>
      obtain ⟨j, rfl⟩ := Nat.exists_eq_add_of_le (Nat.le_of_not_lt hkept)
      rw [item_pushHop_freed hle (by omega), ← hlen, lastSample_append_freed _ (hlen ▸ hle)]

end

/-- Pushes append their hops to the stream, one after the other. -/
theorem frameHolds_framePushes {hops : List (List Word)} {stream : List Word} {s : State} (holds : FrameHolds stream s)
    (hle : s.cfg.hopSize ≤ s.cfg.frameSize) (hlen : ∀ hop ∈ hops, hop.length = s.cfg.hopSize) :
    ∃ t, framePushes hops s = .next t ∧ t.cfg = s.cfg ∧ FrameHolds (stream ++ hops.flatten) t := by
  induction hops generalizing stream s with
  | nil => exact ⟨s, rfl, rfl, by rwa [List.flatten_nil, List.append_nil]⟩
  | cons hop rest ih =>
    obtain ⟨hhop, hrest⟩ := List.forall_mem_cons.mp hlen
    rw [framePushes_cons holds.running, List.flatten_cons, ← List.append_assoc]
    exact ih (frameHolds_pushHop holds hle hhop) hle hrest

theorem length_flatten_of_length_eq {α : Type} {n : Nat} {ls : List (List α)} (h : ∀ l ∈ ls, l.length = n) :
    ls.flatten.length = ls.length * n := by
  rw [List.length_flatten, List.map_congr_left h, List.map_const', List.sum_replicate, smul_eq_mul]

/-- Settles O35: at reset the stream is empty, and `t` hops make `t * H` samples. -/
theorem frameHoldsTheLastSamples : Obligations.FrameHoldsTheLastSamples := by
  unfold Obligations.FrameHoldsTheLastSamples
  intro c hops hv hlen
  obtain ⟨t, hrun, (hcfg : t.cfg = c), holds⟩ :=
    frameHolds_framePushes (frameHolds_resetOf c) (legal_of_cfgValid hv).hop_le_frame hlen
  have hframe := holds.frame
  rw [hcfg, List.nil_append] at hframe
  refine ⟨t, hrun, fun i hi => (hframe i hi).trans ?_⟩
  rw [lastSample, length_flatten_of_length_eq hlen]

end Sys2Proof.Machine
end

section
/-! The spectral commands and the two transforms (43_spectral.md R167, R168, R170, R171, R175, R177, R178). Whatever the
transform, law (c) decides on zeros and the chosen transform on the rest; the inverse is a function of the parts of the
bins it may use. -/

namespace Sys2Proof.Machine

/-! ### Which bins are real -/

section
variable {c : Cfg} {k : Nat}

theorem isRealBin_zero (c : Cfg) : isRealBin c 0 = true := rfl

theorem isRealBin_half (c : Cfg) : isRealBin c (c.fftSize / 2) = true := by simp [isRealBin]

theorem isRealBin_eq_false_iff (hk : k ≤ c.fftSize / 2) : isRealBin c k = false ↔ 0 < k ∧ k < c.fftSize / 2 := by
  simp [isRealBin]; omega

theorem bin_tabulate_of_le (f : Nat → F32 × F32) (hk : k ≤ c.fftSize / 2) : bin (tabulate (binCount c) f) k = f k := by
  have hk : k < binCount c := Nat.lt_succ_of_le hk
  rw [bin_tabulate, if_pos hk]

theorem bin_mem {y : List (F32 × F32)} (hk : k < y.length) : bin y k ∈ y := by simp [bin, List.getD, hk]

end

/-! ### The forward transform -/

section
variable {c : Cfg} {x : List F32} {k : Nat}

/-- Law (c) of R167. -/
theorem rfft_of_zeros (c : Cfg) (h : ∀ a ∈ x, isZero a = true) : rfft c x = tabulate (binCount c) fun _ => (0, 0) :=
  if_pos (List.all_eq_true.mpr h)

theorem rfft_of_nonzero (c : Cfg) (h : ∃ a ∈ x, isZero a = false) : rfft c x = chosenRfft c x := by
  obtain ⟨a, ha, hnonzero⟩ := h
  exact if_neg fun hall => Bool.false_ne_true (hnonzero.symm.trans (List.all_eq_true.mp hall a ha))

theorem chosenRfft_reference (ht : c.transform = .reference) : chosenRfft c x = refRfft c x := by
  unfold chosenRfft
  rw [ht]

/-- The default transform, where law (c) does not replace it or changes nothing. -/
theorem rfft_eq_refRfft (hv : cfgValid c = true) (ht : c.transform = .reference)
    (h : (∃ r, c.arith = .ieee r) ∨ ∃ a ∈ x, isZero a = false) : rfft c x = refRfft c x := by
  rcases h with ⟨r, hr⟩ | hnonzero
  · exact rfft_reference ht hr hv x
  · rw [rfft_of_nonzero c hnonzero, chosenRfft_reference ht]

/-- Law (b) of R167, of each transform that can be chosen. -/
theorem bin_chosenRfft_im (hk : k ≤ c.fftSize / 2) (hreal : isRealBin c k = true) :
    (bin (chosenRfft c x) k).2 = 0 := by
  unfold chosenRfft refRfft
  split
  all_goals
    rw [bin_tabulate_of_le _ hk]
    exact if_pos hreal

theorem bin_rfft_of_zeros (h : ∀ a ∈ x, isZero a = true) (k : Nat) : bin (rfft c x) k = (0, 0) := by
  rw [rfft_of_zeros c h, bin_tabulate, ite_self]

theorem bin_rfft_im (hk : k ≤ c.fftSize / 2) (hreal : isRealBin c k = true) : (bin (rfft c x) k).2 = 0 := by
  by_cases h : ∀ a ∈ x, isZero a = true
  case pos => rw [bin_rfft_of_zeros h]
  case neg =>
    push Not at h
    obtain ⟨a, ha, hnonzero⟩ := h
    rw [rfft_of_nonzero c ⟨a, ha, Bool.eq_false_iff.mpr hnonzero⟩, bin_chosenRfft_im hk hreal]

theorem bin_refRfft_re (hk : k ≤ c.fftSize / 2) :
    (bin (refRfft c x) k).1 = fsum c c.fftSize fun n => fmul c (elem x n) (twiddleCos c k n) := by
  rw [refRfft, bin_tabulate_of_le _ hk]

theorem bin_refRfft_im (h0 : 0 < k) (h1 : k < c.fftSize / 2) :
    (bin (refRfft c x) k).2 = fsum c c.fftSize fun n => fmul c (elem x n) (fneg (twiddleSin c k n)) := by
  rw [refRfft, bin_tabulate_of_le _ h1.le]
  exact if_neg (Bool.eq_false_iff.mp ((isRealBin_eq_false_iff h1.le).mpr ⟨h0, h1⟩))

end

/-- Settles O38: law (c) on zeros, the chosen transform on the rest. -/
theorem rfftLaws : Obligations.RfftLaws := by
  unfold Obligations.RfftLaws
  intro c x hv
  refine ⟨length_rfft c x, bin_rfft_im (Nat.zero_le _) (isRealBin_zero c), bin_rfft_im le_rfl (isRealBin_half c),
    bin_rfft_of_zeros, fun ht h k hk => ?_⟩
  rw [rfft_eq_refRfft hv ht h]
  exact ⟨bin_refRfft_re hk, bin_refRfft_im⟩

/-! ### The inverse transform -/

/-- Two lists of bins agree in the parts an inverse transform may depend on (R177 (b)). -/
def SameUsedParts (c : Cfg) (y y' : List (F32 × F32)) : Prop :=
  ∀ k ≤ c.fftSize / 2, (bin y k).1 = (bin y' k).1 ∧ (0 < k → k < c.fftSize / 2 → (bin y k).2 = (bin y' k).2)

section
variable {c : Cfg} {y y' : List (F32 × F32)} (h : SameUsedParts c y y')
include h

theorem dropRealBinImag_congr : dropRealBinImag c y = dropRealBinImag c y' := by
  refine tabulate_congr fun k hk => ?_
  have hk : k ≤ c.fftSize / 2 := Nat.le_of_lt_succ hk
  obtain ⟨hre, him⟩ := h k hk
  cases hreal : isRealBin c k with
  | true => rw [hre]; rfl
  | false =>
    obtain ⟨h0, h1⟩ := (isRealBin_eq_false_iff hk).mp hreal
    rw [hre, him h0 h1]

theorem refIrfftStart_congr (n : Nat) : refIrfftStart c y n = refIrfftStart c y' n := by
  rw [refIrfftStart, refIrfftStart, (h 0 (Nat.zero_le _)).1, (h _ le_rfl).1]

theorem refIrfftTerm_congr {k : Nat} (h0 : 0 < k) (h1 : k < c.fftSize / 2) (n : Nat) :
    refIrfftTerm c y n k = refIrfftTerm c y' n k := by
  obtain ⟨hre, him⟩ := h k h1.le
  rw [refIrfftTerm, refIrfftTerm, hre, him h0 h1]

theorem refIrfft_congr : refIrfft c y = refIrfft c y' := by
  refine tabulate_congr fun n _ => ?_
  rw [refIrfftStart_congr h, fsumFrom_congr fun k hk => ?_]
  rw [refIrfftTerm_congr h (Nat.succ_pos k) (by omega)]

theorem chosenIrfft_congr : chosenIrfft c y = chosenIrfft c y' := by
  rw [chosenIrfft, chosenIrfft, refIrfft_congr h, dropRealBinImag_congr h]

/-- Law (b) of R177. -/
theorem irfft_congr : irfft c y = irfft c y' := by
  rw [irfft, irfft, isZeroBins, isZeroBins, dropRealBinImag_congr h, chosenIrfft_congr h]

end

section
variable {c : Cfg} {y : List (F32 × F32)}

/-- Law (c) of R177. -/
theorem isZero_irfft (h : isZeroBins c y = true) : ∀ a ∈ irfft c y, isZero a = true := by
  rw [irfft, if_pos h]
  intro a ha
  obtain ⟨b, -, rfl⟩ := List.mem_map.mp ha
  exact isZero_zeroOf b

theorem isZeroBins_of_zeros (hlen : y.length = c.fftSize / 2 + 1)
    (h : ∀ b ∈ y, isZero b.1 = true ∧ isZero b.2 = true) : isZeroBins c y = true := by
  refine isZeroBins_iff.mpr fun k hk => ?_
  obtain ⟨hre, him⟩ := h _ (bin_mem (k := k) (by omega))
  exact ⟨hre, fun _ _ => him⟩

theorem isZeroBins_eq_false (h : ∃ k ≤ c.fftSize / 2, isZero (bin y k).1 = false ∨
    (0 < k ∧ k < c.fftSize / 2 ∧ isZero (bin y k).2 = false)) : isZeroBins c y = false := by
  obtain ⟨k, hk, hnonzero⟩ := h
  refine Bool.eq_false_iff.mpr fun hzero => ?_
  obtain ⟨hre, him⟩ := isZeroBins_iff.mp hzero k hk
  rcases hnonzero with hne | ⟨h0, h1, hne⟩
  · exact Bool.false_ne_true (hne.symm.trans hre)
  · exact Bool.false_ne_true (hne.symm.trans (him h0 h1))

theorem chosenIrfft_reference (ht : c.transform = .reference) : chosenIrfft c y = refIrfft c y := by
  unfold chosenIrfft
  rw [ht]

/-- The default transform, where law (c) does not replace it or changes nothing. -/
theorem irfft_eq_refIrfft (hv : cfgValid c = true) (ht : c.transform = .reference)
    (h : (∃ r, c.arith = .ieee r) ∨ isZeroBins c y = false) : irfft c y = refIrfft c y := by
  rcases h with ⟨r, hr⟩ | hnonzero
  · exact irfft_reference ht hr hv y
  · rw [irfft, if_neg (Bool.eq_false_iff.mp hnonzero), chosenIrfft_reference ht]

theorem refIrfftStart_eq (c : Cfg) (y : List (F32 × F32)) (n : Nat) : refIrfftStart c y n = fadd c (bin y 0).1
    (if n % 2 = 0 then (bin y (c.fftSize / 2)).1 else fneg (bin y (c.fftSize / 2)).1) := by
  rw [refIrfftStart, apply_ite (fadd c (bin y 0).1)]

theorem elem_refIrfft {n : Nat} (hn : n < c.fftSize) : elem (refIrfft c y) n =
    fmul c c.ifftScale (fsumFrom c (refIrfftStart c y n) (c.fftSize / 2 - 1) fun k =>
      fmul c 0x40000000 (refIrfftTerm c y n (k + 1))) := elem_tabulate_of_lt _ hn

end

/-- Settles O39: law (c) on zeros, the chosen transform of the used parts on the rest. -/
theorem irfftLaws : Obligations.IrfftLaws := by
  unfold Obligations.IrfftLaws
  intro c y y' hv hlen _
  refine ⟨length_irfft c y, fun hzeros => isZero_irfft (isZeroBins_of_zeros hlen hzeros), irfft_congr,
    fun ht h n hn => ?_⟩
  rw [irfft_eq_refIrfft hv ht (h.imp_right isZeroBins_eq_false), elem_refIrfft hn, refIrfftStart_eq]
  simp only [fsumFrom, refIrfftTerm, fsub, twiddleCos, twiddleSin]

/-! ### `FFT.ANALYZE` -/

section
variable {c : Cfg} {x : List (F32 × F32)} {k : Nat}

theorem specElem_re (hk : k ≤ c.fftSize / 2) : specElem c x (2 * k) = (bin x k).1 := by
  rw [specElem, Nat.mul_div_cancel_left k two_pos, Nat.mul_mod_right, if_pos hk, if_pos rfl]

theorem specElem_im (hk : k ≤ c.fftSize / 2) : specElem c x (2 * k + 1) = (bin x k).2 := by
  have hdiv : (2 * k + 1) / 2 = k := by omega
  rw [specElem, hdiv, if_pos hk, if_neg (by omega)]

/-- Above `NF/2` stand the mirrors (R171). -/
theorem specElem_mirror_re (hk : c.fftSize / 2 < k) : specElem c x (2 * k) = (bin x (c.fftSize - k)).1 := by
  rw [specElem, Nat.mul_div_cancel_left k two_pos, Nat.mul_mod_right, if_neg hk.not_ge, if_pos rfl]

theorem specElem_mirror_im (hk : c.fftSize / 2 < k) :
    specElem c x (2 * k + 1) = fneg (bin x (c.fftSize - k)).2 := by
  have hdiv : (2 * k + 1) / 2 = k := by omega
  rw [specElem, hdiv, if_neg hk.not_ge, if_neg (by omega)]

end

section
variable {s : State}

theorem exec_fftAnalyze_running (he : s.err = 0) :
    exec .fftAnalyze s = .next ((fftAnalyzeBody s).setResultReg 0) := by
  obtain ⟨-, -, -, -, -, hrun, -⟩ := exec_running he
  exact hrun

theorem win_spec_fftAnalyzeBody (s : State) : (fftAnalyzeBody s).win .spec =
    tabulate (2 * s.cfg.fftSize) (specElem s.cfg (rfft s.cfg (s.win .aframe))) := by simp [fftAnalyzeBody, inMemory]

theorem win_mag_fftAnalyzeBody (s : State) : (fftAnalyzeBody s).win .mag =
    tabulate (binCount s.cfg) fun k => magnitude s.cfg (bin (rfft s.cfg (s.win .aframe)) k) := by
  simp [fftAnalyzeBody, inMemory]

theorem peek_spec_fftAnalyzeBody {e : Nat} (he : e < 2 * s.cfg.fftSize) :
    (fftAnalyzeBody s).peek (.win .spec e) = some (specElem s.cfg (rfft s.cfg (s.win .aframe)) e) := by
  rw [State.peek_win, win_spec_fftAnalyzeBody, elem_tabulate_of_lt _ he]
  exact if_pos he

theorem peek_mag_fftAnalyzeBody {k : Nat} (hk : k ≤ s.cfg.fftSize / 2) : (fftAnalyzeBody s).peek (.win .mag k) =
    some (magnitude s.cfg (bin (rfft s.cfg (s.win .aframe)) k)) := by
  have hk : k < binCount s.cfg := Nat.lt_succ_of_le hk
  rw [State.peek_win, win_mag_fftAnalyzeBody, elem_tabulate_of_lt _ hk]
  exact if_pos hk

end

/-- Settles O36: the bins up to `NF/2` with their magnitudes, then the mirrors. -/
theorem fftAnalyzeFillsSpecAndMag : Obligations.FftAnalyzeFillsSpecAndMag := by
  unfold Obligations.FftAnalyzeFillsSpecAndMag
  refine ⟨⟨rfl, rfl, rfl⟩, refusesWhileHalted_of_runsWhileHalted_eq_false rfl, fun s hv he => ?_⟩
  have hsize := (legal_of_cfgValid hv).fftSize
  have hframe := (fftAnalyzeBody_frame s).setResultReg 0
  refine ⟨_, exec_fftAnalyze_running he, rfl, fun k hk => ?bins, fun k hk hlt => ?mirrors, hframe⟩
  case bins =>
    simp only [State.peek_setResultReg]
    rw [peek_spec_fftAnalyzeBody (by omega), peek_spec_fftAnalyzeBody (by omega), specElem_re hk, specElem_im hk,
      peek_mag_fftAnalyzeBody hk, magnitude]
    exact ⟨rfl, rfl, rfl⟩
  case mirrors =>
    simp only [State.peek_setResultReg]
    rw [peek_spec_fftAnalyzeBody (by omega), peek_spec_fftAnalyzeBody (by omega), specElem_mirror_re hk,
      specElem_mirror_im hk]
    exact ⟨rfl, rfl⟩

/-! ### `FFT.MSYN` -/

section
variable {s : State}

theorem exec_fftMsyn_running (he : s.err = 0) : exec .fftMsyn s = .next ((fftMsynBody s).setResultReg 0) := by
  obtain ⟨-, -, -, -, -, -, hrun, -⟩ := exec_running he
  exact hrun

theorem win_tframe_fftMsynBody (s : State) : (fftMsynBody s).win .tframe = irfft s.cfg (maskedBins s) := by
  simp [fftMsynBody, inMemory]

theorem peek_tframe_fftMsynBody {n : Nat} (hn : n < s.cfg.frameSize) :
    (fftMsynBody s).peek (.win .tframe n) = some (elem (irfft s.cfg (maskedBins s)) n) := by
  rw [State.peek_win, win_tframe_fftMsynBody]
  exact if_pos hn

end

/-- Settles O37: `TFRAME` is written whole, with the inverse transform of the temporary. -/
theorem fftMsynSynthesizesMaskedBins : Obligations.FftMsynSynthesizesMaskedBins := by
  unfold Obligations.FftMsynSynthesizesMaskedBins
  refine ⟨⟨rfl, rfl, rfl⟩, refusesWhileHalted_of_runsWhileHalted_eq_false rfl, fun s _ he => ?_⟩
  refine ⟨_, exec_fftMsyn_running he, rfl, fun n hn => ?_, (fftMsynBody_frame s).setResultReg 0⟩
  rw [State.peek_setResultReg, peek_tframe_fftMsynBody hn, maskedBins]
  simp only [State.item, binCount]

/-! ### The twiddle tables of configuration T -/

/-- A value that some pattern has is rounded to that pattern. -/
theorem isRounded_of_value_eq {a : F32} {v : Rat} (hvalue : value a = v) (hfinite : isFinite a = true)
    (hzero : v = 0 → a = 0) : IsRounded a (v : Real) := by
  refine ⟨hfinite, hvalue ▸ hzero, fun b _ => ?_⟩
  rw [hvalue, sub_self, abs_zero]
  refine ⟨abs_nonneg _, fun htie hne => absurd ?_ hne⟩
  have hb : (value b : Real) = v := sub_eq_zero.mp (abs_eq_zero.mp htie.symm)
  exact_mod_cast hb.symm

theorem isRounded_zero : IsRounded 0 0 := by
  have hvalue : value 0 = 0 := by rw [value, show units 0 = 0 by decide, Int.cast_zero, zero_div]
  exact_mod_cast isRounded_of_value_eq hvalue (by decide) fun _ => rfl

theorem isRounded_one : IsRounded 0x3F800000 1 := by
  have hvalue : value 0x3F800000 = 1 := by
    rw [value, show units 0x3F800000 = 2 ^ 149 by decide]
    norm_num
  exact_mod_cast isRounded_of_value_eq hvalue (by decide) fun h => absurd h one_ne_zero

theorem isRounded_neg_one : IsRounded 0xBF800000 (-1) := by
  have hvalue : value 0xBF800000 = -1 := by
    rw [value, show units 0xBF800000 = -2 ^ 149 by decide]
    norm_num
  exact_mod_cast isRounded_of_value_eq hvalue (by decide) fun h => absurd h (neg_ne_zero.mpr one_ne_zero)

/-- The angles of T are quarter turns. -/
theorem angle_testT (j : Nat) : 2 * Real.pi * j / Config.testT.fftSize = j * (Real.pi / 2) := by
  rw [show Config.testT.fftSize = 4 from rfl, Nat.cast_ofNat]
  ring

theorem cos_three_quarter_turns : Real.cos (3 * (Real.pi / 2)) = 0 := by
  rw [show 3 * (Real.pi / 2) = Real.pi / 2 + Real.pi by ring, Real.cos_add_pi, Real.cos_pi_div_two, neg_zero]

theorem sin_three_quarter_turns : Real.sin (3 * (Real.pi / 2)) = -1 := by
  rw [show 3 * (Real.pi / 2) = Real.pi / 2 + Real.pi by ring, Real.sin_add_pi, Real.sin_pi_div_two]

/-- Settles O60: at the four quarter turns cosine and sine are 1, 0 or -1. -/
theorem testTwiddlesAreRounded : Obligations.TestTwiddlesAreRounded := by
  unfold Obligations.TestTwiddlesAreRounded TwiddlesRounded
  intro j hj
  rw [angle_testT]
  match j, hj with
  | 0, _ =>
    rw [Nat.cast_zero, zero_mul, Real.cos_zero, Real.sin_zero]
    exact ⟨isRounded_one, isRounded_zero⟩
  | 1, _ =>
    rw [Nat.cast_one, one_mul, Real.cos_pi_div_two, Real.sin_pi_div_two]
    exact ⟨isRounded_zero, isRounded_one⟩
  | 2, _ =>
    rw [Nat.cast_ofNat, mul_div_cancel₀ _ two_ne_zero, Real.cos_pi, Real.sin_pi]
    exact ⟨isRounded_neg_one, isRounded_zero⟩
  | 3, _ =>
    rw [Nat.cast_ofNat, cos_three_quarter_turns, sin_three_quarter_turns]
    exact ⟨isRounded_zero, isRounded_neg_one⟩

end Sys2Proof.Machine
end

section
/-! The overlap-adder (44_overlap_add.md R190, R191, R193, R194): what one `OLA.ACC` and one `OLA.EMIT` make of each
element, by induction over the pairs that the accumulator holds the unfinished sums, and by induction over further
emits that the tail leaves it in order. -/

namespace Sys2Proof.Machine

/-! ### One accumulate -/

section
variable {s : State} {i : Nat}

theorem exec_olaAcc_running (he : s.err = 0) (sel : Nat) :
    exec (.olaAcc sel) s = .next ((olaAccBody (olaSource sel) s).setResultReg 0) := by
  obtain ⟨-, -, -, -, -, -, -, hrun, -⟩ := exec_running he
  exact hrun sel

theorem win_acc_olaAccBody (src : Window) (s : State) : (olaAccBody src s).win .acc =
    tabulate s.cfg.frameSize fun i => fadd s.cfg (elem (s.win .acc) i) (elem (s.win src) i) := by
  simp [olaAccBody, inMemory]

theorem item_acc_olaAccBody (src : Window) (hi : i < s.cfg.frameSize) :
    (olaAccBody src s).item .acc i = fadd s.cfg (s.item .acc i) (s.item src i) := by
  rw [State.item, win_acc_olaAccBody, elem_tabulate_of_lt _ hi, State.item, State.item]

theorem peek_acc_olaAccBody (src : Window) (hi : i < s.cfg.frameSize) :
    (olaAccBody src s).peek (.win .acc i) = some (fadd s.cfg (s.item .acc i) (s.item src i)) := by
  rw [State.peek_win_of_lt hi, item_acc_olaAccBody src hi]

theorem item_olaSource (sel : Nat) (s : State) (i : Nat) :
    s.item (olaSource sel) i = if sel = 0 then s.item .sframe i else s.item .tframe i := by
  rw [olaSource, apply_ite (s.item · i)]

end

/-- Settles O40: every lane of `ACC` is written, and no other window. -/
theorem olaAccAddsTheSelectedFrame : Obligations.OlaAccAddsTheSelectedFrame := by
  unfold Obligations.OlaAccAddsTheSelectedFrame
  refine ⟨⟨rfl, rfl, rfl⟩, ⟨rfl, rfl, rfl⟩, fun sel =>
    ⟨refusesWhileHalted_of_runsWhileHalted_eq_false rfl, fun s he => ?_⟩⟩
  refine ⟨_, exec_olaAcc_running he sel, rfl, fun i hi => ?_, (olaAccBody_frame _ s).setResultReg 0⟩
  rw [State.peek_setResultReg, peek_acc_olaAccBody _ hi, item_olaSource]

/-! ### One emit -/

/-- The state after `OLA.EMIT` on a running block. -/
def emitHop (s : State) : State := (olaEmitBody s).setResultReg 0

section
variable {s : State} {i : Nat}

theorem exec_olaEmit_running (he : s.err = 0) : exec .olaEmit s = .next (emitHop s) := by
  obtain ⟨-, -, -, -, -, -, -, -, hrun, -⟩ := exec_running he
  exact hrun

@[simp] theorem emitHop_cfg (s : State) : (emitHop s).cfg = s.cfg := rfl
@[simp] theorem emitHop_err (s : State) : (emitHop s).err = s.err := rfl

theorem win_mho_emitHop (s : State) : (emitHop s).win .mho = tabulate s.cfg.hopSize (elem (s.win .acc)) := by
  simp [emitHop, olaEmitBody, inMemory]

theorem win_acc_emitHop (s : State) : (emitHop s).win .acc =
    shiftIn s.cfg.frameSize s.cfg.hopSize (s.win .acc) fun _ => 0 := by simp [emitHop, olaEmitBody, inMemory]

theorem item_mho_emitHop (hi : i < s.cfg.hopSize) : (emitHop s).item .mho i = s.item .acc i := by
  rw [State.item, win_mho_emitHop, elem_tabulate_of_lt _ hi, State.item]

theorem item_acc_emitHop_kept (hi : i < s.cfg.frameSize - s.cfg.hopSize) :
    (emitHop s).item .acc i = s.item .acc (i + s.cfg.hopSize) := by
  rw [State.item, win_acc_emitHop, elem_shiftIn_kept _ _ hi, State.item]

theorem item_acc_emitHop_freed (hle : s.cfg.hopSize ≤ s.cfg.frameSize)
    (hfreed : s.cfg.frameSize - s.cfg.hopSize ≤ i) (hi : i < s.cfg.frameSize) : (emitHop s).item .acc i = 0 := by
  obtain ⟨j, rfl⟩ := Nat.exists_eq_add_of_le hfreed
  rw [State.item, win_acc_emitHop, elem_shiftIn_freed _ _ hle (by omega)]

theorem peek_mho_emitHop (hi : i < s.cfg.hopSize) :
    (emitHop s).peek (.win .mho i) = some ((emitHop s).item .mho i) := State.peek_win_of_lt hi

theorem peek_acc_emitHop (hi : i < s.cfg.frameSize) :
    (emitHop s).peek (.win .acc i) = some ((emitHop s).item .acc i) := State.peek_win_of_lt hi

end

/-- Settles O41: the hop that leaves, the part of `ACC` that is kept, the tail that the shift frees. -/
theorem olaEmitShiftsOutOneHop : Obligations.OlaEmitShiftsOutOneHop := by
  unfold Obligations.OlaEmitShiftsOutOneHop
  refine ⟨⟨rfl, rfl, rfl⟩, refusesWhileHalted_of_runsWhileHalted_eq_false rfl, fun s hv he => ?_⟩
  have hle := (legal_of_cfgValid hv).hop_le_frame
  refine ⟨_, exec_olaEmit_running he, rfl, fun i hi => ?hop, fun i hi => ?kept, fun i hfreed hi => ?freed,
    (olaEmitBody_frame s).setResultReg 0⟩
  case hop => rw [peek_mho_emitHop hi, item_mho_emitHop hi]
  case kept => rw [peek_acc_emitHop (by omega), item_acc_emitHop_kept hi]
  case freed => rw [peek_acc_emitHop hi, item_acc_emitHop_freed hle hfreed hi]

/-! ### The frames that overlap a position -/

/-- How many of `n` frames, each a hop after the one before, reach position `p` of the newest; positions past its end
are reached by none. -/
def overlapCount (c : Cfg) (n p : Nat) : Nat := min n ((c.frameSize + c.hopSize - 1 - p) / c.hopSize)

/-- What the `k`-th of the `m` newest frames, oldest first, has at position `p` of the newest. -/
def overlapTerm (c : Cfg) (frames : List (List Word)) (m p k : Nat) : Word :=
  elem (frames.getD (frames.length - m + k) []) ((m - 1 - k) * c.hopSize + p)

/-- The sum of R193 at position `p` of the newest frame. -/
def overlapSum (c : Cfg) (frames : List (List Word)) (p : Nat) : F32 :=
  fsum c (overlapCount c frames.length p) (overlapTerm c frames (overlapCount c frames.length p) p)

section
variable {c : Cfg} {n p m k : Nat} {frames : List (List Word)}

theorem overlapCount_le (c : Cfg) (n p : Nat) : overlapCount c n p ≤ n := min_le_left ..

theorem overlapCount_of_frameSize_le (hhop : 1 ≤ c.hopSize) (hp : c.frameSize ≤ p) : overlapCount c n p = 0 := by
  rw [overlapCount, Nat.div_eq_of_lt (by omega), Nat.min_zero]

/-- A newer frame takes its place in front of those that reach one hop further. -/
theorem overlapCount_succ (hhop : 1 ≤ c.hopSize) (hp : p < c.frameSize) :
    overlapCount c (n + 1) p = overlapCount c n (p + c.hopSize) + 1 := by
  have hnumerator : c.frameSize + c.hopSize - 1 - p = c.frameSize + c.hopSize - 1 - (p + c.hopSize) + c.hopSize := by
    omega
  rw [overlapCount, overlapCount, hnumerator, Nat.add_div_right _ hhop, Nat.succ_min_succ]

/-- In the first hop `F/H` frames overlap. -/
theorem overlapCount_firstHop (hdvd : c.hopSize ∣ c.frameSize) (hp : p < c.hopSize) :
    overlapCount c n p = min n (c.frameSize / c.hopSize) := by
  have hnumerator : c.frameSize + c.hopSize - 1 - p = c.frameSize + (c.hopSize - 1 - p) := by omega
  rw [overlapCount, hnumerator, Nat.add_div_of_dvd_right hdvd, Nat.div_eq_of_lt (by omega : c.hopSize - 1 - p < _),
    Nat.add_zero]

theorem overlapTerm_append_older (hm : m ≤ frames.length) (hk : k < m) (frame : List Word) :
    overlapTerm c (frames ++ [frame]) (m + 1) p k = overlapTerm c frames m (p + c.hopSize) k := by
  have hindex : frames.length + 1 - (m + 1) + k = frames.length - m + k := by omega
  have hposition : (m + 1 - 1 - k) * c.hopSize + p = (m - 1 - k) * c.hopSize + (p + c.hopSize) := by
    rw [show m + 1 - 1 - k = m - 1 - k + 1 by omega]
    ring
  rw [overlapTerm, overlapTerm, List.length_append, List.length_singleton, hindex, hposition,
    List.getD_append _ _ _ _ (by omega)]

theorem overlapTerm_append_newest (hm : m ≤ frames.length) (frame : List Word) :
    overlapTerm c (frames ++ [frame]) (m + 1) p m = elem frame p := by
  have hindex : frames.length + 1 - (m + 1) + m = frames.length := by omega
  rw [overlapTerm, List.length_append, List.length_singleton, hindex, List.getD_append_right _ _ _ _ le_rfl]
  simp

@[simp] theorem overlapSum_nil (c : Cfg) (p : Nat) : overlapSum c [] p = 0 := by simp [overlapSum, overlapCount]

theorem overlapSum_of_frameSize_le (hhop : 1 ≤ c.hopSize) (hp : c.frameSize ≤ p) : overlapSum c frames p = 0 := by
  rw [overlapSum, overlapCount_of_frameSize_le hhop hp, fsum_zero]

/-- A new frame is the last term of the sum that stood one hop further. -/
theorem overlapSum_append (hhop : 1 ≤ c.hopSize) (hp : p < c.frameSize) (frame : List Word) :
    overlapSum c (frames ++ [frame]) p = fadd c (overlapSum c frames (p + c.hopSize)) (elem frame p) := by
  have hm := overlapCount_le c frames.length (p + c.hopSize)
  rw [overlapSum, List.length_append, List.length_singleton, overlapCount_succ hhop hp, fsum_succ,
    overlapTerm_append_newest hm, fsum_congr fun k hk => overlapTerm_append_older hm hk frame, ← overlapSum]

end

/-! ### The pairs of a stream -/

/-- A running block after a pair for each of the frames: the finished sums of the first hop in `MHO`, in `ACC` the
sums of the frames so far, a hop further on. -/
structure OverlapHolds (c : Cfg) (frames : List (List Word)) (s : State) : Prop where
  config : s.cfg = c
  running : s.err = 0
  hop : ∀ i < c.hopSize, s.item .mho i = overlapSum c frames i
  acc : ∀ i < c.frameSize, s.item .acc i = overlapSum c frames (i + c.hopSize)

theorem overlapHolds_resetOf (c : Cfg) : OverlapHolds c [] (State.resetOf c) where
  config := rfl
  running := rfl
  hop i _ := by rw [State.item, win_resetOf c rfl, zeros, elem_replicate_zero, overlapSum_nil]
  acc i _ := by rw [State.item, win_resetOf c rfl, zeros, elem_replicate_zero, overlapSum_nil]

/-- The state after a frame is put into `TFRAME` and accumulated. -/
def accumulateFrame (frame : List Word) (s : State) : State :=
  (olaAccBody .tframe (s.putWin .tframe frame)).setResultReg 0

theorem overlapPairs_cons {s : State} (he : s.err = 0) (frame : List Word) (rest : List (List Word)) :
    overlapPairs (frame :: rest) s = overlapPairs rest (emitHop (accumulateFrame frame s)) := by
  have hacc : exec (.olaAcc 1) (s.putWin .tframe frame) = .next (accumulateFrame frame s) :=
    exec_olaAcc_running (s := s.putWin .tframe frame) he 1
  have hemit : exec .olaEmit (accumulateFrame frame s) = .next (emitHop (accumulateFrame frame s)) :=
    exec_olaEmit_running (s := accumulateFrame frame s) he
  simp only [overlapPairs, execAll, hacc, hemit]

section
variable {c : Cfg} {s : State} {frame : List Word} {frames : List (List Word)} {i : Nat}

@[simp] theorem accumulateFrame_cfg (frame : List Word) (s : State) : (accumulateFrame frame s).cfg = s.cfg := rfl
@[simp] theorem accumulateFrame_err (frame : List Word) (s : State) : (accumulateFrame frame s).err = s.err := rfl

theorem item_acc_accumulateFrame (hi : i < s.cfg.frameSize) :
    (accumulateFrame frame s).item .acc i = fadd s.cfg (s.item .acc i) (elem frame i) := by
  rw [accumulateFrame, State.item, State.win_setResultReg]
  refine (item_acc_olaAccBody (s := s.putWin .tframe frame) .tframe hi).trans ?_
  simp [State.item, inMemory]

/-- Accumulating brings the sums of `ACC` to the positions of the new frame. -/
theorem OverlapHolds.accumulated (holds : OverlapHolds c frames s) (legal : Legal c) (frame : List Word) :
    ∀ i < c.frameSize, (accumulateFrame frame s).item .acc i = overlapSum c (frames ++ [frame]) i := by
  intro i hi
  rw [item_acc_accumulateFrame (by rwa [holds.config]), holds.config, holds.acc i hi,
    overlapSum_append legal.hopSize hi]

/-- A pair appends its frame to the stream. -/
theorem OverlapHolds.pair (holds : OverlapHolds c frames s) (legal : Legal c) (frame : List Word) :
    OverlapHolds c (frames ++ [frame]) (emitHop (accumulateFrame frame s)) := by
  have hle := legal.hop_le_frame
  have hsum := holds.accumulated legal frame
  have hcfg : (accumulateFrame frame s).cfg = c := by rw [accumulateFrame_cfg, holds.config]
  refine ⟨hcfg, by rw [emitHop_err, accumulateFrame_err, holds.running], fun i hi => ?hop, fun i hi => ?acc⟩
  case hop => rw [item_mho_emitHop (by rwa [hcfg]), hsum i (by omega)]
  case acc =>
    by_cases hkept : i < c.frameSize - c.hopSize
    case pos => rw [item_acc_emitHop_kept (by rwa [hcfg]), hcfg, hsum _ (by omega)]
    case neg =>
      rw [item_acc_emitHop_freed (by rwa [hcfg]) (by rw [hcfg]; omega) (by rwa [hcfg]),
        overlapSum_of_frameSize_le legal.hopSize (by omega)]

/-- Pairs append their frames to the stream, one after the other. -/
theorem OverlapHolds.pairs {rest : List (List Word)} (holds : OverlapHolds c frames s) (legal : Legal c) :
    ∃ t, overlapPairs rest s = .next t ∧ OverlapHolds c (frames ++ rest) t := by
  induction rest generalizing frames s with
  | nil => exact ⟨s, rfl, by rwa [List.append_nil]⟩
  | cons frame rest ih =>
    rw [overlapPairs_cons holds.running, List.append_cons]
    exact ih (holds.pair legal frame)

end

/-- Settles O42: from reset, the hop of the last pair is the sum at the first positions of the last frame. -/
theorem emittedHopSumsOverlappingFrames : Obligations.EmittedHopSumsOverlappingFrames := by
  unfold Obligations.EmittedHopSumsOverlappingFrames
  intro c frames hv _
  have legal := legal_of_cfgValid hv
  obtain ⟨t, hrun, holds⟩ := (overlapHolds_resetOf c).pairs (rest := frames) legal
  refine ⟨t, hrun, fun i hi => (holds.hop i hi).trans ?_⟩
  rw [List.nil_append, overlapSum, overlapCount_firstHop (Nat.dvd_of_mod_eq_zero legal.hopDivides) hi]
  exact fsum_congr fun k _ => by rw [overlapTerm]

/-! ### The flush -/

/-- Further emits on a running block. -/
theorem execAll_replicate_olaEmit {s : State} (he : s.err = 0) (n : Nat) :
    execAll (List.replicate n .olaEmit) s = .next (emitHop^[n] s) := by
  induction n generalizing s with
  | zero => rfl
  | succ n ih =>
    rw [List.replicate_succ, execAll, exec_olaEmit_running he]
    exact ih (s := emitHop s) he

@[simp] theorem emitHop_iterate_cfg (n : Nat) (s : State) : (emitHop^[n] s).cfg = s.cfg := by
  induction n generalizing s with
  | zero => rfl
  | succ n ih => exact ih (emitHop s)

section
variable {s : State} {i : Nat}

/-- The `n`-th of the further emits, counted from 0, delivers the `n`-th hop of the accumulator. -/
theorem item_mho_emitHop_iterate {n : Nat} (hn : (n + 1) * s.cfg.hopSize ≤ s.cfg.frameSize) (hi : i < s.cfg.hopSize) :
    (emitHop^[n + 1] s).item .mho i = s.item .acc (n * s.cfg.hopSize + i) := by
  induction n generalizing s with
  | zero => rw [Function.iterate_one, item_mho_emitHop hi, Nat.zero_mul, Nat.zero_add]
  | succ n ih =>
    rw [Nat.succ_mul] at hn
    have hkept : n * s.cfg.hopSize + i < s.cfg.frameSize - s.cfg.hopSize := by
      rw [Nat.succ_mul] at hn
      omega
    rw [Function.iterate_succ_apply, ih (s := emitHop s) (by rw [emitHop_cfg]; omega) hi, emitHop_cfg,
      item_acc_emitHop_kept hkept, Nat.succ_mul, Nat.add_right_comm]

/-- An emit brings the zeros at the end of the accumulator a hop forward. -/
theorem item_acc_emitHop_eq_zero {z : Nat} (hle : s.cfg.hopSize ≤ s.cfg.frameSize)
    (hzero : ∀ i, z ≤ i → i < s.cfg.frameSize → s.item .acc i = 0) (hz : z - s.cfg.hopSize ≤ i)
    (hi : i < s.cfg.frameSize) : (emitHop s).item .acc i = 0 := by
  by_cases hkept : i < s.cfg.frameSize - s.cfg.hopSize
  case pos => rw [item_acc_emitHop_kept hkept, hzero _ (by omega) (by omega)]
  case neg => rw [item_acc_emitHop_freed hle (Nat.le_of_not_lt hkept) hi]

theorem item_acc_emitHop_iterate_eq_zero {n z : Nat} (hle : s.cfg.hopSize ≤ s.cfg.frameSize)
    (hzero : ∀ i, z ≤ i → i < s.cfg.frameSize → s.item .acc i = 0) (hz : z - n * s.cfg.hopSize ≤ i)
    (hi : i < s.cfg.frameSize) : (emitHop^[n] s).item .acc i = 0 := by
  induction n generalizing s z with
  | zero => exact hzero i (by omega) hi
  | succ n ih =>
    have hz' : z - s.cfg.hopSize - n * s.cfg.hopSize ≤ i := by
      rw [Nat.succ_mul] at hz
      omega
    exact ih (s := emitHop s) hle (fun j hj hlt => item_acc_emitHop_eq_zero hle hzero hj hlt) hz' hi

end

/-- Settles O43: each emit takes the next hop of the tail, and after `F/H - 1` the zeros have come to the front. -/
theorem flushDeliversTheTail : Obligations.FlushDeliversTheTail := by
  unfold Obligations.FlushDeliversTheTail
  intro s hv he hzero
  have hlegal := legal_of_cfgValid hv
  have hhops : s.cfg.frameSize / s.cfg.hopSize * s.cfg.hopSize = s.cfg.frameSize :=
    Nat.div_mul_cancel (Nat.dvd_of_mod_eq_zero hlegal.hopDivides)
  refine ⟨fun n hn => ⟨_, execAll_replicate_olaEmit he (n + 1), fun i hi => ?tail⟩,
    _, execAll_replicate_olaEmit he _, fun i hi => ?zero⟩
  case tail =>
    have hle : (n + 1) * s.cfg.hopSize ≤ s.cfg.frameSize := by
      rw [← hhops]
      exact Nat.mul_le_mul_right _ (by omega)
    exact item_mho_emitHop_iterate hle hi
  case zero =>
    rw [emitHop_iterate_cfg] at hi
    refine item_acc_emitHop_iterate_eq_zero hlegal.hop_le_frame hzero ?_ hi
    rw [Nat.sub_one_mul, hhops, Nat.sub_self]
    exact Nat.zero_le i

end Sys2Proof.Machine
end

section
/-! The sequencer (45_sequencer.md R201 to R208): `SEQ.STEP` is the run of commands it walks through, each mode's
ends written over the states those commands leave. A command's state and the walk's differ in `SEQ` and `RESULT`
alone, and no body looks at either. -/

namespace Sys2Proof.Machine

/-! ### No hop waiting -/

section
variable {s : State}

theorem exec_seqStep_running (he : s.err = 0) : exec .seqStep s = .next (seqStep s) := by
  obtain ⟨-, -, -, -, -, -, -, -, -, hrun, -⟩ := exec_running he
  exact hrun

/-- A step is refused or taken. -/
theorem exec_seqStep_cases {t : State} (h : exec .seqStep s = .next t) :
    t = returnCode .M .halted s ∨ (s.err = 0 ∧ t = seqStep s) := by
  by_cases he : s.err = 0
  · rw [exec_seqStep_running he] at h
    cases h
    exact .inr ⟨he, rfl⟩
  · rw [exec_halted (i := .seqStep) rfl he] at h
    cases h
    exact .inl rfl

theorem seqStep_empty (h : s.readPtr ≤ s.processReadPtr) : seqStep s = returnCode .M .empty s := if_neg h.not_gt

end

/-- Settles O44: the polling condition is tested before anything else, the mode included. -/
theorem seqStepWithNoHopDoesNothing : Obligations.SeqStepWithNoHopDoesNothing := by
  unfold Obligations.SeqStepWithNoHopDoesNothing
  refine ⟨⟨rfl, rfl, rfl⟩, refusesWhileHalted_of_runsWhileHalted_eq_false rfl, fun s he hnone => ?_⟩
  rw [exec_seqStep_running he, seqStep_empty hnone]
  rfl

/-! ### The hop in work -/

/-- `CAP.POP`, `RS.DEC`, `FRM.PUSH`: the captured hop, decimated and framed. -/
def framedHop (s : State) : State := frmPushBody (rsDecBody (capPopBody s))

/-- A framed hop analyzed. -/
def analyzedHop (s : State) : State := fftAnalyzeBody (framedHop s)

/-- What `InferA` answers on an analyzed hop. -/
def answerA (s : State) : Option (List F32 × List F32) :=
  inferA s.cfg ((analyzedHop s).win .mag) ((analyzedHop s).win .stateA)

/-- `MASK` and `STATE_A` written with an answer of `InferA` on an analyzed hop, then `FFT.MSYN`. -/
def maskedHop (mask stA : List F32) (s : State) : State :=
  fftMsynBody (((analyzedHop s).putWin .mask mask).putWin .stateA stA)

/-- What `InferB` answers on a masked hop. -/
def answerB (mask stA : List F32) (s : State) : Option (List F32 × List F32) :=
  inferB s.cfg ((maskedHop mask stA s).win .tframe) ((maskedHop mask stA s).win .stateB)

/-- `SFRAME` and `STATE_B` written with an answer of `InferB`, then `OLA.ACC SFRAME` and `OLA.EMIT`. -/
def emittedHop (frame stB : List F32) (s : State) : State :=
  olaEmitBody (olaAccBody .sframe ((s.putWin .sframe frame).putWin .stateB stB))

section
variable {s x : State} {mask stA frame stB : List F32} {q : SeqState}

theorem win_capPopBody {w : Window} (hw : w ≠ .nin) : (capPopBody s).win w = s.win w := by simp [capPopBody, hw]

theorem framedHop_walk (s : State) : Walk [.mhi, .ddl, .aframe] (capPopBody s) (framedHop s) :=
  ((rsDecBody_walk _).mono (by decide)).trans ((frmPushBody_walk _).mono (by decide))

theorem analyzedHop_walk (s : State) : Walk [.mhi, .ddl, .aframe, .spec, .mag] (capPopBody s) (analyzedHop s) :=
  ((framedHop_walk s).mono (by decide)).trans ((fftAnalyzeBody_walk _).mono (by decide))

theorem analyzedHop_cfg (s : State) : (analyzedHop s).cfg = s.cfg := (analyzedHop_walk s).cfg

theorem analyzedHop_err (s : State) : (analyzedHop s).err = s.err := by rw [(analyzedHop_walk s).regs]; rfl

theorem maskedHop_cfg (mask stA : List F32) (s : State) : (maskedHop mask stA s).cfg = s.cfg := by
  rw [maskedHop, fftMsynBody_eq, State.putWin_cfg, State.putWin_cfg, analyzedHop_cfg]

theorem maskedHop_err (mask stA : List F32) (s : State) : (maskedHop mask stA s).err = s.err := by
  rw [maskedHop, fftMsynBody_eq, State.putWin_err, State.putWin_err, analyzedHop_err]

theorem maskedHop_walk (h : answerA s = some (mask, stA)) :
    Walk [.mhi, .ddl, .aframe, .spec, .mag, .mask, .stateA, .tframe] (capPopBody s) (maskedHop mask stA s) := by
  rw [answerA, ← analyzedHop_cfg] at h
  obtain ⟨hmask, hstate⟩ := callStage_length h
  exact ((((analyzedHop_walk s).mono (by decide)).trans (Walk.putWin _ (by decide) fun _ => hmask)).trans
    (Walk.putWin _ (by decide) fun _ => hstate)).trans ((fftMsynBody_walk _).mono (by decide))

theorem win_stateA_analyzedHop (s : State) : (analyzedHop s).win .stateA = s.win .stateA :=
  ((analyzedHop_walk s).windows .stateA (by decide)).trans (win_capPopBody (by decide))

theorem win_stateB_maskedHop (h : answerA s = some (mask, stA)) :
    (maskedHop mask stA s).win .stateB = s.win .stateB :=
  ((maskedHop_walk h).windows .stateB (by decide)).trans (win_capPopBody (by decide))

theorem emittedHop_cfg (frame stB : List F32) (x : State) : (emittedHop frame stB x).cfg = x.cfg :=
  (olaEmitBody_walk _).cfg.trans (olaAccBody_walk .sframe _).cfg

theorem emittedHop_walk (hA : answerA s = some (mask, stA))
    (hB : answerB mask stA s = some (frame, stB)) :
    Walk walkWindows (capPopBody s) (emittedHop frame stB (maskedHop mask stA s)) := by
  have hwalk := (maskedHop_walk hA).mono (ws := walkWindows) (by decide)
  rw [answerB, ← maskedHop_cfg mask stA] at hB
  rw [emittedHop]
  generalize maskedHop mask stA s = x at hB hwalk
  obtain ⟨hframe, hstate⟩ := callStage_length hB
  exact (((hwalk.trans (Walk.putWin x (by decide) fun _ => hframe)).trans
    (Walk.putWin _ (by decide) fun _ => hstate)).trans
    ((olaAccBody_walk _ _).mono (by decide))).trans ((olaEmitBody_walk _).mono (by decide))

/-! ### The ways a step with a hop can end -/

/-- PassThrough copies the decimated hop (45_sequencer.md R208). -/
theorem seqStep_passThrough (hp : s.processReadPtr < s.readPtr) (hm : s.passThrough = true) :
    seqStep s = seqBack ((seqPassThrough (framedHop s)).setSeq .framing) := by
  rw [seqStep, if_pos hp, if_pos hm, seqFront_eq, ← framedHop]
  generalize framedHop s = x
  rfl

theorem seqStep_of_fullChain_error {t : State} (hp : s.processReadPtr < s.readPtr) (hm : s.passThrough = false)
    (h : seqFullChain (seqFront s) = .error t) : seqStep s = t := by
  simp [seqStep, hp, hm, h]

theorem seqStep_of_fullChain_ok {t : State} (hp : s.processReadPtr < s.readPtr) (hm : s.passThrough = false)
    (h : seqFullChain (seqFront s) = .ok t) : seqStep s = seqBack t := by
  simp [seqStep, hp, hm, h]

/-! The states of the full chain look past the `SEQ` they begin with. -/

theorem seqAnalyzing_seqFront (s : State) : seqAnalyzing (seqFront s) = (analyzedHop s).setSeq .analyzing := by
  rw [seqAnalyzing, seqFront_eq, setSeq_setSeq, fftAnalyzeBody_setSeq, analyzedHop, framedHop]

theorem seqInferringA_setSeq_error (h : inferA x.cfg (x.win .mag) (x.win .stateA) = none) (q : SeqState) :
    seqInferringA (x.setSeq q) = .error (raiseFault .M .inferenceA (x.setSeq .inferringA)) :=
  seqInferringA_error (s := x.setSeq q) h

theorem seqInferringA_setSeq_ok (h : inferA x.cfg (x.win .mag) (x.win .stateA) = some (mask, stA)) (q : SeqState) :
    seqInferringA (x.setSeq q) = .ok (((x.putWin .mask mask).putWin .stateA stA).setSeq .inferringA) :=
  seqInferringA_ok (s := x.setSeq q) h

theorem seqMasking_setSeq (x : State) (q : SeqState) : seqMasking (x.setSeq q) = (fftMsynBody x).setSeq .masking := rfl

theorem seqInferringB_setSeq_error (h : inferB x.cfg (x.win .tframe) (x.win .stateB) = none) (q : SeqState) :
    seqInferringB (x.setSeq q) = .error (raiseFault .M .inferenceB (x.setSeq .inferringB)) :=
  seqInferringB_error (s := x.setSeq q) h

theorem seqInferringB_setSeq_ok (h : inferB x.cfg (x.win .tframe) (x.win .stateB) = some (frame, stB)) (q : SeqState) :
    seqInferringB (x.setSeq q) = .ok (((x.putWin .sframe frame).putWin .stateB stB).setSeq .inferringB) :=
  seqInferringB_ok (s := x.setSeq q) h

theorem seqOverlapAdding_setSeq (x : State) (q : SeqState) :
    seqOverlapAdding (x.setSeq q) = (olaEmitBody (olaAccBody .sframe x)).setSeq .overlapAdding := rfl

/-- Stage A answers Error (45_sequencer.md R204). -/
theorem seqStep_inferenceA (hp : s.processReadPtr < s.readPtr) (hm : s.passThrough = false)
    (hA : answerA s = none) :
    seqStep s = raiseFault .M .inferenceA ((analyzedHop s).setSeq .inferringA) := by
  rw [answerA, ← analyzedHop_cfg] at hA
  refine seqStep_of_fullChain_error hp hm ?_
  rw [seqFullChain, seqAnalyzing_seqFront, seqInferringA_setSeq_error hA]

/-- Stage A answers, stage B answers Error (45_sequencer.md R205). -/
theorem seqStep_inferenceB (hp : s.processReadPtr < s.readPtr) (hm : s.passThrough = false)
    (hA : answerA s = some (mask, stA))
    (hB : answerB mask stA s = none) :
    seqStep s = raiseFault .M .inferenceB ((maskedHop mask stA s).setSeq .inferringB) := by
  rw [answerA, ← analyzedHop_cfg] at hA
  rw [answerB, ← maskedHop_cfg mask stA] at hB
  refine seqStep_of_fullChain_error hp hm ?_
  rw [seqFullChain, seqAnalyzing_seqFront, seqInferringA_setSeq_ok hA]
  rw [maskedHop] at hB ⊢
  simp only [seqMasking_setSeq, seqInferringB_setSeq_error hB]

/-- Both stages answer (45_sequencer.md R206). -/
theorem seqStep_answered (hp : s.processReadPtr < s.readPtr) (hm : s.passThrough = false)
    (hA : answerA s = some (mask, stA))
    (hB : answerB mask stA s = some (frame, stB)) :
    seqStep s = seqBack ((emittedHop frame stB (maskedHop mask stA s)).setSeq .overlapAdding) := by
  rw [answerA, ← analyzedHop_cfg] at hA
  rw [answerB, ← maskedHop_cfg mask stA] at hB
  refine seqStep_of_fullChain_ok hp hm ?_
  rw [seqFullChain, seqAnalyzing_seqFront, seqInferringA_setSeq_ok hA]
  rw [maskedHop] at hB
  rw [emittedHop, maskedHop]
  simp only [seqMasking_setSeq, seqInferringB_setSeq_ok hB, seqOverlapAdding_setSeq]

/-! ### The end of a step -/

/-- From state Resampling on: what `RS.INT` leaves of the computed hop `x`, then the end of a step. -/
theorem seqStepEndsFrom_of_seqBack (he : s.err = 0) (hx : Walk walkWindows (capPopBody s) x)
    (h : seqStep s = seqBack (x.setSeq q)) : SeqStepEndsFrom ((rsIntBody x).setResultReg 0) s := by
  have hy : Walk walkWindows (capPopBody s) (rsIntBody x) := hx.trans ((rsIntBody_walk x).mono (by decide))
  have hend : EmitsFrom s ((rsIntBody x).setSeq .emitting) (seqStep s) := by
    obtain ⟨-, hback⟩ := seqBack_cases (x.setSeq q)
    exact h ▸ hback.of_walk (hx.trans (Walk.setSeq _ x q))
  generalize rsIntBody x = y at hy hend
  have herr : (y.setSeq .emitting).err = 0 := hy.err.trans he
  rw [SeqStepEndsFrom, exec_seqStep_running he]
  rcases hend with ⟨hmax, hr⟩ | ⟨hne, hfull, hr⟩ | ⟨hne, hroom, hr⟩
  · refine ⟨fun _ => ?_, fun hne => absurd hmax hne, fun hne => absurd hmax hne⟩
    rw [hr, raiseFault_of_running herr]
    rfl
  · refine ⟨fun hmax => absurd hmax hne, fun _ _ => ?_, fun _ hroom => absurd hfull hroom.not_ge⟩
    rw [hr, raiseFault_of_running herr]
    rfl
  · refine ⟨fun hmax => absurd hmax hne, fun _ hfull => absurd hfull hroom.not_ge, fun _ _ => ?_⟩
    have hbelow : y.processWritePtr ≠ maxIndex y.cfg := by
      rw [hy.processWritePtr, hy.cfg]
      exact hne
    have hfree : y.processWritePtr - y.writePtr < y.cfg.numHops := by
      rw [hy.processWritePtr, hy.writePtr, hy.cfg]
      exact hroom
    have hpush := exec_playPush_published (s := y.setResultReg 0) herr hbelow hfree
    exact ⟨_, hpush, rfl, congrArg (· + 1) hy.processWritePtr, congrArg Host.Outcome.next hr⟩

end

/-! ### The commands of a step -/

section
variable {s x : State} {frame stB : List F32}

theorem execAll_cons {i : Instr} {t : State} (h : exec i s = .next t) (rest : List Instr) :
    execAll (i :: rest) s = execAll rest t := by
  rw [execAll, h]

/-- The three commands at the front of either mode's run. -/
theorem execAll_framedHop (he : s.err = 0) (hp : s.processReadPtr < s.readPtr) (rest : List Instr) :
    execAll (.capPop :: .rsDec :: .frmPush :: rest) s = execAll rest ((framedHop s).setResultReg 0) := by
  rw [execAll_cons (exec_capPop_taken he hp), returnCode_M_eq_setResultReg, codeWord,
    execAll_cons (exec_rsDec_running ?_), rsDecBody_setResultReg, setResultReg_setResultReg,
    execAll_cons (exec_frmPush_running ?_), frmPushBody_setResultReg, setResultReg_setResultReg, framedHop]
  all_goals exact he

theorem execAll_analyzedHop (he : s.err = 0) (hp : s.processReadPtr < s.readPtr) :
    execAll [.capPop, .rsDec, .frmPush, .fftAnalyze] s = .next ((analyzedHop s).setResultReg 0) := by
  rw [execAll_framedHop he hp, execAll_cons (exec_fftAnalyze_running ?_), fftAnalyzeBody_setResultReg,
    setResultReg_setResultReg, execAll, analyzedHop]
  exact he

/-- `FFT.MSYN` after an answer of `InferA`. -/
theorem exec_fftMsyn_maskedHop (he : s.err = 0) (mask stA : List F32) :
    exec .fftMsyn ((((analyzedHop s).setResultReg 0).putWin .mask mask).putWin .stateA stA) =
      .next ((maskedHop mask stA s).setResultReg 0) := by
  rw [State.putWin_setResultReg, State.putWin_setResultReg, exec_fftMsyn_running, fftMsynBody_setResultReg,
    setResultReg_setResultReg, maskedHop]
  rw [State.setResultReg_err, State.putWin_err, State.putWin_err, analyzedHop_err]
  exact he

/-- PassThrough's copy of the decimated hop, then `RS.INT`. -/
theorem exec_rsInt_copied (he : x.err = 0) :
    exec .rsInt ((x.setResultReg 0).putWin .mho (tabulate x.cfg.hopSize ((x.setResultReg 0).item .mhi))) =
      .next ((rsIntBody (seqPassThrough x)).setResultReg 0) := by
  rw [State.putWin_setResultReg, exec_rsInt_running, rsIntBody_setResultReg, setResultReg_setResultReg]
  · rfl
  · exact he

/-- The commands after an answer of `InferB`. -/
theorem execAll_emittedHop (he : x.err = 0) (frame stB : List F32) :
    execAll [.olaAcc 0, .olaEmit, .rsInt] (((x.setResultReg 0).putWin .sframe frame).putWin .stateB stB) =
      .next ((rsIntBody (emittedHop frame stB x)).setResultReg 0) := by
  have hsource : olaSource 0 = .sframe := rfl
  have hwritten : ((x.putWin .sframe frame).putWin .stateB stB).err = 0 := he
  rw [State.putWin_setResultReg, State.putWin_setResultReg, emittedHop]
  generalize (x.putWin .sframe frame).putWin .stateB stB = y at hwritten
  rw [execAll_cons (exec_olaAcc_running ?_ 0), hsource, olaAccBody_setResultReg, setResultReg_setResultReg,
    execAll_cons (exec_olaEmit_running ?_), emitHop, olaEmitBody_setResultReg, setResultReg_setResultReg,
    execAll_cons (exec_rsInt_running ?_), rsIntBody_setResultReg, setResultReg_setResultReg, execAll]
  all_goals exact hwritten

end

/-- Settles O45: the walk in PassThrough and the run of the commands leave the same computed hop. -/
theorem passThroughStepIsItsCommands : Obligations.PassThroughStepIsItsCommands := by
  unfold Obligations.PassThroughStepIsItsCommands
  intro s he hm hp
  have hcopied : Walk walkWindows (capPopBody s) (seqPassThrough (framedHop s)) :=
    ((framedHop_walk s).mono (by decide)).trans ((seqPassThrough_walk _).mono (by decide))
  refine ⟨_, _, execAll_framedHop he hp [], exec_rsInt_copied (x := framedHop s) he, rfl, ?_⟩
  exact seqStepEndsFrom_of_seqBack he hcopied (seqStep_passThrough hp hm)

/-- Settles O46: the walk and the run agree up to each stage's answer, and after the last one on the computed hop. -/
theorem fullChainStepIsStepManual : Obligations.FullChainStepIsStepManual := by
  unfold Obligations.FullChainStepIsStepManual
  intro s he hm hp
  refine ⟨_, execAll_analyzedHop he hp, ?count, ?errorA, ?answeredA⟩
  case count => rw [State.setResultReg_processReadPtr, (analyzedHop_walk s).regs]; rfl
  case errorA =>
    intro hA
    simp only [State.win_setResultReg] at hA
    have herr : ((analyzedHop s).setSeq .inferringA).err = 0 := by rw [State.setSeq_err, analyzedHop_err, he]
    rw [exec_seqStep_running he, seqStep_inferenceA hp hm hA, raiseFault_of_running herr]
    generalize analyzedHop s = x
    rfl
  case answeredA =>
    intro mask stA hA
    simp only [State.win_setResultReg] at hA
    have hrunning : (maskedHop mask stA s).err = 0 := (maskedHop_err mask stA s).trans he
    refine ⟨_, exec_fftMsyn_maskedHop he mask stA, fun hB => ?errorB, fun frame stB hB => ?answeredB⟩
    case errorB =>
      simp only [State.win_setResultReg] at hB
      have herr : ((maskedHop mask stA s).setSeq .inferringB).err = 0 := by rw [State.setSeq_err, hrunning]
      rw [exec_seqStep_running he, seqStep_inferenceB hp hm hA hB, raiseFault_of_running herr]
      generalize maskedHop mask stA s = x
      rfl
    case answeredB =>
      simp only [State.win_setResultReg] at hB
      have hends := seqStepEndsFrom_of_seqBack he (emittedHop_walk hA hB) (seqStep_answered hp hm hA hB)
      exact ⟨_, execAll_emittedHop hrunning frame stB, hends⟩

/-! ### PassThrough -/

/-- In PassThrough a step writes `NIN`, the windows of the run above and a playback slot. -/
theorem win_seqStep_of_passThrough {s : State} (hm : s.passThrough = true) {w : Window}
    (hw : w ∉ .nin :: passWindows) : (seqStep s).win w = s.win w := by
  obtain ⟨hnin, hpass⟩ := List.ne_and_not_mem_of_not_mem_cons hw
  rcases seqStep_cases s with ⟨_, h⟩ | ⟨_, t, _, hwalk, ⟨_, hfull, _⟩ | ⟨_, hfull, _⟩ | ⟨_, hend⟩⟩
  · rw [h, returnCode_win]
  · exact absurd hm (Bool.eq_false_iff.mp hfull)
  · exact absurd hm (Bool.eq_false_iff.mp hfull)
  · have hwalked := ((hwalk hm).windows w hpass).trans (win_capPopBody hnin)
    rcases hend with ⟨_, h⟩ | ⟨_, _, h⟩ | ⟨_, _, h⟩
    · rw [h, raiseFault_win, hwalked]
    · rw [h, raiseFault_win, hwalked]
    · rw [h, returnCode_win, State.win_setSeq, win_playPushBody, hwalked]

/-- Settles O47: `SEQ.STEP` keeps every window but those it writes, and the frozen ones are none of them. -/
theorem passThroughFreezesTheSpectralChain : Obligations.PassThroughFreezesTheSpectralChain := by
  unfold Obligations.PassThroughFreezesTheSpectralChain
  intro s t hm h w hw i
  have hfrozen : ∀ w ∈ [Window.spec, .mag, .mask, .tframe, .sframe, .acc, .stateA, .stateB],
      w ∉ .nin :: passWindows := by decide
  obtain ⟨hcfg, -⟩ := exec_keepsSetting h
  have hwin : t.win w = s.win w := by
    rcases exec_seqStep_cases h with rfl | ⟨_, rfl⟩
    · exact returnCode_win _ _ _ _
    · exact win_seqStep_of_passThrough hm (hfrozen w hw)
  rw [State.peek_win, State.peek_win, hcfg, hwin]

end Sys2Proof.Machine
end

section
/-! Silence (45_sequencer.md R213; 41_resampler.md R149; 43_spectral.md R182). Every body of the walk turns zeros into
zeros, and the sums make them `+0.0`; what is carried from hop to hop is four windows of zeros and two queues of
hops of `0x00000000`. -/

namespace Sys2Proof.Machine

/-! ### Buffers of zeros -/

/-- Every element is a zero of either sign. -/
def ZeroList (l : List Word) : Prop := ∀ a ∈ l, isZero a = true

/-- Every element is the pattern `0x00000000`. -/
def PlusZeroList (l : List Word) : Prop := ∀ a ∈ l, a = 0

section
variable {l : List Word} {n : Nat} {f : Nat → Word}

theorem ZeroList.elem (h : ZeroList l) (i : Nat) : isZero (elem l i) = true := isZero_elem h i

theorem PlusZeroList.elem (h : PlusZeroList l) (i : Nat) : elem l i = 0 := by
  by_cases hi : i < l.length
  case pos => exact h _ (elem_mem hi)
  case neg => exact elem_of_length_le (Nat.le_of_not_lt hi)

theorem PlusZeroList.zeroList (h : PlusZeroList l) : ZeroList l := fun a ha => by
  rw [h a ha]
  decide

theorem zeroList_tabulate (h : ∀ i < n, isZero (f i) = true) : ZeroList (tabulate n f) := by
  intro a ha
  obtain ⟨i, hi, rfl⟩ := mem_tabulate.mp ha
  exact h i hi

theorem plusZeroList_tabulate (h : ∀ i < n, f i = 0) : PlusZeroList (tabulate n f) := by
  intro a ha
  obtain ⟨i, hi, rfl⟩ := mem_tabulate.mp ha
  exact h i hi

theorem zeroList_shiftIn {tail : Nat → Word} (hl : ZeroList l) (ht : ∀ i, isZero (tail i) = true) (f h : Nat) :
    ZeroList (shiftIn f h l tail) :=
  zeroList_tabulate fun i _ => by
    split
    · exact hl.elem _
    · exact ht _

theorem plusZeroList_shiftIn {tail : Nat → Word} (hl : PlusZeroList l) (ht : ∀ i, tail i = 0) (f h : Nat) :
    PlusZeroList (shiftIn f h l tail) :=
  plusZeroList_tabulate fun i _ => by
    split
    · exact hl.elem _
    · exact ht _

end

section
variable {s : State} {w : Window}

theorem allZero_of_zeroList (h : ZeroList (s.win w)) : AllZero s w := fun i _ => h.elem i

theorem zeroList_of_allZero (hlen : (s.win w).length = windowLen s.cfg w) (h : AllZero s w) : ZeroList (s.win w) := by
  intro a ha
  obtain ⟨i, hi, rfl⟩ := exists_elem_of_mem ha
  exact h i (hlen ▸ hi)

theorem allPlusZero_of_plusZeroList (h : PlusZeroList (s.win w)) : AllPlusZero s w := fun i _ => h.elem i

theorem plusZeroList_of_allPlusZero (hlen : (s.win w).length = windowLen s.cfg w) (h : AllPlusZero s w) :
    PlusZeroList (s.win w) := by
  intro a ha
  obtain ⟨i, hi, rfl⟩ := exists_elem_of_mem ha
  exact h i (hlen ▸ hi)

end

/-! ### Zeros through the filters -/

section
variable {c : Cfg} {taps : Nat}

theorem pcm2f_zero (c : Cfg) : pcm2f c 0 = 0 := by
  unfold pcm2f
  split <;> simp

theorem f2pcm_zero (c : Cfg) : f2pcm c 0 = 0 := by
  unfold f2pcm
  split <;> simp

theorem isZero_filterInput {line : List Word} {x : Nat → F32} (hline : ZeroList line) (hx : ∀ j, isZero (x j) = true)
    (p : Nat) : isZero (filterInput taps line x p) = true := by
  rcases Nat.lt_or_ge p (taps - 1) with hold | hnew
  · rw [filterInput_of_lt hold]; exact hline.elem p
  · rw [filterInput_of_le hnew]; exact hx _

/-- A filter with finite coefficients answers zeros with `+0.0`, since its sum starts from `+0.0`. -/
theorem firOutput_of_zeros {r : NanRule} (hr : c.arith = .ieee r) {coef : List Word}
    (hcoef : ∀ a ∈ coef, isFinite a = true) {v : Nat → F32} (hv : ∀ p, isZero (v p) = true) (j : Nat) :
    firOutput c taps coef v j = 0 :=
  fsum_of_zeros hr fun _ _ => isZero_fmul hr (isFinite_elem hcoef _) (isFinite_of_isZero (hv _)) (.inr (hv _))

/-- A positive number times `+0.0` is `+0.0`. -/
theorem fmul_plusZero {r : NanRule} (hr : c.arith = .ieee r) {a : F32} (ha : isFinite a = true)
    (hsign : signBit a = false) : fmul c a 0 = 0 := by
  rw [fmul, hr]
  have hzero : magUnits a * magUnits 0 = 0 := by rw [magUnits_of_isZero (a := 0) (by decide), Nat.mul_zero]
  refine (ieeeMul_of_finite ha (by decide)).trans ?_
  rw [hzero, roundMag_zero, hsign]
  decide

theorem magnitude_zero {r : NanRule} (hr : c.arith = .ieee r) (hv : cfgValid c = true) : magnitude c (0, 0) = 0 := by
  have hscale := (legal_of_cfgValid hv).magScale
  simp only [isPositiveFinite, Bool.and_eq_true, Bool.not_eq_true'] at hscale
  obtain ⟨⟨hfinite, hsign⟩, -⟩ := hscale
  rw [magnitude, fmul_plusZero hr (a := 0) (by decide) (by decide), fadd_zero_left hr (by decide), fsqrt_zero hr,
    fmul_plusZero hr hfinite hsign]

end

/-! ### What a silent stream leaves in the windows -/

/-- What silence asks of a window: zeros in the three lines that are carried from hop to hop, `+0.0` in the
accumulator, nothing of the windows that each hop fills anew (R213). -/
def SilentWindow : Window → List Word → Prop
  | .ddl, l | .idl, l | .aframe, l => ZeroList l
  | .acc, l => PlusZeroList l
  | _, _ => True

/-- Every window is as silence asks. -/
def SilentLines (s : State) : Prop := ∀ w, SilentWindow w (s.win w)

section
variable {s t x : State} {ws : List Window}

theorem SilentLines.ddl (h : SilentLines s) : ZeroList (s.win .ddl) := h .ddl
theorem SilentLines.idl (h : SilentLines s) : ZeroList (s.win .idl) := h .idl
theorem SilentLines.aframe (h : SilentLines s) : ZeroList (s.win .aframe) := h .aframe
theorem SilentLines.acc (h : SilentLines s) : PlusZeroList (s.win .acc) := h .acc

theorem Silent.lines (h : Silent s) (hmem : s.mem.wf s.cfg = true) : SilentLines s := by
  intro w
  cases w
  case ddl => exact zeroList_of_allZero (State.win_length hmem rfl) h.ddl
  case idl => exact zeroList_of_allZero (State.win_length hmem rfl) h.idl
  case aframe => exact zeroList_of_allZero (State.win_length hmem rfl) h.aframe
  case acc => exact plusZeroList_of_allPlusZero (State.win_length hmem rfl) h.acc
  all_goals trivial

/-- A computation keeps silence if what it writes is silent. -/
theorem SilentLines.of_walk (h : SilentLines s) (hw : Walk ws s t) (hws : ∀ w ∈ ws, SilentWindow w (t.win w)) :
    SilentLines t := by
  intro w
  by_cases hmem : w ∈ ws
  case pos => exact hws w hmem
  case neg =>
    rw [hw.windows w hmem]
    exact h w

theorem SilentLines.of_win (h : SilentLines s) (hw : ∀ w, t.win w = s.win w) : SilentLines t := by
  intro w
  rw [hw w]
  exact h w

/-! #### The resampler -/

section
variable (hc : SilenceConfig s.cfg)

theorem isZero_decInput (hddl : ZeroList (s.win .ddl)) (hnin : PlusZeroList (s.win .nin)) (p : Nat) :
    isZero (decInput s p) = true :=
  isZero_filterInput hddl (fun j => by rw [hnin.elem, pcm2f_zero]; decide) p

theorem isZero_intInput (hidl : ZeroList (s.win .idl)) (hmho : PlusZeroList (s.win .mho)) (p : Nat) :
    isZero (intInput s p) = true :=
  isZero_filterInput hidl (fun j => by rw [zeroStuffed, hmho.elem, ite_self]; decide) p

include hc

theorem plusZeroList_decOutput (hddl : ZeroList (s.win .ddl)) (hnin : PlusZeroList (s.win .nin)) :
    PlusZeroList (decOutput s) := by
  obtain ⟨⟨r, hr⟩, -, hdec, -⟩ := hc
  exact plusZeroList_tabulate fun m _ => firOutput_of_zeros hr hdec (isZero_decInput hddl hnin) _

theorem plusZeroList_intOutput (hidl : ZeroList (s.win .idl)) (hmho : PlusZeroList (s.win .mho)) :
    PlusZeroList (intOutput s) := by
  obtain ⟨⟨r, hr⟩, -, -, hint⟩ := hc
  refine plusZeroList_tabulate fun n _ => ?_
  rw [firOutput_of_zeros hr hint (isZero_intInput hidl hmho), f2pcm_zero]

end

theorem SilentLines.after_rsDecBody (h : SilentLines s) (hnin : PlusZeroList (s.win .nin)) :
    SilentLines (rsDecBody s) := by
  refine h.of_walk (rsDecBody_walk s) (List.forall_mem_cons.mpr ⟨trivial, List.forall_mem_singleton.mpr ?_⟩)
  rw [win_ddl_rsDecBody]
  exact zeroList_tabulate fun i _ => isZero_decInput h.ddl hnin _

theorem SilentLines.after_rsIntBody (h : SilentLines s) (hmho : PlusZeroList (s.win .mho)) :
    SilentLines (rsIntBody s) := by
  refine h.of_walk (rsIntBody_walk s) (List.forall_mem_cons.mpr ⟨trivial, List.forall_mem_singleton.mpr ?_⟩)
  rw [win_idl_rsIntBody]
  exact zeroList_tabulate fun i _ => isZero_intInput h.idl hmho _

/-! #### The frame assembler -/

theorem SilentLines.after_frmPushBody (h : SilentLines s) (hmhi : PlusZeroList (s.win .mhi)) :
    SilentLines (frmPushBody s) := by
  refine h.of_walk (frmPushBody_walk s) (List.forall_mem_singleton.mpr ?_)
  rw [win_aframe_frmPushBody]
  exact zeroList_shiftIn h.aframe hmhi.zeroList.elem _ _

/-! #### The transforms -/

theorem zeroList_spec_fftAnalyzeBody (haframe : ZeroList (s.win .aframe)) :
    ZeroList ((fftAnalyzeBody s).win .spec) := by
  rw [win_spec_fftAnalyzeBody]
  refine zeroList_tabulate fun e _ => ?_
  simp only [specElem, bin_rfft_of_zeros haframe, ite_self]
  split
  · decide
  · split <;> decide

theorem mag_fftAnalyzeBody_of_zeros (hc : SilenceConfig s.cfg) (haframe : ZeroList (s.win .aframe)) :
    (fftAnalyzeBody s).win .mag = zeros (binCount s.cfg) := by
  obtain ⟨⟨r, hr⟩, hv, -⟩ := hc
  rw [win_mag_fftAnalyzeBody]
  simp only [bin_rfft_of_zeros haframe, magnitude_zero hr hv]
  rw [tabulate, List.map_const', List.length_range, zeros]

theorem zeroList_tframe_fftMsynBody (hc : SilenceConfig s.cfg) (hspec : ZeroList (s.win .spec))
    (hmask : ∀ a ∈ s.win .mask, isFinite a = true) : ZeroList ((fftMsynBody s).win .tframe) := by
  obtain ⟨⟨r, hr⟩, -⟩ := hc
  have hpart : ∀ e k, isZero (fmul s.cfg (elem (s.win .spec) e) (elem (s.win .mask) k)) = true := fun e k =>
    isZero_fmul hr (isFinite_of_isZero (hspec.elem e)) (isFinite_elem hmask k) (.inl (hspec.elem e))
  rw [win_tframe_fftMsynBody]
  refine isZero_irfft (isZeroBins_of_zeros (length_tabulate _ _) fun b hb => ?_)
  obtain ⟨k, -, rfl⟩ := mem_tabulate.mp hb
  exact ⟨hpart _ k, hpart _ k⟩

/-! #### The overlap-adder -/

theorem SilentLines.after_olaAccBody (h : SilentLines s) (hc : SilenceConfig s.cfg)
    (hframe : ZeroList (s.win .sframe)) : SilentLines (olaAccBody .sframe s) := by
  obtain ⟨⟨r, hr⟩, -⟩ := hc
  refine h.of_walk (olaAccBody_walk .sframe s) (List.forall_mem_singleton.mpr ?_)
  rw [win_acc_olaAccBody]
  refine plusZeroList_tabulate fun i _ => ?_
  rw [h.acc.elem, fadd_zero_left hr (hframe.elem i)]

theorem win_mho_olaEmitBody (s : State) :
    (olaEmitBody s).win .mho = tabulate s.cfg.hopSize (elem (s.win .acc)) := by simp [olaEmitBody, inMemory]

theorem win_acc_olaEmitBody (s : State) : (olaEmitBody s).win .acc =
    shiftIn s.cfg.frameSize s.cfg.hopSize (s.win .acc) fun _ => 0 := by simp [olaEmitBody, inMemory]

theorem plusZeroList_mho_olaEmitBody (hacc : PlusZeroList (s.win .acc)) : PlusZeroList ((olaEmitBody s).win .mho) := by
  rw [win_mho_olaEmitBody]
  exact plusZeroList_tabulate fun i _ => hacc.elem i

theorem SilentLines.after_olaEmitBody (h : SilentLines s) : SilentLines (olaEmitBody s) := by
  refine h.of_walk (olaEmitBody_walk s) (List.forall_mem_cons.mpr ⟨trivial, List.forall_mem_singleton.mpr ?_⟩)
  rw [win_acc_olaEmitBody]
  exact plusZeroList_shiftIn h.acc (fun _ => rfl) _ _

end

/-! ### A silent hop through the walk -/

section
variable {s x : State} {mask stA frame stB : List F32}

theorem SilentLines.after_setSeq (h : SilentLines s) (q : SeqState) : SilentLines (s.setSeq q) :=
  h.of_win (State.win_setSeq s q)

/-- The oldest waiting hop is what `CAP.POP` delivers. -/
theorem Silent.nin_capPopBody (h : Silent s) (hp : s.processReadPtr < s.readPtr) :
    PlusZeroList ((capPopBody s).win .nin) :=
  h.captured _ (waitingHops_capPopBody hp ▸ List.mem_cons_self)

theorem SilentLines.after_putWin (h : SilentLines s) {w : Window} {l : List Word} (hw : SilentWindow w l) :
    SilentLines (s.putWin w l) := by
  intro v
  rw [State.win_putWin]
  split
  case isTrue he => exact he.1 ▸ hw
  case isFalse => exact h v

theorem SilentLines.after_capPopBody (h : SilentLines s) : SilentLines (capPopBody s) :=
  (h.after_putWin (w := .nin) trivial).of_win fun w => State.win_setProcessReadPtr _ _ w

theorem SilentLines.after_framedHop (h : SilentLines s) (hc : SilenceConfig s.cfg)
    (hnin : PlusZeroList ((capPopBody s).win .nin)) :
    SilentLines (framedHop s) ∧ PlusZeroList ((framedHop s).win .mhi) := by
  have hpop := h.after_capPopBody
  have hmhi : PlusZeroList ((rsDecBody (capPopBody s)).win .mhi) := by
    rw [win_mhi_rsDecBody]
    exact plusZeroList_decOutput hc hpop.ddl hnin
  refine ⟨(hpop.after_rsDecBody hnin).after_frmPushBody hmhi, ?_⟩
  rw [framedHop, (frmPushBody_walk _).windows .mhi (by decide)]
  exact hmhi

theorem SilentLines.after_analyzedHop (h : SilentLines (framedHop s)) : SilentLines (analyzedHop s) :=
  h.of_walk (fftAnalyzeBody_walk _) (List.forall_mem_cons.mpr ⟨trivial, List.forall_mem_singleton.mpr trivial⟩)

/-- PassThrough's copy of a silent hop. -/
theorem SilentLines.after_seqPassThrough (h : SilentLines s) (hmhi : PlusZeroList (s.win .mhi)) :
    SilentLines (seqPassThrough s) ∧ PlusZeroList ((seqPassThrough s).win .mho) := by
  refine ⟨h.of_walk (seqPassThrough_walk s) (List.forall_mem_singleton.mpr trivial), ?_⟩
  have hcopy : (seqPassThrough s).win .mho = tabulate s.cfg.hopSize (elem (s.win .mhi)) := by
    simp [seqPassThrough, inMemory]
  rw [hcopy]
  exact plusZeroList_tabulate fun i _ => hmhi.elem i

/-- A finite mask on a silent hop gives a silent frame of `F` samples. -/
theorem SilentLines.after_maskedHop (h : SilentLines (framedHop s)) (hc : SilenceConfig s.cfg)
    (hmask : ∀ a ∈ mask, isFinite a = true) :
    SilentLines (maskedHop mask stA s) ∧ ZeroList ((maskedHop mask stA s).win .tframe) ∧
      ((maskedHop mask stA s).win .tframe).length = s.cfg.frameSize := by
  have hanalyzed := h.after_analyzedHop
  have hspec : ZeroList ((analyzedHop s).win .spec) := zeroList_spec_fftAnalyzeBody h.aframe
  have hcfg := analyzedHop_cfg s
  rw [maskedHop]
  generalize analyzedHop s = x at hanalyzed hspec hcfg
  rw [← hcfg] at hc ⊢
  have hput := (hanalyzed.after_putWin (w := .mask) (l := mask) trivial).after_putWin (w := .stateA) (l := stA) trivial
  refine ⟨hput.of_walk (fftMsynBody_walk _) (List.forall_mem_singleton.mpr trivial),
    zeroList_tframe_fftMsynBody hc (by simpa using hspec) (by simpa [inMemory] using hmask), ?_⟩
  obtain ⟨-, hv, -⟩ := hc
  rw [win_tframe_fftMsynBody, length_irfft, State.putWin_cfg, State.putWin_cfg, frameSize_eq hv]

theorem SilentLines.after_emittedHop (h : SilentLines x) (hc : SilenceConfig x.cfg) (hframe : ZeroList frame) :
    SilentLines (emittedHop frame stB x) ∧ PlusZeroList ((emittedHop frame stB x).win .mho) := by
  have hput := (h.after_putWin (w := .sframe) (l := frame) trivial).after_putWin (w := .stateB) (l := stB) trivial
  have hacc := hput.after_olaAccBody hc (by simpa [inMemory] using hframe)
  exact ⟨hacc.after_olaEmitBody, plusZeroList_mho_olaEmitBody hacc.acc⟩

/-! ### A silent step -/

/-- Silence in the windows after a step, and in the hop it published if it published one. -/
def SilentEnd (t : State) : Prop := SilentLines t ∧ (t.result = 0 → PlusZeroList (t.win .nout))

theorem silentEnd_returnCode (h : SilentLines x) {code : ResultCode} (hne : code ≠ .ok) :
    SilentEnd (returnCode .M code x) :=
  ⟨h.of_win (returnCode_win _ _ _), fun hok => absurd (codeWord_eq_zero_iff.mp hok) hne⟩

theorem silentEnd_raiseFault (h : SilentLines x) (f : Fault) : SilentEnd (raiseFault .M f x) :=
  ⟨h.of_win (raiseFault_win _ _ _), fun hok => absurd hok (codeWord_faultCode_not_refusal f).2⟩

/-- From state Resampling on. -/
theorem silentEnd_seqBack (h : SilentLines x) (hc : SilenceConfig x.cfg) (hmho : PlusZeroList (x.win .mho)) :
    SilentEnd (seqBack x) := by
  have hlines := (h.after_rsIntBody hmho).after_setSeq .emitting
  have hnout : PlusZeroList (((rsIntBody x).setSeq .emitting).win .nout) := by
    rw [State.win_setSeq, win_nout_rsIntBody]
    exact plusZeroList_intOutput hc h.idl hmho
  obtain ⟨-, hend⟩ := seqBack_cases x
  generalize (rsIntBody x).setSeq .emitting = y at hend hlines hnout
  rcases hend with ⟨_, h⟩ | ⟨_, _, h⟩ | ⟨_, _, h⟩
  · exact h ▸ silentEnd_raiseFault hlines _
  · exact h ▸ silentEnd_raiseFault hlines _
  · have hwin : ∀ w, (seqBack x).win w = y.win w := fun w => by
      rw [h, returnCode_win, State.win_setSeq, win_playPushBody]
    exact ⟨hlines.of_win hwin, fun _ => hwin .nout ▸ hnout⟩

theorem silentEnd_seqStep_passThrough (h : SilentLines (framedHop s)) (hmhi : PlusZeroList ((framedHop s).win .mhi))
    (hc : SilenceConfig s.cfg) (hp : s.processReadPtr < s.readPtr) (hm : s.passThrough = true) :
    SilentEnd (seqStep s) := by
  obtain ⟨hlines, hmho⟩ := h.after_seqPassThrough hmhi
  rw [seqStep_passThrough hp hm]
  exact silentEnd_seqBack (hlines.after_setSeq _) hc (by rwa [State.win_setSeq])

theorem silentEnd_seqStep_fullChain (h : SilentLines (framedHop s)) (hc : SilenceConfig s.cfg)
    (hstages : SilentStages s) (hp : s.processReadPtr < s.readPtr) (hm : s.passThrough = false) :
    SilentEnd (seqStep s) := by
  obtain ⟨hstageA, hstageB⟩ := hstages
  cases hA : answerA s with
  | none =>
    rw [seqStep_inferenceA hp hm hA]
    exact silentEnd_raiseFault (h.after_analyzedHop.after_setSeq _) _
  | some answer =>
    obtain ⟨mask, stA⟩ := answer
    have hmag : (analyzedHop s).win .mag = zeros (binCount s.cfg) := mag_fftAnalyzeBody_of_zeros hc h.aframe
    have hmask : ∀ a ∈ mask, isFinite a = true := by
      rw [answerA, hmag, win_stateA_analyzedHop] at hA
      exact hstageA mask stA hA
    obtain ⟨hmasked, htframe, hlen⟩ := h.after_maskedHop (stA := stA) hc hmask
    cases hB : answerB mask stA s with
    | none =>
      rw [seqStep_inferenceB hp hm hA hB]
      exact silentEnd_raiseFault (hmasked.after_setSeq _) _
    | some answer =>
      obtain ⟨frame, stB⟩ := answer
      have hframe : ZeroList frame := by
        rw [answerB, win_stateB_maskedHop hA] at hB
        exact hstageB _ frame stB hlen htframe hB
      rw [← maskedHop_cfg mask stA s] at hc
      rw [seqStep_answered hp hm hA hB]
      obtain ⟨hlines, hmho⟩ := hmasked.after_emittedHop (stB := stB) hc hframe
      refine silentEnd_seqBack (hlines.after_setSeq _) ?_ (by rwa [State.win_setSeq])
      rwa [State.setSeq_cfg, emittedHop_cfg]

end

/-! ### The queues -/

/-- Every waiting hop of both buffers is silent. -/
def SilentQueues (s : State) : Prop := ∀ b, ∀ hop ∈ waitingHops s b, PlusZeroList hop

section
variable {i : Instr} {s t : State}

/-- Queues stay silent if the hop that a push appends is. -/
theorem SilentQueues.of_queuesMoveAsFifo (h : SilentQueues s) (hmove : QueuesMoveAsFifo i s t)
    (hcapture : i = .capPush → PlusZeroList (s.win .capwin))
    (hpublish : i = .playPush ∨ i = .seqStep → t.result = 0 → PlusZeroList (t.win .nout)) : SilentQueues t := by
  obtain ⟨hcap, hplay⟩ := hmove
  intro b
  cases b
  case capbuf =>
    have hs := h .capbuf
    split at hcap
    case isTrue hpush =>
      rw [hcap]
      exact List.forall_mem_append.mpr ⟨hs, List.forall_mem_singleton.mpr (hcapture hpush.1)⟩
    case isFalse =>
      split at hcap
      · rw [hcap] at hs
        exact (List.forall_mem_cons.mp hs).2
      · rwa [hcap]
  case playbuf =>
    have hs := h .playbuf
    split at hplay
    case isTrue hpush =>
      rw [hplay]
      exact List.forall_mem_append.mpr ⟨hs, List.forall_mem_singleton.mpr (hpublish hpush.1 hpush.2)⟩
    case isFalse =>
      split at hplay
      · rw [hplay] at hs
        exact (List.forall_mem_cons.mp hs).2
      · rwa [hplay]

theorem Silent.queues (h : Silent s) : SilentQueues s
  | .capbuf => h.captured
  | .playbuf => h.processed

/-- Silence is silent windows and silent queues. -/
theorem silent_of_lines (hlines : SilentLines s) (hqueues : SilentQueues s) : Silent s where
  ddl := allZero_of_zeroList hlines.ddl
  idl := allZero_of_zeroList hlines.idl
  aframe := allZero_of_zeroList hlines.aframe
  acc := allPlusZero_of_plusZeroList hlines.acc
  captured := hqueues .capbuf
  processed := hqueues .playbuf

/-! ### Reset and the commands that keep silence -/

theorem silent_resetOf (c : Cfg) : Silent (State.resetOf c) := by
  have hzero : ∀ {w}, inMemory w = true → PlusZeroList ((State.resetOf c).win w) := fun hw => by
    rw [win_resetOf c hw]
    exact fun _ ha => List.eq_of_mem_replicate ha
  refine silent_of_lines (fun w => ?_) fun b => ?_
  · cases w
    case ddl | idl | aframe => exact (hzero rfl).zeroList
    case acc => exact hzero rfl
    all_goals trivial
  · cases b <;> exact fun _ hhop => absurd hhop List.not_mem_nil

/-- A command of agent I leaves every element of agent M's windows. -/
theorem item_exec_interrupt (hport : i.port = .I) (h : exec i s = .next t) {w : Window}
    (hw : w ∉ [Window.capwin, .playwin]) {k : Nat} (hk : k < windowLen t.cfg w) :
    k < windowLen s.cfg w ∧ t.item w k = s.item w k := by
  obtain ⟨-, helems⟩ := exec_interrupt hport h
  obtain ⟨hcfg, -⟩ := exec_keepsSetting h
  have hpeek := helems (.win w k) (not_or.mpr ⟨hw, id⟩)
  rw [State.peek_win_of_lt hk] at hpeek
  rw [hcfg] at hk
  rw [State.peek_win_of_lt hk] at hpeek
  exact ⟨hk, Option.some.inj hpeek⟩

/-- A command of agent I writes no window of agent M, and pushes no hop but the staged one. -/
theorem Silent.after_interrupt (hs : Silent s) (hinv : Inv s) (hport : i.port = .I) (h : exec i s = .next t)
    (hcapture : i = .capPush → AllPlusZero s .capwin) : Silent t := by
  have hzero : ∀ {w}, w ∉ [Window.capwin, .playwin] → AllZero s w → AllZero t w := fun hw hz k hk => by
    obtain ⟨hk, hitem⟩ := item_exec_interrupt hport h hw hk
    rw [hitem, hz k hk]
  have hacc : AllPlusZero t .acc := fun k hk => by
    obtain ⟨hk, hitem⟩ := item_exec_interrupt hport h (by decide) hk
    rw [hitem, hs.acc k hk]
  have hqueues : SilentQueues t := by
    refine hs.queues.of_queuesMoveAsFifo (exec_queuesMoveAsFifo hinv h ?_) (fun hi => ?_) ?_
    · rintro rfl
      cases hport
    · exact plusZeroList_of_allPlusZero (State.win_length hinv.memory rfl) (hcapture hi)
    · rintro (rfl | rfl) <;> cases hport
  exact ⟨hzero (by decide) hs.ddl, hzero (by decide) hs.idl, hzero (by decide) hs.aframe, hacc, hqueues .capbuf,
    hqueues .playbuf⟩

/-- A step taken on a silent state. -/
theorem Silent.silentEnd_seqStep (hs : Silent s) (hlines : SilentLines s) (hc : SilenceConfig s.cfg)
    (hstages : s.passThrough = false → SilentStages s) : SilentEnd (seqStep s) := by
  by_cases hp : s.processReadPtr < s.readPtr
  case pos =>
    obtain ⟨hframed, hmhi⟩ := hlines.after_framedHop hc (hs.nin_capPopBody hp)
    cases hm : s.passThrough with
    | true => exact silentEnd_seqStep_passThrough hframed hmhi hc hp hm
    | false => exact silentEnd_seqStep_fullChain hframed hc (hstages hm) hp hm
  case neg =>
    rw [seqStep_empty (Nat.le_of_not_lt hp)]
    exact silentEnd_returnCode hlines (by decide)

/-- A step keeps silence, taken or not. -/
theorem Silent.after_seqStep (hs : Silent s) (hinv : Inv s) (hc : SilenceConfig s.cfg) (h : exec .seqStep s = .next t)
    (hstages : s.passThrough = false → SilentStages s) : Silent t := by
  have hlines := hs.lines hinv.memory
  have hend : SilentEnd t := by
    rcases exec_seqStep_cases h with rfl | ⟨_, rfl⟩
    · exact silentEnd_returnCode hlines (by decide)
    · exact hs.silentEnd_seqStep hlines hc hstages
  obtain ⟨hlines, hnout⟩ := hend
  refine silent_of_lines hlines (hs.queues.of_queuesMoveAsFifo (exec_queuesMoveAsFifo hinv h (by simp)) (by simp) ?_)
  exact fun _ => hnout

end

/-- Settles O48: after agent I's commands by their frame, after `SEQ.STEP` by following a silent hop through the walk. -/
theorem silenceInSilenceOut : Obligations.SilenceInSilenceOut := by
  unfold Obligations.SilenceInSilenceOut
  refine ⟨fun c _ => silent_resetOf c, fun i s t hinv hc hs h hcase => ?_⟩
  rcases hcase with ⟨hport, hcapture⟩ | ⟨rfl, hstages⟩
  · exact hs.after_interrupt hinv hport h hcapture
  · exact hs.after_seqStep hinv hc h hstages

end Sys2Proof.Machine
end

section
/-! System and window commands (46_system_and_buffer_access.md R220 to R226). The four window commands share one
admission: the id, the index, then the rights of the port. What passes is one element moved to or from the port's data
register. -/

namespace Sys2Proof.Machine

/-! ### `SYS.NOP` and `SYS.SETUP` -/

/-- A well-formed command is the command of its own word, on its own port. -/
theorem isCommandWord_of_wellFormed {i : Instr} (h : i.wellFormed = true) : IsCommandWord i i.port (encode i) :=
  ⟨decode_encode h, rfl, rfl⟩

theorem exec_sysNop (s : State) : exec .sysNop s = .next (returnCode .M .ok s) := rfl

theorem exec_sysSetup (s : State) : exec .sysSetup s = .next (returnCode .M .ok (resetBlock s)) := rfl

/-- The reset value of `RESULT` is `R_OK` already (46_system_and_buffer_access.md R221). -/
theorem returnCode_ok_resetBlock (s : State) : returnCode .M .ok (resetBlock s) = resetBlock s := rfl

/-- Settles O21: the port is tested before the command runs, and the command is the code alone. -/
theorem sysNopWritesResultOnly : Obligations.SysNopWritesResultOnly := by
  unfold Obligations.SysNopWritesResultOnly
  refine ⟨isCommandWord_of_wellFormed rfl, fun s => ?ownPort, fun s => ?otherPort⟩
  case ownPort => rw [exec_sysNop, returnCode_M, codeWord]
  case otherPort =>
    have hdecode : decode 0x00000000 = .ok .sysNop := decode_encode (i := .sysNop) rfl
    rw [issue_of_port_ne hdecode (by decide), returnCode_I, codeWord]

/-- Settles O22: the code that `SYS.SETUP` returns is what reset has left in `RESULT`. -/
theorem sysSetupLeavesResetState : Obligations.SysSetupLeavesResetState := by
  unfold Obligations.SysSetupLeavesResetState
  refine ⟨isCommandWord_of_wellFormed rfl, fun s => ?_⟩
  rw [exec_sysSetup, returnCode_ok_resetBlock, resetBlock_eq]

/-! ### The rights of the ports -/

/-- Whether the window commands of a port may read a window, or write it (10_state.md R24,
46_system_and_buffer_access.md R222). -/
def mayAccess (p : Agent) (isWrite : Bool) (w : Window) : Bool :=
  windowOwner w == p && (!isWrite || windowWritable w)

theorem mayAccess_read_M_iff {w : Window} : mayAccess .M false w = true ↔ w ≠ .capwin ∧ w ≠ .playwin := by
  cases w <;> decide

theorem mayAccess_write_M_iff {w : Window} :
    mayAccess .M true w = true ↔ w ∉ [Window.capwin, .playwin, .dcoef, .icoef] := by
  cases w <;> decide

theorem mayAccess_read_I_iff {w : Window} : mayAccess .I false w = true ↔ w = .capwin ∨ w = .playwin := by
  cases w <;> decide

theorem mayAccess_write_I_iff {w : Window} : mayAccess .I true w = true ↔ w = .capwin := by
  cases w <;> decide

/-- What a port may write is memory: the coefficients are no port's to write. -/
theorem inMemory_of_mayAccess {p : Agent} {w : Window} (h : mayAccess p true w = true) : inMemory w = true := by
  obtain ⟨-, hw⟩ := Bool.and_eq_true_iff.mp h
  exact inMemory_of_writable hw

/-! ### Admission -/

section
variable {p : Agent} {isWrite : Bool} {c : Cfg} {w : Window} {idx : Nat}

theorem admitWindow_of_len_le (h : windowLen c w ≤ idx) :
    admitWindow p isWrite c (windowId w) idx = .error .range := by
  rw [admitWindow_id, if_pos h]

/-- Within a window the rights decide (30_encoding.md R98 step 4). -/
theorem admitWindow_of_lt_len (h : idx < windowLen c w) :
    admitWindow p isWrite c (windowId w) idx = if mayAccess p isWrite w then .ok w else .error .perm := by
  rw [admitWindow_id, if_neg h.not_ge]
  by_cases ho : windowOwner w = p
  · cases isWrite <;> cases hw : windowWritable w <;> simp [mayAccess, ho, hw]
  · simp [mayAccess, ho]

theorem admitWindow_of_mayAccess (h : idx < windowLen c w) (ha : mayAccess p isWrite w = true) :
    admitWindow p isWrite c (windowId w) idx = .ok w := by
  rw [admitWindow_of_lt_len h, if_pos ha]

theorem admitWindow_of_not_mayAccess (h : idx < windowLen c w) (ha : ¬ mayAccess p isWrite w = true) :
    admitWindow p isWrite c (windowId w) idx = .error .perm := by
  rw [admitWindow_of_lt_len h, if_neg ha]

end

/-! ### Reads and writes of one element -/

section
variable {p : Agent} {s : State} {win idx : Nat} {w : Window} {code : ResultCode}

theorem windowRead_of_error (h : admitWindow p false s.cfg win idx = .error code) :
    windowRead p win idx s = returnCode p code s := by
  rw [windowRead, h]
  rfl

theorem windowRead_of_ok (h : admitWindow p false s.cfg win idx = .ok w) :
    windowRead p win idx s = returnCode p .ok (setPortData p (s.item w idx) s) := by
  rw [windowRead, h]
  rfl

theorem windowWrite_of_error (h : admitWindow p true s.cfg win idx = .error code) :
    windowWrite p win idx s = returnCode p code s := by
  rw [windowWrite, h]
  rfl

theorem windowWrite_of_ok (h : admitWindow p true s.cfg win idx = .ok w) :
    windowWrite p win idx s = returnCode p .ok (s.storeWin w idx (portData p s)) := by
  rw [windowWrite, h]

theorem peek_storeWin_same (hw : inMemory w = true) (hlen : idx < windowLen s.cfg w) (v : Word) :
    (s.storeWin w idx v).peek (.win w idx) = some v := by
  rw [State.peek_storeWin s hw, if_pos ⟨rfl, hlen⟩]

theorem sameOutside_storeWin (s : State) (hw : inMemory w = true) (idx : Nat) (v : Word) :
    SameOutside (fun l => l = .win w idx) s (s.storeWin w idx v) := by
  intro l hl
  rw [State.peek_storeWin s hw, if_neg fun ⟨he, _⟩ => hl he]

end

/-! ### The four window commands -/

/-- The operands of a window command fit their fields (30_encoding.md R92). -/
theorem fitsFormatX_of_lt {win idx : Nat} (hwin : win < 256) (hidx : idx < 65536) : fitsFormatX win idx = true := by
  simp [fitsFormatX, hwin, hidx]

section
variable {s : State} {win idx : Nat} {w : Window} {code : ResultCode}

theorem exec_bufRd_of_error (h : admitWindow .M false s.cfg win idx = .error code) :
    exec (.bufRd win idx) s = .next { s with result := codeWord code } :=
  congrArg Host.Outcome.next (windowRead_of_error h)

theorem exec_bufRd_of_ok (h : admitWindow .M false s.cfg win idx = .ok w) :
    exec (.bufRd win idx) s = .next { s with data := s.item w idx, result := 0x00 } :=
  congrArg Host.Outcome.next (windowRead_of_ok h)

theorem exec_iwinRd_of_error (h : admitWindow .I false s.cfg win idx = .error code) :
    exec (.iwinRd win idx) s = .next { s with iresult := codeWord code } :=
  congrArg Host.Outcome.next (windowRead_of_error h)

theorem exec_iwinRd_of_ok (h : admitWindow .I false s.cfg win idx = .ok w) :
    exec (.iwinRd win idx) s = .next { s with idata := s.item w idx, iresult := 0x00 } :=
  congrArg Host.Outcome.next (windowRead_of_ok h)

theorem exec_bufWr_of_error (he : s.err = 0) (h : admitWindow .M true s.cfg win idx = .error code) :
    exec (.bufWr win idx) s = .next { s with result := codeWord code } := by
  obtain ⟨-, -, -, -, -, -, -, -, -, -, hrun, -⟩ := exec_running he
  rw [hrun, windowWrite_of_error h, returnCode_M]

theorem exec_bufWr_of_ok (he : s.err = 0) (h : admitWindow .M true s.cfg win idx = .ok w) :
    exec (.bufWr win idx) s = .next (returnCode .M .ok (s.storeWin w idx s.data)) := by
  obtain ⟨-, -, -, -, -, -, -, -, -, -, hrun, -⟩ := exec_running he
  rw [hrun, windowWrite_of_ok h, portData_M]

theorem exec_iwinWr_of_error (he : s.err = 0) (h : admitWindow .I true s.cfg win idx = .error code) :
    exec (.iwinWr win idx) s = .next { s with iresult := codeWord code } := by
  obtain ⟨-, -, -, -, -, -, -, -, -, -, -, -, -, hrun⟩ := exec_running he
  rw [hrun, windowWrite_of_error h, returnCode_I]

theorem exec_iwinWr_of_ok (he : s.err = 0) (h : admitWindow .I true s.cfg win idx = .ok w) :
    exec (.iwinWr win idx) s = .next (returnCode .I .ok (s.storeWin w idx s.idata)) := by
  obtain ⟨-, -, -, -, -, -, -, -, -, -, -, -, -, hrun⟩ := exec_running he
  rw [hrun, windowWrite_of_ok h, portData_I]

end

/-- Settles O49: the table row by row; then the tests of admission in their order, none of which is the halt. -/
theorem bufRdLoadsData : Obligations.BufRdLoadsData := by
  unfold Obligations.BufRdLoadsData
  refine ⟨fun c w => by cases w <;> simp [windowId, windowLen, nhop], fun win idx => ⟨fun hwin hidx =>
    isCommandWord_of_wellFormed (fitsFormatX_of_lt hwin hidx), fun s => ⟨fun hunknown => ?unknown, ?named⟩⟩⟩
  case unknown => exact exec_bufRd_of_error (admitWindow_unknown hunknown _ _ _ _)
  case named =>
    rintro w rfl
    refine ⟨fun hlen => ?pastEnd, fun hlen hw => ?foreign, fun hlen hcapwin hplaywin => ?loaded⟩
    case pastEnd => exact exec_bufRd_of_error (admitWindow_of_len_le hlen)
    case foreign =>
      have hdenied : ¬ mayAccess .M false w = true := by rwa [mayAccess_read_M_iff, ← not_or, not_not]
      exact exec_bufRd_of_error (admitWindow_of_not_mayAccess hlen hdenied)
    case loaded =>
      have hallowed : mayAccess .M false w = true := mayAccess_read_M_iff.mpr ⟨hcapwin, hplaywin⟩
      exact exec_bufRd_of_ok (admitWindow_of_mayAccess hlen hallowed)

/-- Settles O51, as O49 on agent I's port. -/
theorem iwinRdLoadsIdata : Obligations.IwinRdLoadsIdata := by
  unfold Obligations.IwinRdLoadsIdata
  refine fun win idx => ⟨fun hwin hidx => isCommandWord_of_wellFormed (fitsFormatX_of_lt hwin hidx), fun s =>
    ⟨fun hunknown => ?unknown, ?named⟩⟩
  case unknown => exact exec_iwinRd_of_error (admitWindow_unknown hunknown _ _ _ _)
  case named =>
    rintro w rfl
    refine ⟨fun hlen => ?pastEnd, fun hlen hcapwin hplaywin => ?foreign, fun hlen hw => ?loaded⟩
    case pastEnd => exact exec_iwinRd_of_error (admitWindow_of_len_le hlen)
    case foreign =>
      have hdenied : ¬ mayAccess .I false w = true :=
        mayAccess_read_I_iff.not.mpr (not_or.mpr ⟨hcapwin, hplaywin⟩)
      exact exec_iwinRd_of_error (admitWindow_of_not_mayAccess hlen hdenied)
    case loaded => exact exec_iwinRd_of_ok (admitWindow_of_mayAccess hlen (mayAccess_read_I_iff.mpr hw))

/-- Settles O50: admission as for `BUF.RD` with the right to write; what passes stores the one element. -/
theorem bufWrStoresData : Obligations.BufWrStoresData := by
  unfold Obligations.BufWrStoresData
  refine fun win idx => ⟨refusesWhileHalted_of_runsWhileHalted_eq_false rfl, fun hwin hidx =>
    isCommandWord_of_wellFormed (fitsFormatX_of_lt hwin hidx), fun s he => ⟨fun hunknown => ?unknown, ?named⟩⟩
  case unknown => exact exec_bufWr_of_error he (admitWindow_unknown hunknown _ _ _ _)
  case named =>
    rintro w rfl
    refine ⟨fun hlen => ?pastEnd, fun hlen hw => ?denied, fun hlen hw => ?stored⟩
    case pastEnd => exact exec_bufWr_of_error he (admitWindow_of_len_le hlen)
    case denied =>
      have hdenied : ¬ mayAccess .M true w = true := by rwa [mayAccess_write_M_iff, not_not]
      exact exec_bufWr_of_error he (admitWindow_of_not_mayAccess hlen hdenied)
    case stored =>
      have hallowed : mayAccess .M true w = true := mayAccess_write_M_iff.mpr hw
      have hmem := inMemory_of_mayAccess hallowed
      refine ⟨_, exec_bufWr_of_ok he (admitWindow_of_mayAccess hlen hallowed), rfl, ?_,
        (sameOutside_storeWin s hmem idx s.data).returnCode .M .ok⟩
      rw [returnCode_peek, peek_storeWin_same hmem hlen]

/-- Settles O52, as O50 on agent I's port, where `CAPWIN` is the one window that may be written. -/
theorem iwinWrStoresIdata : Obligations.IwinWrStoresIdata := by
  unfold Obligations.IwinWrStoresIdata
  refine fun win idx => ⟨refusesWhileHalted_of_runsWhileHalted_eq_false rfl, fun hwin hidx =>
    isCommandWord_of_wellFormed (fitsFormatX_of_lt hwin hidx), fun s he => ⟨fun hunknown => ?unknown, ?named⟩⟩
  case unknown => exact exec_iwinWr_of_error he (admitWindow_unknown hunknown _ _ _ _)
  case named =>
    rintro w rfl
    refine ⟨fun hlen => ?pastEnd, fun hlen hw => ?denied, fun hlen hw => ?stored⟩
    case pastEnd => exact exec_iwinWr_of_error he (admitWindow_of_len_le hlen)
    case denied =>
      exact exec_iwinWr_of_error he (admitWindow_of_not_mayAccess hlen (mayAccess_write_I_iff.not.mpr hw))
    case stored =>
      subst hw
      have hallowed : mayAccess .I true .capwin = true := mayAccess_write_I_iff.mpr rfl
      have hmem := inMemory_of_mayAccess hallowed
      refine ⟨_, exec_iwinWr_of_ok he (admitWindow_of_mayAccess hlen hallowed), rfl, ?_,
        (sameOutside_storeWin s hmem idx s.idata).returnCode .I .ok⟩
      rw [returnCode_peek, peek_storeWin_same hmem hlen]

end Sys2Proof.Machine
end

section
/-! Exceptions (60_exceptions.md R240 to R250, R255): how a command ends, with a refusal, with `R_OK` or with a fault;
and that agent I's commands look past what agent M owns. -/

namespace Sys2Proof.Machine

/-! ### The interrupt's commands and the main loop's state -/

/-- `s` with agent M's windows, `DATA`, `RESULT`, `SEQ` and the mode bit taken from `m`. -/
def State.withMainLoopOf (s m : State) : State :=
  { s with mem := { m.mem with capbuf := s.mem.capbuf, playbuf := s.mem.playbuf,
                               capwin := s.mem.capwin, playwin := s.mem.playwin },
           data := m.data, result := m.result, seq := m.seq, passThrough := m.passThrough }

/-- `f` does the same whatever agent M's part of the state holds, and leaves that part as it was. -/
def IgnoresMainLoop (f : State → State) : Prop :=
  ∀ s m : State, f (s.withMainLoopOf m) = (f s).withMainLoopOf m

theorem win_withMainLoopOf {w : Window} (ho : windowOwner w = .I) (s m : State) :
    (s.withMainLoopOf m).win w = s.win w := by
  have hw := windowOwner_eq_I ho
  simp only [List.mem_cons, List.not_mem_nil, or_false] at hw
  obtain rfl | rfl := hw <;> rfl

theorem storeWin_withMainLoopOf {w : Window} (ho : windowOwner w = .I) (idx : Nat) (v : Word) (s m : State) :
    (s.withMainLoopOf m).storeWin w idx v = (s.storeWin w idx v).withMainLoopOf m := by
  have hw := windowOwner_eq_I ho
  simp only [List.mem_cons, List.not_mem_nil, or_false] at hw
  obtain rfl | rfl := hw <;> rfl

theorem returnCode_ignoresMainLoop (code : ResultCode) : IgnoresMainLoop (returnCode .I code) := fun _ _ => rfl

theorem raiseFault_ignoresMainLoop (f : Fault) : IgnoresMainLoop (raiseFault .I f) := fun _ _ => rfl

theorem capPushBody_ignoresMainLoop : IgnoresMainLoop capPushBody := fun _ _ => rfl

theorem playPopBody_ignoresMainLoop : IgnoresMainLoop playPopBody := fun _ _ => rfl

section
variable {s : State}

theorem capPush_of_fault {f : Fault} (h : produceFault s.cfg .captureOverrun s.readPtr s.processReadPtr = some f) :
    capPush s = raiseFault .I f s := by rw [capPush, h]

theorem capPush_of_room (h : produceFault s.cfg .captureOverrun s.readPtr s.processReadPtr = none) :
    capPush s = returnCode .I .ok (capPushBody s) := by rw [capPush, h]

theorem playPop_of_waiting (h : s.writePtr < s.processWritePtr) :
    playPop s = returnCode .I .ok (playPopBody s) := if_pos h

theorem playPop_of_empty (h : ¬ s.writePtr < s.processWritePtr) : playPop s = returnCode .I .empty s := if_neg h

end

/-- The tests of `CAP.PUSH` look at the configuration and the counters alone. -/
theorem capPush_ignoresMainLoop : IgnoresMainLoop capPush := by
  intro s m
  cases h : produceFault s.cfg .captureOverrun s.readPtr s.processReadPtr with
  | some f =>
    rw [capPush_of_fault h, capPush_of_fault (s := s.withMainLoopOf m) h]
    exact raiseFault_ignoresMainLoop f s m
  | none =>
    rw [capPush_of_room h, capPush_of_room (s := s.withMainLoopOf m) h, capPushBody_ignoresMainLoop s m]
    exact returnCode_ignoresMainLoop .ok (capPushBody s) m

/-- The test of `PLAY.POP` looks at the counters alone. -/
theorem playPop_ignoresMainLoop : IgnoresMainLoop playPop := by
  intro s m
  by_cases h : s.writePtr < s.processWritePtr
  · rw [playPop_of_waiting h, playPop_of_waiting (s := s.withMainLoopOf m) h, playPopBody_ignoresMainLoop s m]
    exact returnCode_ignoresMainLoop .ok (playPopBody s) m
  · rw [playPop_of_empty h, playPop_of_empty (s := s.withMainLoopOf m) h]
    exact returnCode_ignoresMainLoop .empty s m

/-- Admission asks the configuration alone, and what it lets agent I read is agent I's. -/
theorem windowRead_ignoresMainLoop (win idx : Nat) : IgnoresMainLoop (windowRead .I win idx) := by
  intro s m
  cases h : admitWindow .I false s.cfg win idx with
  | error code =>
    rw [windowRead_of_error h, windowRead_of_error (s := s.withMainLoopOf m) h]
    exact returnCode_ignoresMainLoop code s m
  | ok w =>
    obtain ⟨-, -, ho, -⟩ := admitWindow_ok h
    rw [windowRead_of_ok h, windowRead_of_ok (s := s.withMainLoopOf m) h, State.item, win_withMainLoopOf ho]
    rfl

theorem windowWrite_ignoresMainLoop (win idx : Nat) : IgnoresMainLoop (windowWrite .I win idx) := by
  intro s m
  cases h : admitWindow .I true s.cfg win idx with
  | error code =>
    rw [windowWrite_of_error h, windowWrite_of_error (s := s.withMainLoopOf m) h]
    exact returnCode_ignoresMainLoop code s m
  | ok w =>
    obtain ⟨-, -, ho, -⟩ := admitWindow_ok h
    rw [windowWrite_of_ok h, windowWrite_of_ok (s := s.withMainLoopOf m) h, storeWin_withMainLoopOf ho]
    rfl

/-- The halt is a bit of `ERR`, which is not agent M's. -/
theorem unlessHalted_ignoresMainLoop {f : State → State} (hf : IgnoresMainLoop f) :
    IgnoresMainLoop fun s => unlessHalted .I s f := by
  intro s m
  change unlessHalted .I (s.withMainLoopOf m) f = (unlessHalted .I s f).withMainLoopOf m
  by_cases he : s.err = 0
  · rw [unlessHalted_running he, unlessHalted_running (s := s.withMainLoopOf m) he]
    exact hf s m
  · rw [unlessHalted_halted he, unlessHalted_halted (s := s.withMainLoopOf m) he]
    exact returnCode_ignoresMainLoop .halted s m

/-- The commands of the I port (30_encoding.md R93, R97). -/
theorem interrupt_command_cases {i : Instr} (h : i.port = .I) :
    i = .capPush ∨ i = .playPop ∨ (∃ win idx, i = .iwinRd win idx) ∨ ∃ win idx, i = .iwinWr win idx := by
  cases i with
  | capPush => exact .inl rfl
  | playPop => exact .inr (.inl rfl)
  | iwinRd win idx => exact .inr (.inr (.inl ⟨win, idx, rfl⟩))
  | iwinWr win idx => exact .inr (.inr (.inr ⟨win, idx, rfl⟩))
  | _ => cases h

/-- Every command of agent I is an operation that ignores agent M's part of the state. -/
theorem exec_ignoresMainLoop {i : Instr} (hport : i.port = .I) :
    ∃ f, IgnoresMainLoop f ∧ ∀ s, exec i s = .next (f s) := by
  obtain rfl | rfl | ⟨win, idx, rfl⟩ | ⟨win, idx, rfl⟩ := interrupt_command_cases hport
  · exact ⟨_, unlessHalted_ignoresMainLoop capPush_ignoresMainLoop, fun _ => rfl⟩
  · exact ⟨_, unlessHalted_ignoresMainLoop playPop_ignoresMainLoop, fun _ => rfl⟩
  · exact ⟨_, windowRead_ignoresMainLoop win idx, fun _ => rfl⟩
  · exact ⟨_, unlessHalted_ignoresMainLoop (windowWrite_ignoresMainLoop win idx), fun _ => rfl⟩

/-- Settles O20: the two states are one state with two main loops' parts, which the command carries along. -/
theorem interruptCommandsIgnoreMainLoopState : Obligations.InterruptCommandsIgnoreMainLoopState := by
  unfold Obligations.InterruptCommandsIgnoreMainLoopState
  intro i s u s' u' hport hs hu hagree
  obtain ⟨f, hf, hexec⟩ := exec_ignoresMainLoop hport
  obtain rfl : f s = s' := Host.Outcome.next.inj ((hexec s).symm.trans hs)
  obtain rfl : f u = u' := Host.Outcome.next.inj ((hexec u).symm.trans hu)
  calc f u = f (s.withMainLoopOf u) := congrArg f hagree
    _ = (f s).withMainLoopOf u := hf s u

/-! ### How a command ends -/

/-- Settles O14: the halt is tested before anything else, on the command's own port. -/
theorem haltedBlockRefusesCommands : Obligations.HaltedBlockRefusesCommands := by
  unfold Obligations.HaltedBlockRefusesCommands
  exact fun _ => refusesWhileHalted_of_runsWhileHalted_eq_false

/-- The commands that can raise a fault: the table of causes of 60_exceptions.md R241. -/
def raisedBy : Fault → List Instr
  | .captureOverrun => [.capPush]
  | .playbackOverrun => [.playPush, .seqStep]
  | .inferenceA => [.seqStep]
  | .inferenceB => [.seqStep]
  | .indexOverflow => [.capPush, .playPush, .seqStep]

/-- The three ways a command ends (60_exceptions.md R240): refused or empty, and then nothing but the code is written;
completed; or stopped by a fault. A running block that completes a command still runs. -/
inductive Ends (i : Instr) (s : State) : State → Prop
  | refused (code : ResultCode) (hc : code ∈ [ResultCode.empty, .range, .perm, .halted]) :
      Ends i s (returnCode i.port code s)
  | completed (t : State) (herr : s.err = 0 → t.err = 0) : Ends i s (returnCode i.port .ok t)
  | faulted (f : Fault) (t : State) (hf : i ∈ raisedBy f) (herr : t.err = s.err) : Ends i s (raiseFault i.port f t)

/-- Every command ends in one of the three ways. -/
theorem exec_ends {i : Instr} {s t : State} (h : exec i s = .next t) : Ends i s t := by
  cases exec_effect h with
  | refused code hc => exact .refused code hc
  | nop hi => subst hi; exact .completed s id
  | setup hi => subst hi; exact .completed (resetBlock s) fun _ => rfl
  | read w idx => exact .completed _ fun he => (setPortData_err _ _ _).trans he
  | write w idx => exact .completed _ id
  | capPop hi => subst hi; exact .completed (capPopBody s) id
  | playPop hi => subst hi; exact .completed (playPopBody s) id
  | capPush hi => subst hi; exact .completed (capPushBody s) id
  | playPush hi => subst hi; exact .completed (playPushBody s) id
  | capFault f hf hi =>
    subst hi
    exact .faulted f s (by rcases hf with rfl | rfl <;> simp [raisedBy]) rfl
  | playFault f hf hi =>
    subst hi
    exact .faulted f s (by rcases hf with rfl | rfl <;> simp [raisedBy]) rfl
  | compute u hM _ _ hw =>
    rw [← hM]
    exact .completed u fun he => hw.err.trans he
  | seqFault f u hi _ _ hw _ hf =>
    subst hi
    have hlisted : Instr.seqStep ∈ raisedBy f := by
      rcases hf with ⟨rfl, _⟩ | ⟨rfl, _⟩ | ⟨rfl | rfl, _⟩ <;> simp [raisedBy]
    exact .faulted f u hlisted hw.err
  | seqDone u hi _ _ hw =>
    subst hi
    exact .completed ((playPushBody u).setSeq .idle) fun he => hw.err.trans he

/-- Settles O15: `R_OK` and the codes of faults are not among the five, and a refusal writes the code alone. -/
theorem refusedCommandChangesOnlyResult : Obligations.RefusedCommandChangesOnlyResult := by
  unfold Obligations.RefusedCommandChangesOnlyResult
  intro i s t h hcode
  cases exec_ends h with
  | refused code => cases i.port <;> rfl
  | completed u =>
    rw [resultOf_returnCode] at hcode
    exact absurd hcode (by decide)
  | faulted f u =>
    rw [resultOf_raiseFault] at hcode
    exact absurd hcode (codeWord_faultCode_not_refusal f).1

/-- `R_OK`, `R_EMPTY` and the codes of refusals are no fault's code. -/
theorem codeWord_not_fault {code : ResultCode} (h : code ∈ [ResultCode.ok, .empty, .range, .perm, .halted]) :
    codeWord code ∉ [(0x20 : Word), 0x21, 0x22, 0x23] := by
  revert h
  cases code <;> decide

/-- Settles O16: in a running block a fault leaves its own bit alone in `ERR`, and the table of causes lists the
command; a command that ends otherwise leaves `ERR` zero. -/
theorem faultSetsOneErrBitAndItsCode : Obligations.FaultSetsOneErrBitAndItsCode := by
  unfold Obligations.FaultSetsOneErrBitAndItsCode
  intro i s t he h
  cases exec_ends h with
  | refused code hc =>
    rw [returnCode_err, resultOf_returnCode]
    exact .inl ⟨he, codeWord_not_fault (List.mem_cons_of_mem _ hc)⟩
  | completed u herr =>
    rw [returnCode_err, resultOf_returnCode]
    exact .inl ⟨herr he, codeWord_not_fault (by simp)⟩
  | faulted f u hf herr =>
    rw [raiseFault_of_running (herr.trans he), returnCode_err, resultOf_returnCode, State.setErr_err]
    right
    cases f with
    | captureOverrun => exact .inl ⟨rfl, rfl, by simpa [raisedBy] using hf⟩
    | playbackOverrun => exact .inr (.inl ⟨rfl, rfl, by simpa [raisedBy] using hf⟩)
    | inferenceA => exact .inr (.inr (.inl ⟨rfl, rfl, by simpa [raisedBy] using hf⟩))
    | inferenceB => exact .inr (.inr (.inr (.inl ⟨rfl, rfl, by simpa [raisedBy] using hf⟩)))
    | indexOverflow => exact .inr (.inr (.inr (.inr ⟨rfl, rfl, by simpa [raisedBy] using hf⟩)))

end Sys2Proof.Machine
end
